-- ==== Sys2Proof/Word.lean ====
section
/-! DEFINITION. The values the prefix-code engine moves: bytes, 64-bit words, bits, codes, the tree type and the
three 256-entry tables (00_scope.md R5, R12; 10_state.md R31 to R34). Types only. -/

namespace Sys2Proof

/-- A byte of SRC or SNK, a symbol 0 to 255, an operand field of a command word. -/
abbrev Byte := BitVec 8

/-- A 64-bit register or table entry. -/
abbrev Word := BitVec 64

/-- One bit of the bit stream; `false` is 0 and a left edge, `true` is 1 and a right edge. -/
abbrev Bit := Bool

/-- A code, first bit first; its length is the code's length, and `[]` means the symbol has none (10_state.md R34). -/
abbrev Code := List Bit

/-- FT and QT: one 64-bit value for each symbol (10_state.md R31, R32). -/
abbrev Table := Vector Word 256

/-- CT: one code for each symbol (10_state.md R34). -/
abbrev CodeTable := Vector Code 256

/-- The spec's type `Tree ::= Leaf(sym) | Node(left, right)` (00_scope.md R12). -/
inductive CodeTree where
  | leaf (sym : Byte)
  | node (left right : CodeTree)
  deriving DecidableEq, Repr, Inhabited

end Sys2Proof
end

