-- ==== Sys2Proof/Syntax.lean ====
section
/-! DEFINITION. The commands: one constructor for each row of spec/opcode_table.json (30_encoding.md R93). Operands are
the 8-bit fields of the command word as they stand (R92). -/

namespace Sys2Proof

/-- A command of the opcode map (30_encoding.md R93). -/
inductive Instr where
  | nop
  | clrf
  | srst
  | fclr
  | fscan
  | fset (sym : Byte)
  | fget (sym : Byte)
  | quant (w : Byte)
  | qset (sym : Byte)
  | qget (sym : Byte)
  | hbuild (tsel : Byte)
  | sbuild (tsel : Byte)
  | clen (sym : Byte)
  | cbits (sym k : Byte)
  | tser
  | tload
  | tdrop
  | wrst
  | wbit (b : Byte)
  | wflush
  | rrst
  | rbit
  | encode
  | decode
  | srcclr
  | snkclr
  deriving DecidableEq, Repr

/-- The six formats of a command word (30_encoding.md R91). -/
inductive Format where
  | N | S | SK | W | G | I
  deriving DecidableEq, Repr

/-- A format that has an operand in field A (30_encoding.md R91). -/
def Format.usesA : Format → Bool
  | .N => false
  | .S | .SK | .W | .G | .I => true

/-- A format that has an operand in field B (30_encoding.md R91). -/
def Format.usesB : Format → Bool
  | .SK | .G => true
  | .N | .S | .W | .I => false

end Sys2Proof
end

