-- ==== Sys2Proof/WellFormed.lean ====
section
/-! DEFINITION. Which operands a command may carry: the legal ranges of 30_encoding.md R91. A symbol and QUANT's
width are legal at every value of their field; the chunk index, the table select and the bit are not. -/

namespace Sys2Proof

/-- Field B of CBITS is a chunk index 0 to 3 (30_encoding.md R91, format SK). -/
def chunkLegal (k : Byte) : Bool := k.toNat ≤ 3

/-- Field B of HBUILD and SBUILD is 0 (FT) or 1 (QT) (30_encoding.md R91, format G). -/
def tselLegal (t : Byte) : Bool := t.toNat ≤ 1

/-- Field A of WBIT is 0 or 1 (30_encoding.md R91, format I). -/
def bitLegal (b : Byte) : Bool := b.toNat ≤ 1

/-- The operands of `i` are in the ranges its format gives (30_encoding.md R91). -/
def Instr.wellFormed : Instr → Bool
  | .nop | .clrf | .srst | .fclr | .fscan => true
  | .fset _ | .fget _ | .quant _ | .qset _ | .qget _ | .clen _ => true
  | .hbuild t => tselLegal t
  | .sbuild t => tselLegal t
  | .cbits _ k => chunkLegal k
  | .wbit b => bitLegal b
  | .tser | .tload | .tdrop | .wrst | .wflush | .rrst | .rbit => true
  | .encode | .decode | .srcclr | .snkclr => true

end Sys2Proof
end

