-- ==== Sys2Proof/Decode.lean ====
section
/-! DEFINITION. Decoding and encoding of the 32-bit command word (30_encoding.md R90 to R97), the opcode map of R93
as a list of rows, and the host's `decodeTableWord`. -/

namespace Sys2Proof

/-- A command word, the value written to CMD (30_encoding.md R90). -/
abbrev CommandWord := BitVec 32

/-- Field OP, bits 31:24 (30_encoding.md R90). -/
def fieldOP (c : CommandWord) : Byte := c.extractLsb' 24 8

/-- Field A, bits 23:16 (30_encoding.md R90). -/
def fieldA (c : CommandWord) : Byte := c.extractLsb' 16 8

/-- Field B, bits 15:8 (30_encoding.md R90). -/
def fieldB (c : CommandWord) : Byte := c.extractLsb' 8 8

/-- Field Z, bits 7:0 (30_encoding.md R90). -/
def fieldZ (c : CommandWord) : Byte := c.extractLsb' 0 8

/-- Why a word is no command (30_encoding.md R95). -/
inductive Illegal where
  /-- OP is none of the 25 opcodes (R96). -/
  | undefinedOpcode
  /-- Z is not 0. -/
  | nonzeroZ
  /-- A field the format does not use is not 0. -/
  | nonzeroUnusedField
  /-- CBITS with a chunk index above 3. -/
  | chunkOutOfRange
  /-- BUILD with a table select above 1. -/
  | tableSelectOutOfRange
  /-- WBIT with a bit above 1. -/
  | bitOutOfRange
  deriving DecidableEq, Repr

/-- What a word decodes to.
DESIGN CHOICE, safe: a BUILD of an algorithm that is not implemented is an outcome of its own and no constructor of
`Instr`, whose constructors are the rows of the opcode table (log 9). -/
inductive Decoded where
  | instr (i : Instr)
  /-- A well-formed BUILD whose `alg` is neither 1 nor 3 (30_encoding.md R94). -/
  | unsupportedBuild (alg tsel : Byte)
  | illegal (why : Illegal)
  deriving DecidableEq, Repr

/-- The format of each of the 25 opcodes (30_encoding.md R93); `none` for the reserved ones (R96). -/
def formatOf (op : Byte) : Option Format :=
  match op.toNat with
  | 0x00 | 0x01 | 0x02 => some .N
  | 0x10 | 0x11 => some .N
  | 0x12 | 0x13 => some .S
  | 0x18 => some .W
  | 0x19 | 0x1A => some .S
  | 0x20 => some .G
  | 0x21 => some .S
  | 0x22 => some .SK
  | 0x23 | 0x24 | 0x25 => some .N
  | 0x30 => some .N
  | 0x31 => some .I
  | 0x32 => some .N
  | 0x38 | 0x39 => some .N
  | 0x40 | 0x41 => some .N
  | 0x50 | 0x51 => some .N
  | _ => none

/-- The command an opcode with checked fields stands for (30_encoding.md R92 to R94, R101). -/
def assemble (op a b : Byte) : Decoded :=
  match op.toNat with
  | 0x00 => .instr .nop
  | 0x01 => .instr .clrf
  | 0x02 => .instr .srst
  | 0x10 => .instr .fclr
  | 0x11 => .instr .fscan
  | 0x12 => .instr (.fset a)
  | 0x13 => .instr (.fget a)
  | 0x18 => .instr (.quant a)
  | 0x19 => .instr (.qset a)
  | 0x1A => .instr (.qget a)
  | 0x20 =>
    if a = 1 then .instr (.hbuild b)
    else if a = 3 then .instr (.sbuild b)
    else .unsupportedBuild a b
  | 0x21 => .instr (.clen a)
  | 0x22 => .instr (.cbits a b)
  | 0x23 => .instr .tser
  | 0x24 => .instr .tload
  | 0x25 => .instr .tdrop
  | 0x30 => .instr .wrst
  | 0x31 => .instr (.wbit a)
  | 0x32 => .instr .wflush
  | 0x38 => .instr .rrst
  | 0x39 => .instr .rbit
  | 0x40 => .instr .encode
  | 0x41 => .instr .decode
  | 0x50 => .instr .srcclr
  | 0x51 => .instr .snkclr
  | _ => .illegal .undefinedOpcode

/-- A field the format does not use is nonzero (30_encoding.md R95). -/
def unusedNonzero (f : Format) (a b : Byte) : Bool :=
  (!f.usesA && a != 0) || (!f.usesB && b != 0)

/-- Decoding, with the checks in the order of 30_encoding.md R95. The gate on FAULT, its first line, is
`runCommand`'s. -/
def decode (c : CommandWord) : Decoded :=
  match formatOf (fieldOP c) with
  | none => .illegal .undefinedOpcode
  | some f =>
    if fieldZ c ≠ 0 then .illegal .nonzeroZ
    else if unusedNonzero f (fieldA c) (fieldB c) then .illegal .nonzeroUnusedField
    else if f = .SK ∧ chunkLegal (fieldB c) = false then .illegal .chunkOutOfRange
    else if f = .G ∧ tselLegal (fieldB c) = false then .illegal .tableSelectOutOfRange
    else if f = .I ∧ bitLegal (fieldA c) = false then .illegal .bitOutOfRange
    else assemble (fieldOP c) (fieldA c) (fieldB c)

/-- `word = OP * 2^24 + A * 2^16 + B * 2^8 + Z` with Z = 0 (30_encoding.md R90). -/
def commandWord (op a b : Byte) : CommandWord := op ++ a ++ b ++ (0 : Byte)

/-- The word of a command (30_encoding.md R93). -/
def encode : Instr → CommandWord
  | .nop => commandWord 0x00 0 0
  | .clrf => commandWord 0x01 0 0
  | .srst => commandWord 0x02 0 0
  | .fclr => commandWord 0x10 0 0
  | .fscan => commandWord 0x11 0 0
  | .fset sym => commandWord 0x12 sym 0
  | .fget sym => commandWord 0x13 sym 0
  | .quant w => commandWord 0x18 w 0
  | .qset sym => commandWord 0x19 sym 0
  | .qget sym => commandWord 0x1A sym 0
  | .hbuild tsel => commandWord 0x20 1 tsel
  | .sbuild tsel => commandWord 0x20 3 tsel
  | .clen sym => commandWord 0x21 sym 0
  | .cbits sym k => commandWord 0x22 sym k
  | .tser => commandWord 0x23 0 0
  | .tload => commandWord 0x24 0 0
  | .tdrop => commandWord 0x25 0 0
  | .wrst => commandWord 0x30 0 0
  | .wbit b => commandWord 0x31 b 0
  | .wflush => commandWord 0x32 0 0
  | .rrst => commandWord 0x38 0 0
  | .rbit => commandWord 0x39 0 0
  | .encode => commandWord 0x40 0 0
  | .decode => commandWord 0x41 0 0
  | .srcclr => commandWord 0x50 0 0
  | .snkclr => commandWord 0x51 0 0

/-- The mnemonic of a command in the opcode map (30_encoding.md R93). -/
def mnemonicOf : Instr → String
  | .nop => "NOP"
  | .clrf => "CLRF"
  | .srst => "SRST"
  | .fclr => "FCLR"
  | .fscan => "FSCAN"
  | .fset _ => "FSET"
  | .fget _ => "FGET"
  | .quant _ => "QUANT"
  | .qset _ => "QSET"
  | .qget _ => "QGET"
  | .hbuild _ => "HBUILD"
  | .sbuild _ => "SBUILD"
  | .clen _ => "CLEN"
  | .cbits _ _ => "CBITS"
  | .tser => "TSER"
  | .tload => "TLOAD"
  | .tdrop => "TDROP"
  | .wrst => "WRST"
  | .wbit _ => "WBIT"
  | .wflush => "WFLUSH"
  | .rrst => "RRST"
  | .rbit => "RBIT"
  | .encode => "ENCODE"
  | .decode => "DECODE"
  | .srcclr => "SRCCLR"
  | .snkclr => "SNKCLR"

/-- A row of the opcode map: a word `c` selects it when `c & mask = pattern` (30_encoding.md R93). -/
structure OpRow where
  mnemonic : String
  pattern : CommandWord
  mask : CommandWord
  deriving DecidableEq, Repr

/-- `c` selects the row `r` (30_encoding.md R93). -/
def OpRow.selects (r : OpRow) (c : CommandWord) : Bool := c &&& r.mask == r.pattern

/-- The opcode map as the spec's table has it: mnemonic, match, mask (30_encoding.md R93). -/
def opcodeRows : List OpRow :=
  [ ⟨"NOP",    0x00000000, 0xFFFFFFFF⟩
  , ⟨"CLRF",   0x01000000, 0xFFFFFFFF⟩
  , ⟨"SRST",   0x02000000, 0xFFFFFFFF⟩
  , ⟨"FCLR",   0x10000000, 0xFFFFFFFF⟩
  , ⟨"FSCAN",  0x11000000, 0xFFFFFFFF⟩
  , ⟨"FSET",   0x12000000, 0xFF00FFFF⟩
  , ⟨"FGET",   0x13000000, 0xFF00FFFF⟩
  , ⟨"QUANT",  0x18000000, 0xFF00FFFF⟩
  , ⟨"QSET",   0x19000000, 0xFF00FFFF⟩
  , ⟨"QGET",   0x1A000000, 0xFF00FFFF⟩
  , ⟨"HBUILD", 0x20010000, 0xFFFFFEFF⟩
  , ⟨"SBUILD", 0x20030000, 0xFFFFFEFF⟩
  , ⟨"CLEN",   0x21000000, 0xFF00FFFF⟩
  , ⟨"CBITS",  0x22000000, 0xFF00FCFF⟩
  , ⟨"TSER",   0x23000000, 0xFFFFFFFF⟩
  , ⟨"TLOAD",  0x24000000, 0xFFFFFFFF⟩
  , ⟨"TDROP",  0x25000000, 0xFFFFFFFF⟩
  , ⟨"WRST",   0x30000000, 0xFFFFFFFF⟩
  , ⟨"WBIT",   0x31000000, 0xFFFEFFFF⟩
  , ⟨"WFLUSH", 0x32000000, 0xFFFFFFFF⟩
  , ⟨"RRST",   0x38000000, 0xFFFFFFFF⟩
  , ⟨"RBIT",   0x39000000, 0xFFFFFFFF⟩
  , ⟨"ENCODE", 0x40000000, 0xFFFFFFFF⟩
  , ⟨"DECODE", 0x41000000, 0xFFFFFFFF⟩
  , ⟨"SRCCLR", 0x50000000, 0xFFFFFFFF⟩
  , ⟨"SNKCLR", 0x51000000, 0xFFFFFFFF⟩ ]

/-- The word CLRF, which a faulted PCE executes (30_encoding.md R95). -/
def clrfWord : CommandWord := 0x01000000

/-- The word SRST, which a faulted PCE executes (30_encoding.md R95). -/
def srstWord : CommandWord := 0x02000000

/-- The host's reading of an opcode-table word: the low `nbits` bits of `w`, the rest zero, as the value written to
CMD; the instruction the decoder gives, none where it gives none. Command words have one length, 32 bits (R90). -/
def decodeTableWord (nbits w : Nat) : Option Instr :=
  match decode (BitVec.ofNat 32 (w % 2 ^ nbits)) with
  | .instr i => some i
  | .unsupportedBuild _ _ => none
  | .illegal _ => none

end Sys2Proof
end

