-- ==== Sys2Proof/Config.lean ====
section
/-! DEFINITION. What is fixed for one machine (the spec's OPEN parameters), the constants the spec chose, and the free
values (opaque: nothing can be proved of which value they are). -/

namespace Sys2Proof

/-- The OPEN parameters SRC_CAP and SNK_CAP, the capacities of the queues in bytes; `none` is unbounded
(00_scope.md R7, 92_eei_decisions.md D20).
DESIGN CHOICE, safe: they travel in State, which no step changes (log 4). -/
structure Config where
  srcCap : Option Nat
  snkCap : Option Nat
  deriving DecidableEq, Repr

/-- Both queues unbounded, the spec's default (92_eei_decisions.md D20). -/
def Config.unbounded : Config := { srcCap := none, snkCap := none }

/-- The content of TREE once the tree is dropped: unspecified (10_state.md R33, 93_implementation_defined.md I12).
DESIGN CHOICE, safe: a free value, one for each number drawn from State's counter (log 6). -/
opaque Config.freeTree : Nat → CodeTree

/-- The content of CT once the tree is dropped: unspecified (10_state.md R34, 93_implementation_defined.md I12).
DESIGN CHOICE, safe: a free value (log 6). -/
opaque Config.freeCodes : Nat → CodeTable

/-- What a 64-bit register shows of a count of 2^64 or more, which the spec does not state.
DESIGN CHOICE, safe: a free value (log 8). -/
opaque Config.wideCount : Nat → Word

end Sys2Proof
end

