-- ==== Sys2Proof/Machine/State.lean ====
section
/-! DEFINITION. The state of the PCE (10_state.md), the host's moves, the kinds of fault the PCE records, the reasons a
step of the model can stop, and the state after reset (10_state.md R38). -/

namespace Sys2Proof.Machine

/-- The kinds of fault a command can raise (60_exceptions.md R230). Raising one is a NEXT state (R240). -/
inductive FaultKind where
  /-- Never raised by the PCE; it keeps its code (R247). -/
  | signatureMismatch
  /-- BUILD with `alg` neither 1 nor 3 (R231). -/
  | unsupportedVersionOrAlgorithm
  /-- QUANT with `w` outside 1 to 64 (R232). -/
  | unsupportedBitWidth
  /-- DECODE or TLOAD ran out of data (R233). -/
  | truncatedInput
  /-- DECODE on a degenerate tree read a 1 (R234). -/
  | invalidCode
  /-- ENCODE met a byte without a code (R235). -/
  | absentSymbol
  /-- ENCODE, DECODE, TSER, CLEN or CBITS with TV = 0 (R236). -/
  | noTree
  /-- TLOAD met a malformed serial tree (R237). -/
  | invalidTree
  /-- A word that is no command (R238). -/
  | illegalCommand
  /-- A push to SNK at capacity (R239). -/
  | sinkFull
  deriving DecidableEq, Repr

/-- A host move (20_memory.md R60). The index is any number, so that a move at an index that does not exist can be
refused (R75). -/
inductive HostMove where
  /-- `HostRead(i)`. -/
  | read (i : Nat)
  /-- `HostWrite(i, v)`. -/
  | write (i : Nat) (v : Word)
  deriving DecidableEq, Repr

/-- The state of the PCE and, at the end, the model's own fields. -/
structure State where
  /-- ARG0 (10_state.md R21). -/
  arg0 : Word
  /-- ARG1, plain storage that no command names (10_state.md R21). -/
  arg1 : Word
  /-- STATUS.ERR (10_state.md R23). -/
  err : BitVec 8
  /-- STATUS.FAULT (10_state.md R23). -/
  fault : Bool
  /-- STATUS.TV, tree valid (10_state.md R23). -/
  tv : Bool
  /-- STATUS.EOD, end of data (10_state.md R23). -/
  eod : Bool
  /-- STATUS.SYN, synthetic tree (10_state.md R23). -/
  syn : Bool
  /-- STATUS.TALG, algorithm of the current tree (10_state.md R23). -/
  talg : BitVec 8
  /-- ERRINFO0 (10_state.md R25). -/
  errinfo0 : Word
  /-- ERRINFO1 (10_state.md R25). -/
  errinfo1 : Word
  /-- LEN (10_state.md R26). -/
  len : Word
  /-- WTOTAL (10_state.md R27). -/
  wtotal : Word
  /-- WACC (10_state.md R28). -/
  wacc : BitVec 8
  /-- WCNT (10_state.md R28). -/
  wcnt : BitVec 4
  /-- RACC (10_state.md R29). -/
  racc : BitVec 8
  /-- RCNT (10_state.md R29). -/
  rcnt : BitVec 4
  /-- FT, the frequency table (10_state.md R31). -/
  ft : Table
  /-- QT, the quantised table (10_state.md R32). -/
  qt : Table
  /-- TREE, meaningful only when TV = 1 (10_state.md R33). -/
  tree : CodeTree
  /-- CT, meaningful only when TV = 1 (10_state.md R34). -/
  ct : CodeTable
  /-- SRC, head first (10_state.md R35). -/
  src : List Byte
  /-- SNK, head first (10_state.md R35). -/
  snk : List Byte
  /-- The model's own: SRC_CAP and SNK_CAP; no step changes them (log 4). -/
  cfg : Config
  /-- The model's own: the host moves not yet made, the next one first (log 1). -/
  moves : List HostMove
  /-- The model's own: what the HostReads returned, oldest first (log 3). -/
  returned : List Word
  /-- The model's own: the number of the next free value (log 7). -/
  freeCount : Nat
  deriving DecidableEq, Repr

/-- The reasons for which the machine stops with a fault: none. No step of the PCE is stuck
(93_implementation_defined.md I14), and a fault a command raises is a next state (60_exceptions.md R240). -/
inductive Fault where
  deriving DecidableEq, Repr

/-- The reasons for which the model refuses. -/
inductive Refusal where
  /-- Raised by an arm of `exec` whose command has no meaning yet. Safe. -/
  | notModelled (mnemonic : String)
  /-- Raised by a host move at a register index outside 0 to 15, which "does not exist: a model refuses such a move"
  (20_memory.md R75). Safe. -/
  | noSuchRegister (i : Nat)
  deriving DecidableEq, Repr

/-- The state after reset (10_state.md R38, 70_reset_and_hazards.md R260).
DESIGN CHOICE: TREE and CT, which the spec leaves unspecified behind TV = 0, are `Leaf 0` and no codes (log 5), and the
model's own fields are as logs 1, 3, 4 and 7 say. -/
def State.reset : State where
  arg0 := 0
  arg1 := 0
  err := 0
  fault := false
  tv := false
  eod := false
  syn := false
  talg := 0
  errinfo0 := 0
  errinfo1 := 0
  len := 0
  wtotal := 0
  wacc := 0
  wcnt := 0
  racc := 0
  rcnt := 0
  ft := Vector.replicate 256 0
  qt := Vector.replicate 256 0
  tree := .leaf 0
  ct := Vector.replicate 256 []
  src := []
  snk := []
  cfg := Config.unbounded
  moves := []
  returned := []
  freeCount := 0

end Sys2Proof.Machine
end

