-- ==== Sys2Proof/Machine/Flags.lean ====
section
/-! DEFINITION. The flags: the read-outs STATUS, WSTATE and RSTATE (10_state.md R23, R24, R28, R29).
The other flags are set by the shared operations of Ops.lean. -/

namespace Sys2Proof.Machine

/-- One flag as a field of a register. -/
def flagBit (b : Bool) : BitVec 1 := if b then 1 else 0

/-- STATUS as a 32-bit register; bits 31:24 and 15:12 are reserved and read as 0 (10_state.md R23). -/
def statusWord (s : State) : BitVec 32 :=
  (0 : BitVec 8) ++ s.talg ++ (0 : BitVec 4) ++ flagBit s.syn ++ flagBit s.eod ++ flagBit s.tv ++ flagBit s.fault ++ s.err

/-- WSTATE: WACC in bits 7:0, WCNT in bits 11:8, bits 15:12 are 0 (10_state.md R28). -/
def wstateWord (s : State) : BitVec 16 := (0 : BitVec 4) ++ s.wcnt ++ s.wacc

/-- RSTATE: RACC in bits 7:0, RCNT in bits 11:8, bits 15:12 are 0 (10_state.md R29). -/
def rstateWord (s : State) : BitVec 16 := (0 : BitVec 4) ++ s.rcnt ++ s.racc

end Sys2Proof.Machine
end

