-- ==== Sys2Proof/Machine/Operands.lean ====
section
/-! DEFINITION. Operand forms: table entries indexed by a symbol, the table select, the weighted symbols of a table, the
64-bit read-out of a count and of a chunk of a code (30_encoding.md R92, 00_scope.md R10). -/

namespace Sys2Proof.Machine

/-- `MemRead(FT, s, 64)` and `MemRead(QT, s, 64)` (00_scope.md R10). -/
def tableGet (t : Table) (s : Byte) : Word := t[s.toNat]'s.isLt

/-- `MemWrite(FT, s, 64, v)` and `MemWrite(QT, s, 64, v)` (00_scope.md R10). -/
def tableSet (t : Table) (s : Byte) (v : Word) : Table := t.set s.toNat v s.isLt

/-- The table with every entry 0. -/
def zeroTable : Table := Vector.replicate 256 0

/-- `CT[s]` (10_state.md R34). -/
def codeOf (ct : CodeTable) (s : Byte) : Code := ct[s.toNat]'s.isLt

/-- `C[s] <- p` (43_huffman_builder.md R155). -/
def codeSet (ct : CodeTable) (s : Byte) (c : Code) : CodeTable := ct.set s.toNat c s.isLt

/-- The code table in which no symbol has a code. -/
def noCodes : CodeTable := Vector.replicate 256 []

/-- The 256 symbols, ascending (00_scope.md R5). -/
def allSymbols : List Byte := (List.range 256).map (BitVec.ofNat 8)

/-- A symbol with its weight, an exact natural (00_scope.md R11). -/
structure Weighted where
  sym : Byte
  weight : Nat
  deriving DecidableEq, Repr

/-- `[ (s, t[s]) for s in 0..255 ascending if t[s] > 0 ]` (43_huffman_builder.md R150). -/
def presentSymbols (t : Table) : List Weighted :=
  (allSymbols.map fun s => ⟨s, (tableGet t s).toNat⟩).filter fun x => 0 < x.weight

/-- The order of the Shannon-Fano list and of the quantiser's rank list: weight descending, ties by symbol ascending
(44_shannon_fano.md R170, 42_quantizer.md R141). Symbols of a list are distinct, so `≤` on them is as good as `<`
(log 16). -/
def ranksBefore (x y : Weighted) : Bool :=
  y.weight < x.weight || (x.weight == y.weight && x.sym.toNat ≤ y.sym.toNat)

/-- A list of weighted symbols in the order of `ranksBefore`. -/
def ranked (l : List Weighted) : List Weighted := l.insertionSort fun x y => ranksBefore x y = true

/-- BUILD's table select: 0 selects FT, any other legal value (1) selects QT (43_huffman_builder.md R158). -/
def selectTable (tsel : Byte) (s : State) : Table := if tsel = 0 then s.ft else s.qt

/-- A 64-bit register that shows the count `n`. Every count below 2^64 shows as it is.
DESIGN CHOICE, safe: the spec does not state what a larger one shows, a free value (log 8). -/
def countWord (n : Nat) : Word := if n < 2 ^ 64 then BitVec.ofNat 64 n else Config.wideCount n

/-- Bits first-bit-first as a number, the first bit the most significant. -/
def bitsToNat (bits : List Bit) : Nat := bits.foldl (fun v b => 2 * v + b.toNat) 0

/-- Bits `64k` to `64k + 63` of a code, code bit `64k` at bit 63, bits at or beyond the code's length 0
(43_huffman_builder.md R160). -/
def codeChunk (c : Code) (k : Nat) : Word :=
  BitVec.ofNat 64 (bitsToNat ((List.range 64).map fun j => c.getD (64 * k + j) false))

end Sys2Proof.Machine
end

