-- ==== Sys2Proof/Machine/Ops.lean ====
section
/-! DEFINITION. The shared operations: fault entry and the return from it (60_exceptions.md R240, R242), the queues
(20_memory.md R65, R66), the bit writer and the bit reader (46_bitstream.md R191, R192, R196), and the life of the
tree (43_huffman_builder.md R158, R161, R162).

An operation that may raise a fault answers `Except State State`: `.error t` when it raised, where `t` is the state
fault entry left, and `.ok t` when the command goes on from `t`. -/

namespace Sys2Proof.Machine

/-- The outcome of a step of this machine. -/
abbrev Outcome := Host.Outcome State Fault Refusal

/-- STATUS.ERR for each kind (60_exceptions.md R230). -/
def faultCode : FaultKind → BitVec 8
  | .signatureMismatch => 1
  | .unsupportedVersionOrAlgorithm => 2
  | .unsupportedBitWidth => 3
  | .truncatedInput => 4
  | .invalidCode => 5
  | .absentSymbol => 6
  | .noTree => 7
  | .invalidTree => 8
  | .illegalCommand => 9
  | .sinkFull => 10

/-- Fault entry, `raise K(e0, e1)`: these four assignments and nothing else (60_exceptions.md R240). -/
def raise (k : FaultKind) (e0 e1 : Word) (s : State) : State :=
  { s with err := faultCode k, fault := true, errinfo0 := e0, errinfo1 := e1 }

/-- The return from a fault (60_exceptions.md R242, 48_system.md R221). -/
def clearFault (s : State) : State :=
  { s with err := 0, fault := false, errinfo0 := 0, errinfo1 := 0 }

/-- The end of a command, normal or by a fault: the write of CMD completes with the state reached (10_state.md R20,
60_exceptions.md R240). -/
def endCommand : Except State State → Outcome
  | .ok s => .next s
  | .error s => .next s

/-- A queue of `n` bytes has room for one more (20_memory.md R65, R66); an unbounded one always has. -/
def hasRoom (cap : Option Nat) (n : Nat) : Bool :=
  match cap with
  | none => true
  | some c => n < c

/-- The host's push to SRC; a push to a full queue is dropped (20_memory.md R65). -/
def srcPush (b : Byte) (s : State) : State :=
  if hasRoom s.cfg.srcCap s.src.length then { s with src := s.src ++ [b] } else s

/-- `SnkPush(b)`: append, or raise `SinkFull(|SNK|, b)` (20_memory.md R66). -/
def snkPush (b : Byte) (s : State) : Except State State :=
  if hasRoom s.cfg.snkCap s.snk.length then .ok { s with snk := s.snk ++ [b] }
  else .error (raise .sinkFull (countWord s.snk.length) (b.setWidth 64) s)

/-- `SnkPush` of each byte in order, up to the first that raises. -/
def snkPushAll : List Byte → State → Except State State
  | [], s => .ok s
  | b :: rest, s =>
    match snkPush b s with
    | .error t => .error t
    | .ok t => snkPushAll rest t

/-- A bit as a byte, 0 or 1. -/
def bitByte (b : Bit) : Byte := if b then 1 else 0

/-- A bit shifted into the writer's accumulator and counted, mod 256 and mod 2^64 (46_bitstream.md R191). -/
def shiftIn (b : Bit) (s : State) : State :=
  { s with wacc := s.wacc * 2 + bitByte b, wcnt := s.wcnt + 1, wtotal := s.wtotal + 1 }

/-- `WriteBit(b)`; a full accumulator is cleared before its byte is pushed (46_bitstream.md R191, 90_conflicts.md
C12). -/
def writeBit (b : Bit) (s : State) : Except State State :=
  let t := shiftIn b s
  if t.wcnt = 8 then snkPush t.wacc { t with wacc := 0, wcnt := 0 } else .ok t

/-- `WriteBit` of each bit in order, up to the first that raises. -/
def writeBits : List Bit → State → Except State State
  | [], s => .ok s
  | b :: rest, s =>
    match writeBit b s with
    | .error t => .error t
    | .ok t => writeBits rest t

/-- `Flush()`: the pending bits at the top of one byte, zeros below (46_bitstream.md R192). -/
def flushWriter (s : State) : Except State State :=
  if 0 < s.wcnt.toNat then
    snkPush (BitVec.ofNat 8 (s.wacc.toNat * 2 ^ (8 - s.wcnt.toNat))) { s with wacc := 0, wcnt := 0 }
  else .ok s

/-- The delivery of one bit from a reader that holds some (46_bitstream.md R196). -/
def takeBit (s : State) : Bit × State :=
  (s.racc.getLsbD 7, { s with racc := s.racc * 2, rcnt := s.rcnt - 1, eod := false })

/-- `ReadBit()`: a bit, or `none` for the result `EOD`; the refill is lazy (46_bitstream.md R196). -/
def readBit (s : State) : Option Bit × State :=
  if s.rcnt = 0 then
    match s.src with
    | [] => (none, { s with eod := true })
    | b :: rest =>
      let (bit, t) := takeBit { s with src := rest, racc := b, rcnt := 8 }
      (some bit, t)
  else
    let (bit, t) := takeBit s
    (some bit, t)

/-- The current tree is dropped: TV, TALG and SYN are 0 and TREE and CT hold nothing that is specified
(43_huffman_builder.md R161, R162, 10_state.md R33, R34).
DESIGN CHOICE, safe: a valid TREE and CT become free values (log 6). -/
def dropTree (s : State) : State :=
  { s with
    tv := false
    talg := 0
    syn := false
    tree := if s.tv then Config.freeTree s.freeCount else s.tree
    ct := if s.tv then Config.freeCodes s.freeCount else s.ct
    freeCount := if s.tv then s.freeCount + 1 else s.freeCount }

/-- `Walk(t, p)` (43_huffman_builder.md R155): every leaf's symbol gets the path to it, 0 for a left edge. -/
def walkCodes : CodeTree → Code → CodeTable → CodeTable
  | .leaf s, p, c => codeSet c s p
  | .node l r, p, c => walkCodes r (p ++ [true]) (walkCodes l (p ++ [false]) c)

/-- `Codes(t)`; the one symbol of a degenerate tree has the code `0` (43_huffman_builder.md R155, R156). -/
def codes : CodeTree → CodeTable
  | .leaf s => codeSet noCodes s [false]
  | .node l r => walkCodes (.node l r) [] noCodes

/-- A tree becomes the current one: TREE, CT, TV, TALG and SYN (43_huffman_builder.md R158, 45_tree_serial.md R182). -/
def installTree (t : CodeTree) (alg : BitVec 8) (syn : Bool) (s : State) : State :=
  { s with tree := t, ct := codes t, tv := true, talg := alg, syn := syn }

/-- Every command that needs a tree checks TV before anything else (60_exceptions.md R236). -/
def withTree (s : State) (go : State → Outcome) : Outcome :=
  if s.tv then go s else .next (raise .noTree 0 0 s)

end Sys2Proof.Machine
end

