-- ==== Sys2Proof/Machine/BitStream.lean ====
section
/-! DEFINITION. The bit-stream commands WRST, WBIT, WFLUSH, RRST, RBIT (46_bitstream.md). -/

namespace Sys2Proof.Machine

/-- WRST: reset the writer (46_bitstream.md R193). -/
def execWrst (s : State) : Outcome := .next { s with wacc := 0, wcnt := 0, wtotal := 0 }

/-- WBIT b: write one bit, `b` 0 or 1 (46_bitstream.md R194).
DESIGN CHOICE, safe: of a `b` that no command word can hold only bit 0 is used (log 11). -/
def execWbit (b : Byte) (s : State) : Outcome := endCommand (writeBit (b.getLsbD 0) s)

/-- WFLUSH: flush the writer (46_bitstream.md R195). -/
def execWflush (s : State) : Outcome := endCommand (flushWriter s)

/-- RRST: reset the reader (46_bitstream.md R197). -/
def execRrst (s : State) : Outcome := .next { s with racc := 0, rcnt := 0, eod := false }

/-- RBIT: read one bit into ARG0; 0 when the data has ended (46_bitstream.md R198). -/
def execRbit (s : State) : Outcome :=
  match readBit s with
  | (none, t) => .next { t with arg0 := 0 }
  | (some b, t) => .next { t with arg0 := (bitByte b).setWidth 64 }

end Sys2Proof.Machine
end

