-- ==== Sys2Proof/Machine/Builder.lean ====
section
/-! DEFINITION. The two tree builders, HBuild (43_huffman_builder.md R150 to R153) and SBuild (44_shannon_fano.md R170 to
R173), and the commands HBUILD, SBUILD, CLEN, CBITS, TDROP (43_huffman_builder.md R158 to R161, 44_shannon_fano.md
R175). Weights are exact naturals. -/

namespace Sys2Proof.Machine

/-- SYN_SYM, the symbol of the synthetic single-symbol fallback (00_scope.md R7). -/
def synSym : Byte := 0

/-- `Leaves(Tab)`: the present symbols, or the synthetic one with weight 1 (43_huffman_builder.md R150). -/
def leaves (t : Table) : List Weighted :=
  match presentSymbols t with
  | [] => [⟨synSym, 1⟩]
  | l => l

/-- A node of the Huffman builder's queue: weight, minimum symbol, tree (43_huffman_builder.md R151). -/
structure QNode where
  weight : Nat
  minSym : Byte
  tree : CodeTree
  deriving DecidableEq, Repr

/-- The priority order: weight ascending, then minimum symbol ascending (43_huffman_builder.md R151). The minimum symbols
in a queue are distinct, so `≤` on them is as good as `<` (log 16). -/
def comesBefore (x y : QNode) : Bool :=
  x.weight < y.weight || (x.weight == y.weight && x.minSym.toNat ≤ y.minSym.toNat)

/-- A node put into a queue kept in the order of R151. -/
def enqueue (x : QNode) (q : List QNode) : List QNode := q.orderedInsert (fun a b => comesBefore a b = true) x

/-- The queue of the leaves, first node first (43_huffman_builder.md R152). -/
def leafQueue (l : List Weighted) : List QNode :=
  (l.map fun x => (⟨x.weight, x.sym, .leaf x.sym⟩ : QNode)).insertionSort fun a b => comesBefore a b = true

/-- The merge of the two first nodes: the first is the left child (43_huffman_builder.md R152, R153). -/
def mergeNodes (a b : QNode) : QNode :=
  ⟨a.weight + b.weight, if a.minSym.toNat ≤ b.minSym.toNat then a.minSym else b.minSym, .node a.tree b.tree⟩

/-- The merge loop (43_huffman_builder.md R152). Each round makes the queue one shorter, so as many rounds as there are
nodes are enough and the two lines that answer without a single node left are never reached (log 12). -/
def mergeLoop : Nat → List QNode → CodeTree
  | _, [] => .leaf synSym
  | _, [x] => x.tree
  | 0, x :: _ => x.tree
  | fuel + 1, a :: b :: q => mergeLoop fuel (enqueue (mergeNodes a b) q)

/-- `HBuild(Tab)` (43_huffman_builder.md R152). -/
def hBuild (t : Table) : CodeTree := mergeLoop (leaves t).length (leafQueue (leaves t))

/-- `SortedList(Tab)` (44_shannon_fano.md R170). -/
def sortedList (t : Table) : List Weighted := ranked (leaves t)

/-- The sum of the weights of a range of the list (44_shannon_fano.md R171). -/
def rangeSum (l : List Weighted) : Nat := (l.map (·.weight)).sum

/-- `|2*left - T|` (44_shannon_fano.md R171, R173). -/
def imbalance (total left : Nat) : Nat := ((2 * left : Int) - (total : Int)).natAbs

/-- The scan of `Split` from index `k` with `left` and `d`, over the elements after index `k`: it never takes the last
element, and an equal difference continues it (44_shannon_fano.md R171, 90_conflicts.md C2). -/
def splitScan (total : Nat) : (k left d : Nat) → List Weighted → Nat
  | k, _, _, [] => k
  | k, _, _, [_] => k
  | k, left, d, x :: y :: rest =>
    let left2 := left + x.weight
    let d2 := imbalance total left2
    if d2 ≤ d then splitScan total (k + 1) left2 d2 (y :: rest) else k

/-- `Split` of a whole range: the index, counted from the start of the range, at which the left part ends
(44_shannon_fano.md R171). -/
def splitIndex (l : List Weighted) : Nat :=
  match l with
  | [] => 0
  | x :: rest => splitScan (rangeSum l) 0 x.weight (imbalance (rangeSum l) x.weight) rest

/-- `Part` of a range, given as the list of its elements (44_shannon_fano.md R172). Each part is shorter than the
range, so its length is enough rounds and the two lines that answer for an empty range or for no rounds left are never
reached (log 12). -/
def part : Nat → List Weighted → CodeTree
  | _, [] => .leaf synSym
  | _, [x] => .leaf x.sym
  | 0, x :: _ => .leaf x.sym
  | fuel + 1, x :: y :: rest =>
    let l := x :: y :: rest
    let k := splitIndex l
    .node (part fuel (l.take (k + 1))) (part fuel (l.drop (k + 1)))

/-- `SBuild(Tab)` (44_shannon_fano.md R172). -/
def sBuild (t : Table) : CodeTree := part (sortedList t).length (sortedList t)

/-- SYN after a BUILD: every entry of the selected table is 0 (43_huffman_builder.md R158). -/
def allZero (t : Table) : Bool := (presentSymbols t).isEmpty

/-- HBUILD tsel, BUILD 1 (43_huffman_builder.md R158). -/
def execHbuild (tsel : Byte) (s : State) : Outcome :=
  .next (installTree (hBuild (selectTable tsel s)) 1 (allZero (selectTable tsel s)) s)

/-- SBUILD tsel, BUILD 3 (44_shannon_fano.md R175, 43_huffman_builder.md R158). -/
def execSbuild (tsel : Byte) (s : State) : Outcome :=
  .next (installTree (sBuild (selectTable tsel s)) 3 (allZero (selectTable tsel s)) s)

/-- BUILD of an algorithm that is not implemented: nothing is changed but by fault entry (43_huffman_builder.md R158,
60_exceptions.md R231). -/
def buildUnsupported (alg : Byte) (s : State) : State :=
  raise .unsupportedVersionOrAlgorithm (alg.setWidth 64) 0 s

/-- CLEN sym: `ARG0 <- CT[sym].len` (43_huffman_builder.md R159). -/
def execClen (sym : Byte) (s : State) : Outcome :=
  withTree s fun s => .next { s with arg0 := countWord (codeOf s.ct sym).length }

/-- CBITS sym, k: 64 bits of `CT[sym]` (43_huffman_builder.md R160). -/
def execCbits (sym k : Byte) (s : State) : Outcome :=
  withTree s fun s => .next { s with arg0 := codeChunk (codeOf s.ct sym) k.toNat }

/-- TDROP: discard the tree and the code table (43_huffman_builder.md R161). -/
def execTdrop (s : State) : Outcome := .next (dropTree s)

end Sys2Proof.Machine
end

