-- ==== Sys2Proof/Machine/Codec.lean ====
section
/-! DEFINITION. The prefix-code encoder and decoder, ENCODE and DECODE (47_codec.md). -/

namespace Sys2Proof.Machine

/-- `Encode()` over the bytes of SRC, `n` of which are encoded already: each byte is taken from SRC before its code is
looked up and written (47_codec.md R211). -/
def encodeLoop : List Byte → Nat → State → Except State State
  | [], _, s => .ok s
  | b :: rest, n, s =>
    let s := { s with src := rest }
    if codeOf s.ct b = [] then .error (raise .absentSymbol (b.setWidth 64) (countWord n) s)
    else
      match writeBits (codeOf s.ct b) s with
      | .error t => .error t
      | .ok t => encodeLoop rest (n + 1) t

/-- ENCODE (47_codec.md R210). -/
def execEncode (s : State) : Outcome := withTree s fun s => endCommand (encodeLoop s.src 0 s)

/-- What the reading of one symbol ends in (47_codec.md R213). -/
inductive Symbol where
  | found (sym : Byte) (s : State)
  /-- `ReadBit` returned `EOD`. -/
  | endOfData (s : State)
  /-- A 1 bit on a degenerate tree. -/
  | offTree (s : State)
  deriving DecidableEq, Repr

/-- `while node = Node(l, r)`: one bit for each edge down to a leaf (47_codec.md R213). -/
def walkDown : CodeTree → State → Symbol
  | .leaf x, s => .found x s
  | .node l r, s =>
    match readBit s with
    | (none, t) => .endOfData t
    | (some false, t) => walkDown l t
    | (some true, t) => walkDown r t

/-- The reading of one symbol with a tree; a degenerate tree takes one bit, which must be 0 (47_codec.md R213). -/
def readSymbol (tree : CodeTree) (s : State) : Symbol :=
  match tree with
  | .leaf x =>
    match readBit s with
    | (none, t) => .endOfData t
    | (some true, t) => .offTree t
    | (some false, t) => .found x t
  | .node l r => walkDown (.node l r) s

/-- `Decode(n)` with `left` symbols still to produce, so `n - left` produced (47_codec.md R213). -/
def decodeLoop (n : Nat) : Nat → State → Except State State
  | 0, s => .ok s
  | left + 1, s =>
    let produced := n - (left + 1)
    match readSymbol s.tree s with
    | .endOfData t => .error (raise .truncatedInput (countWord n) (countWord produced) t)
    | .offTree t => .error (raise .invalidCode (countWord produced) 0 t)
    | .found x t =>
      match snkPush x t with
      | .error u => .error u
      | .ok u => decodeLoop n left u

/-- DECODE: ARG0 symbols (47_codec.md R212). -/
def execDecode (s : State) : Outcome :=
  withTree s fun s => endCommand (decodeLoop s.arg0.toNat s.arg0.toNat s)

end Sys2Proof.Machine
end

