-- ==== Sys2Proof/Machine/FreqTable.lean ====
section
/-! DEFINITION. The frequency-table commands FCLR, FSCAN, FSET, FGET (41_frequency_table.md). -/

namespace Sys2Proof.Machine

/-- FT all 0 and LEN 0 (41_frequency_table.md R120; the first lines of R121). -/
def clearFreq (s : State) : State := { s with ft := zeroTable, len := 0 }

/-- FCLR: clear the frequency table (41_frequency_table.md R120). -/
def execFclr (s : State) : Outcome := .next (clearFreq s)

/-- One byte counted, in FT and in LEN, both mod 2^64 (41_frequency_table.md R121). -/
def countByte (s : State) (b : Byte) : State :=
  { s with ft := tableSet s.ft b (tableGet s.ft b + 1), len := s.len + 1 }

/-- FSCAN: the table of the whole of SRC, which it consumes (41_frequency_table.md R121). -/
def execFscan (s : State) : Outcome :=
  .next (s.src.foldl countByte { clearFreq s with src := [] })

/-- FSET sym: `FT[sym] <- ARG0` (41_frequency_table.md R122). -/
def execFset (sym : Byte) (s : State) : Outcome := .next { s with ft := tableSet s.ft sym s.arg0 }

/-- FGET sym: `ARG0 <- FT[sym]` (41_frequency_table.md R123). -/
def execFget (sym : Byte) (s : State) : Outcome := .next { s with arg0 := tableGet s.ft sym }

end Sys2Proof.Machine
end

