-- ==== Sys2Proof/Machine/Quantizer.lean ====
section
/-! DEFINITION. The frequency quantiser: the function Quant (42_quantizer.md R135 to R141) and the commands QUANT, QSET,
QGET (R130 to R132). Arithmetic is exact on naturals and integers (00_scope.md R11). -/

namespace Sys2Proof.Machine

/-- `rnd(a, d)`: a/d to the nearest integer, ties upward (00_scope.md R11). -/
def rnd (a d : Nat) : Nat := (2 * a + d) / (2 * d)

/-- `clamp(v, lo, hi)` (00_scope.md R11). -/
def clamp (v lo hi : Nat) : Nat := min hi (max lo v)

/-- B, the bound `2^W - 1` (42_quantizer.md R137). -/
def bound (w : Nat) : Nat := 2 ^ w - 1

/-- M, the largest count (42_quantizer.md R137). -/
def maxWeight (l : List Weighted) : Nat := (l.map (·.weight)).foldl max 0

/-- T, the exact sum of the counts (42_quantizer.md R138). -/
def totalWeight (l : List Weighted) : Nat := (l.map (·.weight)).sum

/-- D, what the scaling divides by: the total when there are more symbols than the bound, else the maximum
(42_quantizer.md R138). -/
def divisor (l : List Weighted) (b : Nat) : Nat := if b < l.length then totalWeight l else maxWeight l

/-- A present symbol's value after scaling and clamping (42_quantizer.md R139). -/
def scaleOne (b d : Nat) (x : Weighted) : Weighted := ⟨x.sym, clamp (rnd (x.weight * b) d) 1 b⟩

/-- One unit to or from a symbol with value `q`, if the remainder `r` and the limits allow it: the new value, the new
remainder, and whether anything changed (42_quantizer.md R141). -/
def shiftUnit (b : Nat) (q : Nat) (r : Int) : Nat × Int × Bool :=
  if 0 < r ∧ q < b then (q + 1, r - 1, true)
  else if r < 0 ∧ 1 < q then (q - 1, r + 1, true)
  else (q, r, false)

/-- One walk down the rank list (42_quantizer.md R141, the inner loop). -/
def redistPass (b : Nat) : List Weighted → Int → List Weighted × Int × Bool
  | [], r => ([], r, false)
  | x :: rest, r =>
    let (q, r1, moved) := shiftUnit b x.weight r
    let (rest', r2, moved') := redistPass b rest r1
    (⟨x.sym, q⟩ :: rest', r2, moved || moved')

/-- The walks down the rank list, until the remainder is 0 or a walk changes nothing (42_quantizer.md R141, the outer
loop). A walk that changes something brings the remainder nearer to 0, so `|r|` walks are enough (log 12). -/
def redistLoop (b : Nat) : Nat → List Weighted → Int → List Weighted
  | 0, l, _ => l
  | fuel + 1, l, r =>
    let (l', r', moved) := redistPass b l r
    if r' = 0 ∨ moved = false then l' else redistLoop b fuel l' r'

/-- `Redistribute`, on the values in rank order (42_quantizer.md R141). -/
def redistribute (b : Nat) (l : List Weighted) (r : Int) : List Weighted := redistLoop b r.natAbs l r

/-- The table that holds the listed values and 0 elsewhere. -/
def tableOf (l : List Weighted) : Table :=
  l.foldl (fun t x => tableSet t x.sym (BitVec.ofNat 64 x.weight)) zeroTable

/-- The values of the scaled path (42_quantizer.md R138 to R140). -/
def scaledValues (l : List Weighted) (w : Nat) : List Weighted :=
  let b := bound w
  let q := (ranked l).map (scaleOne b (divisor l b))
  if w < 8 ∧ l.length ≤ b then redistribute b q ((b : Int) - (totalWeight q : Int)) else q

/-- `Quant(F, W)` (42_quantizer.md R135 to R141). -/
def quant (f : Table) (w : Nat) : Table :=
  let l := presentSymbols f
  if l = [] then zeroTable
  else if w = 64 then f
  else if maxWeight l ≤ bound w then f
  else tableOf (scaledValues l w)

/-- QUANT w: `QT <- Quant(FT, w)`, or `UnsupportedBitWidth(w, 0)` before any work (42_quantizer.md R130). -/
def execQuant (w : Byte) (s : State) : Outcome :=
  if w.toNat < 1 ∨ 64 < w.toNat then .next (raise .unsupportedBitWidth (w.setWidth 64) 0 s)
  else .next { s with qt := quant s.ft w.toNat }

/-- QSET sym: `QT[sym] <- ARG0` (42_quantizer.md R131). -/
def execQset (sym : Byte) (s : State) : Outcome := .next { s with qt := tableSet s.qt sym s.arg0 }

/-- QGET sym: `ARG0 <- QT[sym]` (42_quantizer.md R132). -/
def execQget (sym : Byte) (s : State) : Outcome := .next { s with arg0 := tableGet s.qt sym }

end Sys2Proof.Machine
end

