-- ==== Sys2Proof/Machine/System.lean ====
section
/-! DEFINITION. The system commands NOP, CLRF, SRST, SRCCLR, SNKCLR (48_system.md). -/

namespace Sys2Proof.Machine

/-- NOP: no state changes (48_system.md R220). -/
def execNop (s : State) : Outcome := .next s

/-- CLRF: the return from a fault (48_system.md R221). -/
def execClrf (s : State) : Outcome := .next (clearFault s)

/-- Every element of the PCE's state at its reset value (48_system.md R222, 10_state.md R38).
DESIGN CHOICE, safe: the model's own fields are not the PCE's state and stay (log 15). -/
def softReset (s : State) : State :=
  { State.reset with cfg := s.cfg, moves := s.moves, returned := s.returned, freeCount := s.freeCount }

/-- SRST: soft reset (48_system.md R222). -/
def execSrst (s : State) : Outcome := .next (softReset s)

/-- SRCCLR: empty SRC (48_system.md R223). -/
def execSrcclr (s : State) : Outcome := .next { s with src := [] }

/-- SNKCLR: empty SNK (48_system.md R224). -/
def execSnkclr (s : State) : Outcome := .next { s with snk := [] }

end Sys2Proof.Machine
end

