-- ==== Sys2Proof/Machine/TreeSerial.lean ====
section
/-! DEFINITION. The serial form of a tree, its parser, and the commands TSER and TLOAD (45_tree_serial.md). -/

namespace Sys2Proof.Machine

/-- `Ser(t)` (45_tree_serial.md R180). -/
def serial : CodeTree → List Byte
  | .leaf s => [1, s]
  | .node l r => [0] ++ serial l ++ serial r

/-- TSER: the serial form of TREE straight to SNK (45_tree_serial.md R181). -/
def execTser (s : State) : Outcome := withTree s fun s => endCommand (snkPushAll (serial s.tree) s)

/-- What the parser carries: SRC, the symbols seen, the internal nodes met, the bytes consumed
(45_tree_serial.md R182, R183). -/
structure Loader where
  src : List Byte
  seen : List Byte
  internals : Nat
  consumed : Nat
  deriving DecidableEq, Repr

/-- What a call of the parser ends in: a tree, or a fault with its ERRINFO values (45_tree_serial.md R183). -/
inductive Parsed where
  | tree (t : CodeTree) (ld : Loader)
  | failed (kind : FaultKind) (e0 e1 : Nat) (ld : Loader)
  deriving DecidableEq, Repr

/-- SRC ran out: `TruncatedInput(0, consumed)` (45_tree_serial.md R183). -/
def parseTruncated (ld : Loader) : Parsed := .failed .truncatedInput 0 ld.consumed ld

/-- `SrcPop` in the parser, with `rest` what is left of SRC (45_tree_serial.md R183). -/
def consume (rest : List Byte) (ld : Loader) : Loader := { ld with src := rest, consumed := ld.consumed + 1 }

/-- The parser after a leaf marker (45_tree_serial.md R183). -/
def parseLeaf (ld : Loader) : Parsed :=
  match ld.src with
  | [] => parseTruncated ld
  | s :: rest =>
    if s ∈ ld.seen then .failed .invalidTree 2 (ld.consumed + 1) (consume rest ld)
    else .tree (.leaf s) { consume rest ld with seen := s :: ld.seen }

/-- `Parse()` (45_tree_serial.md R183). Every call takes a byte or ends, so one round more than SRC has bytes is enough
and the first line is never reached (log 12). -/
def parse : Nat → Loader → Parsed
  | 0, ld => parseTruncated ld
  | fuel + 1, ld =>
    match ld.src with
    | [] => parseTruncated ld
    | m :: rest =>
      let ld := consume rest ld
      if m = 1 then parseLeaf ld
      else if m = 0 then
        let ld := { ld with internals := ld.internals + 1 }
        if 255 < ld.internals then .failed .invalidTree 3 ld.consumed ld
        else
          match parse fuel ld with
          | .failed k e0 e1 ld => .failed k e0 e1 ld
          | .tree l ld =>
            match parse fuel ld with
            | .failed k e0 e1 ld => .failed k e0 e1 ld
            | .tree r ld => .tree (.node l r) ld
      else .failed .invalidTree 1 ld.consumed ld

/-- The parser at the start of TLOAD (45_tree_serial.md R182). -/
def parseSource (src : List Byte) : Parsed :=
  parse (src.length + 1) { src := src, seen := [], internals := 0, consumed := 0 }

/-- TLOAD: the earlier tree is dropped, then one serial tree is taken from SRC (45_tree_serial.md R182). -/
def execTload (s : State) : Outcome :=
  match parseSource s.src with
  | .tree t ld => .next (installTree t 1 false { dropTree s with src := ld.src })
  | .failed k e0 e1 ld => .next (raise k (countWord e0) (countWord e1) { dropTree s with src := ld.src })

end Sys2Proof.Machine
end

