-- ==== Sys2Proof/Machine/Dispatch.lean ====
section
/-! DEFINITION. The dispatch: one arm for each command of the opcode map. -/

namespace Sys2Proof.Machine

def exec (i : Instr) (s : State) : Host.Outcome State Fault Refusal :=
  match i with
  | .nop => Sys2Proof.Machine.execNop s
  | .clrf => Sys2Proof.Machine.execClrf s
  | .srst => Sys2Proof.Machine.execSrst s
  | .fclr => Sys2Proof.Machine.execFclr s
  | .fscan => Sys2Proof.Machine.execFscan s
  | .fset sym => Sys2Proof.Machine.execFset sym s
  | .fget sym => Sys2Proof.Machine.execFget sym s
  | .quant w => Sys2Proof.Machine.execQuant w s
  | .qset sym => Sys2Proof.Machine.execQset sym s
  | .qget sym => Sys2Proof.Machine.execQget sym s
  | .hbuild tsel => Sys2Proof.Machine.execHbuild tsel s
  | .sbuild tsel => Sys2Proof.Machine.execSbuild tsel s
  | .clen sym => Sys2Proof.Machine.execClen sym s
  | .cbits sym k => Sys2Proof.Machine.execCbits sym k s
  | .tser => Sys2Proof.Machine.execTser s
  | .tload => Sys2Proof.Machine.execTload s
  | .tdrop => Sys2Proof.Machine.execTdrop s
  | .wrst => Sys2Proof.Machine.execWrst s
  | .wbit b => Sys2Proof.Machine.execWbit b s
  | .wflush => Sys2Proof.Machine.execWflush s
  | .rrst => Sys2Proof.Machine.execRrst s
  | .rbit => Sys2Proof.Machine.execRbit s
  | .encode => Sys2Proof.Machine.execEncode s
  | .decode => Sys2Proof.Machine.execDecode s
  | .srcclr => Sys2Proof.Machine.execSrcclr s
  | .snkclr => Sys2Proof.Machine.execSnkclr s

end Sys2Proof.Machine
end

