-- ==== Sys2Proof/Machine/Command.lean ====
section
/-! DEFINITION. What a host move does: the write of a command word to CMD (30_encoding.md R95), the register map
(20_memory.md R62 to R66, R75), and the taking of the next move. -/

namespace Sys2Proof.Machine

/-- A faulted PCE ignores every word but CLRF and SRST (60_exceptions.md R241). -/
def gated (c : CommandWord) (s : State) : Bool := s.fault && c != clrfWord && c != srstWord

/-- A word written to CMD: ignored, executed, or faulted on (30_encoding.md R95). -/
def runCommand (c : CommandWord) (s : State) : Outcome :=
  if gated c s then .next s
  else
    match decode c with
    | .instr i => exec i s
    | .unsupportedBuild alg _ => .next (buildUnsupported alg s)
    | .illegal _ => .next (raise .illegalCommand (c.setWidth 64) 0 s)

/-- The value `HostRead(i)` returns, zero-extended to 64 bits (20_memory.md R62, R65, R66, R75). -/
def registerValue (i : Nat) (s : State) : Word :=
  match i with
  | 1 => (statusWord s).setWidth 64
  | 2 => s.arg0
  | 3 => s.arg1
  | 4 => s.errinfo0
  | 5 => s.errinfo1
  | 6 => s.len
  | 7 => s.wtotal
  | 9 => countWord s.src.length
  | 10 =>
    match s.snk with
    | [] => 0
    | b :: _ => b.setWidth 64
  | 11 => countWord s.snk.length
  | 12 => (wstateWord s).setWidth 64
  | 13 => (rstateWord s).setWidth 64
  | _ => 0

/-- What a read changes: a read of SNKDATA removes the head of SNK, every other read changes nothing
(20_memory.md R64, R66). -/
def afterRead (i : Nat) (s : State) : State := if i = 10 then { s with snk := s.snk.tail } else s

/-- `HostRead(i)`; an index outside 0 to 15 does not exist and is refused (20_memory.md R60, R75). -/
def hostRead (i : Nat) (s : State) : Outcome :=
  if i < 16 then .next { afterRead i s with returned := s.returned ++ [registerValue i s] }
  else .refused (.noSuchRegister i)

/-- `HostWrite(i, v)`: CMD, ARG0, ARG1 and SRCDATA take the low bits of `v` that their width gives, every other register
ignores the write, and an index outside 0 to 15 is refused (20_memory.md R62, R64, R65, R75). -/
def hostWrite (i : Nat) (v : Word) (s : State) : Outcome :=
  if i < 16 then
    match i with
    | 0 => runCommand (v.setWidth 32) s
    | 2 => .next { s with arg0 := v }
    | 3 => .next { s with arg1 := v }
    | 8 => .next (srcPush (v.setWidth 8) s)
    | _ => .next s
  else .refused (.noSuchRegister i)

/-- One host move (20_memory.md R60). -/
def hostMove (m : HostMove) (s : State) : Outcome :=
  match m with
  | .read i => hostRead i s
  | .write i v => hostWrite i v s

/-- The next host move is made; with none left the PCE is idle and nothing changes (10_state.md R20).
DESIGN CHOICE, safe: the moves are a queue of State (log 1). -/
def nextMove (s : State) : Outcome :=
  match s.moves with
  | [] => .next s
  | m :: rest => hostMove m { s with moves := rest }

/-- The host move that gives the PCE a command word. -/
def commandMove (c : CommandWord) : HostMove := .write 0 (c.setWidth 64)

end Sys2Proof.Machine
end

