-- ==== Sys2Proof/Machine/Step.lean ====
section
/-! DEFINITION. One step of the machine: one host move (10_state.md R20, 70_reset_and_hazards.md R274). -/

namespace Sys2Proof.Machine

/-- One step: the next host move, with the whole command it may start (10_state.md R20). -/
def step (s : State) : Host.Outcome State Fault Refusal := nextMove s

/-- `s` with the word `w` (its low `nbits` bits, the rest 0) as the next host move, a write to CMD. The PCE has no
instruction space (10_state.md R22), so this is how a command reaches it (log 2). -/
def State.withFetchWord (s : State) (nbits w : Nat) : State :=
  { s with moves := commandMove (BitVec.ofNat 32 (w % 2 ^ nbits)) :: s.moves }

end Sys2Proof.Machine
end

