-- ==== Sys2Proof/Safety.lean ====
section
/-! DEFINITION. What counts as a good state and a legal one, in the terms claims use: the invariant between commands
(10_state.md R39), and the bit streams behind the accumulators and the queues (46_bitstream.md R199). -/

namespace Sys2Proof.Machine

/-- A result is good when FAULT = 0 (70_reset_and_hazards.md R274). -/
def Good (s : State) : Prop := s.fault = false

/-- `syms(t)`, as the list of the leaves' symbols from left to right (00_scope.md R12). -/
def syms : CodeTree → List Byte
  | .leaf s => [s]
  | .node l r => syms l ++ syms r

/-- No symbol occurs at two leaves (00_scope.md R12). -/
abbrev Proper (t : CodeTree) : Prop := (syms t).Nodup

/-- The leaf a bit string leads to from the root, 0 for a left edge; `none` if it stops short of a leaf or runs past one
(43_huffman_builder.md R155). -/
def leafAt : CodeTree → List Bit → Option Byte
  | .leaf x, [] => some x
  | .leaf _, _ :: _ => none
  | .node _ _, [] => none
  | .node l r, b :: q => if b then leafAt r q else leafAt l q

/-- The eight bits of a byte, bit 7 first, the order of the stream (20_memory.md R67). -/
def byteBits (b : Byte) : List Bit :=
  [b.getLsbD 7, b.getLsbD 6, b.getLsbD 5, b.getLsbD 4, b.getLsbD 3, b.getLsbD 2, b.getLsbD 1, b.getLsbD 0]

/-- The bits written and not yet emitted: the low WCNT bits of WACC, the earliest first (10_state.md R28). -/
def pendingBits (s : State) : List Bit := (byteBits s.wacc).drop (8 - s.wcnt.toNat)

/-- The bits loaded and not yet delivered: the upper RCNT bits of RACC, the next first (10_state.md R29). -/
def bufferedBits (s : State) : List Bit := (byteBits s.racc).take s.rcnt.toNat

/-- All bits the writer has in SNK and pending, the earliest first. -/
def sinkBits (s : State) : List Bit := s.snk.flatMap byteBits ++ pendingBits s

/-- All bits the reader can still deliver, the next first. -/
def sourceBits (s : State) : List Bit := bufferedBits s ++ s.src.flatMap byteBits

/-- The codes of a sequence of bytes, one after another (47_codec.md R211). -/
def codeBits (ct : CodeTable) (l : List Byte) : List Bit := l.flatMap (codeOf ct)

/-- The results of `n` calls of `ReadBit`, `none` for `EOD` (46_bitstream.md R196). -/
def readMany : Nat → State → List (Option Bit)
  | 0, _ => []
  | n + 1, s => (readBit s).1 :: readMany n (readBit s).2

/-- The sum of the entries of a table, exact (00_scope.md R11). -/
def tableSum (t : Table) : Nat := (allSymbols.map fun s => (tableGet t s).toNat).sum

/-- N, the number of symbols with a nonzero entry (42_quantizer.md R135). -/
def presentCount (t : Table) : Nat := (allSymbols.filter fun s => tableGet t s ≠ 0).length

/-- The writer between commands (10_state.md R28, R39). -/
structure WriterOk (s : State) : Prop where
  count : s.wcnt.toNat ≤ 7
  small : s.wacc.toNat < 2 ^ s.wcnt.toNat

/-- The reader between commands (10_state.md R29, R39). -/
structure ReaderOk (s : State) : Prop where
  count : s.rcnt.toNat ≤ 7
  aligned : s.racc.toNat % 2 ^ (8 - s.rcnt.toNat) = 0

/-- SNK takes `n` more bytes (20_memory.md R66). -/
def SinkRoom (s : State) (n : Nat) : Prop := ∀ c, s.cfg.snkCap = some c → s.snk.length + n ≤ c

/-- The values of 10_state.md R38, of every element the rule gives one. -/
structure HasResetValues (s : State) : Prop where
  args : s.arg0 = 0 ∧ s.arg1 = 0
  status : s.err = 0 ∧ s.fault = false ∧ s.tv = false ∧ s.eod = false ∧ s.syn = false ∧ s.talg = 0
  errinfo : s.errinfo0 = 0 ∧ s.errinfo1 = 0
  counts : s.len = 0 ∧ s.wtotal = 0
  accumulators : s.wacc = 0 ∧ s.wcnt = 0 ∧ s.racc = 0 ∧ s.rcnt = 0
  tables : ∀ x, tableGet s.ft x = 0 ∧ tableGet s.qt x = 0
  queues : s.src = [] ∧ s.snk = []

/-- The invariants between commands (10_state.md R39). -/
structure Inv (s : State) : Prop where
  writer : WriterOk s
  reader : ReaderOk s
  noFault : s.fault = false → s.err = 0 ∧ s.errinfo0 = 0 ∧ s.errinfo1 = 0
  noTree : s.tv = false → s.talg = 0 ∧ s.syn = false
  tree : s.tv = true → (s.talg = 1 ∨ s.talg = 3) ∧ Proper s.tree ∧ s.ct = codes s.tree
  srcCap : ∀ c, s.cfg.srcCap = some c → s.src.length ≤ c
  snkCap : ∀ c, s.cfg.snkCap = some c → s.snk.length ≤ c

/-- The node `x` comes before `y` in the Huffman builder's queue (43_huffman_builder.md R151). -/
def PriorTo (x y : QNode) : Prop := x.weight < y.weight ∨ (x.weight = y.weight ∧ x.minSym.toNat < y.minSym.toNat)

/-- The merge loop on a queue in any arrangement: while it holds two nodes or more, the first one and the first of the
others are taken out and a node with them as left and right child is put in (43_huffman_builder.md R152, R153). -/
inductive MergesTo : List QNode → CodeTree → Prop where
  | done (x : QNode) : MergesTo [x] x.tree
  | round {q rest : List QNode} {a b : QNode} {t : CodeTree} (m : Byte) : q.Perm (a :: b :: rest) → PriorTo a b →
      (∀ x ∈ rest, PriorTo b x) → m.toNat = min a.minSym.toNat b.minSym.toNat →
      MergesTo (⟨a.weight + b.weight, m, .node a.tree b.tree⟩ :: rest) t → MergesTo q t

/-- The partition of a range of the sorted list and of every range inside it (44_shannon_fano.md R172). -/
inductive SplitsTo : List Weighted → CodeTree → Prop where
  | single (x : Weighted) : SplitsTo [x] (.leaf x.sym)
  | split {l : List Weighted} {a b : CodeTree} : 2 ≤ l.length → SplitsTo (l.take (splitIndex l + 1)) a →
      SplitsTo (l.drop (splitIndex l + 1)) b → SplitsTo l (.node a b)

/-- The bytes of a list of pre-order markers: `none` an internal node, `some x` a leaf (45_tree_serial.md R180). -/
def markerBytes (p : List (Option Byte)) : List Byte := p.flatMap fun m => m.elim [0] fun x => [1, x]

/-- Markers the parser has read without a fault and without the tree being whole: no beginning of them is a whole tree,
no symbol stands twice, and the internal nodes are at most 255 (45_tree_serial.md R183). -/
structure Unfinished (p : List (Option Byte)) : Prop where
  notWhole : ∀ q, q <+: p → q.reduceOption.length ≤ q.count none
  distinct : p.reduceOption.Nodup
  fewNodes : p.count none ≤ 255

/-- A run: the states that host moves lead to from reset, for any capacities (70_reset_and_hazards.md R274). -/
inductive Reachable : State → Prop where
  | start (cfg : Config) (moves : List HostMove) : Reachable { State.reset with cfg := cfg, moves := moves }
  | step {s t : State} : Reachable s → step s = .next t → Reachable t

end Sys2Proof.Machine
end

