-- ==== Sys2Proof/Certificates/Slice0/Obligations.lean ====
section
/-! DEFINITION. The statements for the provers. Each docstring names the rule of spec/ it formalises. "`t = { s with f :=
t.f }`" is the frame: every field of the state but `f` is as before. -/

open Sys2Proof Sys2Proof.Machine

/-! ### Reset -/

/-- R38: reset and SRST leave every element the rule lists at its value, SRST in every state. -/
def Obligations.ResetAndSoftResetValues : Prop :=
  encode .srst = 0x02000000 ∧ HasResetValues State.reset ∧
    ∀ s, ∃ t, exec .srst s = .next t ∧ HasResetValues t

/-! ### Encoding and decoding -/

/-- R90 to R94: decoding the word of a well-formed command gives the command back, with every operand. -/
def Obligations.DecodeOfEncode : Prop :=
  ∀ i : Instr, i.wellFormed = true → decode (encode i) = .instr i

/-- R93, R95: a command has one word, and what decodes to a command is well formed. -/
def Obligations.EncodeOfDecode : Prop :=
  ∀ (c : CommandWord) (i : Instr), decode c = .instr i → i.wellFormed = true ∧ encode i = c

/-- R93: a word decodes to a command of a row's mnemonic exactly when it selects the row by match and mask, and no word
selects two rows. -/
def Obligations.OpcodeMapSelects : Prop :=
  (∀ r ∈ opcodeRows, ∀ c : CommandWord,
    c &&& r.mask = r.pattern ↔ ∃ i, decode c = .instr i ∧ mnemonicOf i = r.mnemonic) ∧
  ∀ r ∈ opcodeRows, ∀ r' ∈ opcodeRows, ∀ c : CommandWord,
    c &&& r.mask = r.pattern → c &&& r'.mask = r'.pattern → r = r'

/-- The words R95 calls illegal, in the numbers of R91 and R93. -/
def IllegalWord (c : CommandWord) : Prop :=
  (fieldOP c).toNat ∉ [0x00, 0x01, 0x02, 0x10, 0x11, 0x12, 0x13, 0x18, 0x19, 0x1A, 0x20, 0x21, 0x22, 0x23, 0x24, 0x25,
    0x30, 0x31, 0x32, 0x38, 0x39, 0x40, 0x41, 0x50, 0x51] ∨
  fieldZ c ≠ 0 ∨
  (fieldA c ≠ 0 ∧ (fieldOP c).toNat ∉ [0x12, 0x13, 0x18, 0x19, 0x1A, 0x20, 0x21, 0x22, 0x31]) ∨
  (fieldB c ≠ 0 ∧ (fieldOP c).toNat ∉ [0x20, 0x22]) ∨
  ((fieldOP c).toNat = 0x22 ∧ 3 < (fieldB c).toNat) ∨
  ((fieldOP c).toNat = 0x20 ∧ 1 < (fieldB c).toNat) ∨
  ((fieldOP c).toNat = 0x31 ∧ 1 < (fieldA c).toNat)

/-- R94, R95: a word is illegal, or a command, or a well-formed BUILD of an algorithm that is not implemented; which of
the three it is follows from its fields. -/
def Obligations.EveryWordIsClassified : Prop :=
  ∀ c : CommandWord,
    ((∃ why, decode c = .illegal why) ↔ IllegalWord c) ∧
    (∀ a b, decode c = .unsupportedBuild a b ↔
      ¬ IllegalWord c ∧ (fieldOP c).toNat = 0x20 ∧ fieldA c ≠ 1 ∧ fieldA c ≠ 3 ∧ a = fieldA c ∧ b = fieldB c)

/-- 95_test_vectors.md: some words of the listings and what they stand for (R93). -/
def Obligations.SampleWordsDecode : Prop :=
  decode 0x12410000 = .instr (.fset 0x41) ∧ decode 0x18400000 = .instr (.quant 64) ∧
    decode 0x20010100 = .instr (.hbuild 1) ∧ decode 0x20030000 = .instr (.sbuild 0) ∧
    decode 0x22010100 = .instr (.cbits 1 1) ∧ decode 0x23000000 = .instr .tser ∧
    decode 0x31010000 = .instr (.wbit 1) ∧ decode 0x39000000 = .instr .rbit ∧
    decode 0x41000000 = .instr .decode ∧ decode 0x50000000 = .instr .srcclr ∧
    decode 0x20020000 = .unsupportedBuild 2 0 ∧ decode 0x31020000 = .illegal .bitOutOfRange

/-! ### A step: host moves, the command gate, faults -/

/-- R95: a command word the host writes to CMD runs its command, at the state the move leaves when it is taken; R241: in
a faulted PCE only if the word is CLRF or SRST. With no move left the step changes nothing (log 1). -/
def Obligations.StepRunsDecodedCommand : Prop :=
  (∀ (s : State) (v : Word) (rest : List HostMove) (i : Instr), s.moves = .write 0 v :: rest →
    (s.fault = false ∨ v.setWidth 32 = 0x01000000#32 ∨ v.setWidth 32 = 0x02000000#32) →
    decode (v.setWidth 32) = .instr i → step s = exec i { s with moves := rest }) ∧
  ∀ s : State, s.moves = [] → step s = .next s

/-- R95, R238: an illegal word raises IllegalCommand with the word in ERRINFO0, and changes nothing else. -/
def Obligations.IllegalWordFaults : Prop :=
  ∀ (s : State) (v : Word) (rest : List HostMove), s.moves = .write 0 v :: rest → s.fault = false →
    IllegalWord (v.setWidth 32) →
    step s = .next { s with moves := rest, err := 9, fault := true, errinfo0 := (v.setWidth 32).setWidth 64, errinfo1 := 0 }

/-- R241: a faulted PCE ignores every word but CLRF and SRST, executes those two, and keeps its ports working. -/
def Obligations.FaultedEngineGate : Prop :=
  ∀ (s : State) (rest : List HostMove), s.fault = true →
    (∀ v : Word, s.moves = .write 0 v :: rest → v.setWidth 32 ≠ 0x01000000#32 → v.setWidth 32 ≠ 0x02000000#32 →
      step s = .next { s with moves := rest }) ∧
    (∀ v : Word, s.moves = .write 0 v :: rest → v.setWidth 32 = 0x01000000#32 →
      step s = .next { s with moves := rest, fault := false, err := 0, errinfo0 := 0, errinfo1 := 0 }) ∧
    (∀ v : Word, s.moves = .write 0 v :: rest → v.setWidth 32 = 0x02000000#32 →
      ∃ t, step s = .next t ∧ HasResetValues t) ∧
    (∀ i, i < 16 → s.moves = .read i :: rest →
      ∃ t, step s = .next t ∧ t = { s with moves := rest, snk := t.snk, returned := s.returned ++ [registerValue i s] } ∧
        t.snk = if i = 10 then s.snk.tail else s.snk) ∧
    (∀ v : Word, s.moves = .write 8 v :: rest → (∀ c, s.cfg.srcCap = some c → s.src.length < c) →
      step s = .next { s with moves := rest, src := s.src ++ [v.setWidth 8] })

/-- R246, R241: from a faulted state a step clears the fault only by CLRF or SRST, and otherwise keeps the record of the
first fault and every table, the tree, the registers and the accumulators. -/
def Obligations.FirstFaultIsKept : Prop :=
  ∀ s t : State, s.fault = true → step s = .next t →
    (∃ v rest, s.moves = .write 0 v :: rest ∧ t.fault = false ∧
      (v.setWidth 32 = 0x01000000#32 ∨ v.setWidth 32 = 0x02000000#32)) ∨
    t = { s with moves := t.moves, returned := t.returned, arg0 := t.arg0, arg1 := t.arg1, src := t.src, snk := t.snk }

/-- R60, R245, 93_implementation_defined.md I14: every move at an index 0 to 15 completes with a next state, the moves
after it still to be made and the capacities as they were; nothing is stuck. -/
def Obligations.EveryMoveCompletes : Prop :=
  ∀ (s : State) (m : HostMove) (rest : List HostMove), s.moves = m :: rest →
    (∀ i, m = .read i → i < 16) → (∀ i v, m = .write i v → i < 16) →
    ∃ t, step s = .next t ∧ t.moves = rest ∧ t.cfg = s.cfg

/-- R230, R247: STATUS.ERR is 0 with FAULT = 0, and 2 to 10 with FAULT = 1 (1 is never raised, 11 to 255 are never
produced); every step keeps this, and reset has it. -/
def Obligations.FaultCodesStayLegal : Prop :=
  (State.reset.fault = false ∧ State.reset.err = 0) ∧
  ∀ s t : State, (s.fault = false → s.err = 0) → (s.fault = true → 2 ≤ s.err.toNat ∧ s.err.toNat ≤ 10) →
    step s = .next t → (t.fault = false → t.err = 0) ∧ (t.fault = true → 2 ≤ t.err.toNat ∧ t.err.toNat ≤ 10)

/-! ### The register map -/

/-- R23, R28, R29: the fields of STATUS, WSTATE and RSTATE, and their reserved bits. -/
def Obligations.ReadOutLayouts : Prop :=
  ∀ s : State, (statusWord s).extractLsb' 0 8 = s.err ∧ (statusWord s).getLsbD 8 = s.fault ∧
    (statusWord s).getLsbD 9 = s.tv ∧ (statusWord s).getLsbD 10 = s.eod ∧ (statusWord s).getLsbD 11 = s.syn ∧
    (statusWord s).extractLsb' 12 4 = 0 ∧ (statusWord s).extractLsb' 16 8 = s.talg ∧
    (statusWord s).extractLsb' 24 8 = 0 ∧
    (wstateWord s).extractLsb' 0 8 = s.wacc ∧ (wstateWord s).extractLsb' 8 4 = s.wcnt ∧
    (wstateWord s).extractLsb' 12 4 = 0 ∧ (rstateWord s).extractLsb' 0 8 = s.racc ∧
    (rstateWord s).extractLsb' 8 4 = s.rcnt ∧ (rstateWord s).extractLsb' 12 4 = 0

/-- R62, R64, R66, R75: what a HostRead of each index returns, and that only a read of SNKDATA changes the PCE. -/
def Obligations.HostReadsFollowTheMap : Prop :=
  ∀ (s : State) (i : Nat) (rest : List HostMove), s.moves = .read i :: rest → i < 16 →
    ∃ (t : State) (v : Word), step s = .next t ∧
      t = { s with moves := rest, returned := s.returned ++ [v], snk := if i = 10 then s.snk.tail else s.snk } ∧
      (i = 0 ∨ i = 8 ∨ i = 14 ∨ i = 15 → v = 0) ∧ (i = 1 → v = (statusWord s).setWidth 64) ∧
      (i = 2 → v = s.arg0) ∧ (i = 3 → v = s.arg1) ∧ (i = 4 → v = s.errinfo0) ∧ (i = 5 → v = s.errinfo1) ∧
      (i = 6 → v = s.len) ∧ (i = 7 → v = s.wtotal) ∧
      (i = 9 → s.src.length < 2 ^ 64 → v.toNat = s.src.length) ∧
      (i = 10 → s.snk = [] → v = 0) ∧ (i = 10 → ∀ b q, s.snk = b :: q → v = b.setWidth 64) ∧
      (i = 11 → s.snk.length < 2 ^ 64 → v.toNat = s.snk.length) ∧
      (i = 12 → v = (wstateWord s).setWidth 64) ∧ (i = 13 → v = (rstateWord s).setWidth 64)

/-- R62, R65, R75: a HostWrite of ARG0, ARG1 and SRCDATA; every other index but CMD ignores the write. -/
def Obligations.HostWritesFollowTheMap : Prop :=
  ∀ (s : State) (i : Nat) (v : Word) (rest : List HostMove), s.moves = .write i v :: rest →
    (i = 2 → step s = .next { s with moves := rest, arg0 := v }) ∧
    (i = 3 → step s = .next { s with moves := rest, arg1 := v }) ∧
    (i = 8 → (∀ c, s.cfg.srcCap = some c → s.src.length < c) →
      step s = .next { s with moves := rest, src := s.src ++ [v.setWidth 8] }) ∧
    (i = 8 → (∃ c, s.cfg.srcCap = some c ∧ c ≤ s.src.length) → step s = .next { s with moves := rest }) ∧
    (i < 16 → i ≠ 0 → i ≠ 2 → i ≠ 3 → i ≠ 8 → step s = .next { s with moves := rest })

/-- R75: writes to read-only and reserved indices are ignored, reads of write-only and reserved indices return 0 and
change nothing, an index outside 0 to 15 is refused, and no fault is raised. -/
def Obligations.UndefinedAccesses : Prop :=
  ∀ (s : State) (i : Nat) (rest : List HostMove),
    (∀ v, s.moves = .write i v :: rest → i = 1 ∨ 4 ≤ i ∧ i ≤ 7 ∨ 9 ≤ i ∧ i ≤ 15 → step s = .next { s with moves := rest }) ∧
    (s.moves = .read i :: rest → i = 0 ∨ i = 8 ∨ i = 14 ∨ i = 15 →
      step s = .next { s with moves := rest, returned := s.returned ++ [0] }) ∧
    (s.moves = .read i :: rest → 16 ≤ i → step s = .refused (.noSuchRegister i)) ∧
    (∀ v, s.moves = .write i v :: rest → 16 ≤ i → step s = .refused (.noSuchRegister i))

/-! ### System commands -/

/-- R220, R223, R224: NOP changes nothing; SRCCLR and SNKCLR empty their queue, and nothing else. -/
def Obligations.NopAndQueueClears : Prop :=
  encode .nop = 0x00000000 ∧ encode .srcclr = 0x50000000 ∧ encode .snkclr = 0x51000000 ∧
    ∀ s : State, exec .nop s = .next s ∧ exec .srcclr s = .next { s with src := [] } ∧
      exec .snkclr s = .next { s with snk := [] }

/-- R221: CLRF clears FAULT, ERR, ERRINFO0, ERRINFO1, and nothing else. -/
def Obligations.ClrfClearsTheFaultRecord : Prop :=
  encode .clrf = 0x01000000 ∧ ∀ s : State, ∃ t, exec .clrf s = .next t ∧
    t.fault = false ∧ t.err = 0 ∧ t.errinfo0 = 0 ∧ t.errinfo1 = 0 ∧
    t = { s with fault := t.fault, err := t.err, errinfo0 := t.errinfo0, errinfo1 := t.errinfo1 }

/-! ### Frequency table -/

/-- R120: FCLR. -/
def Obligations.FclrClearsTheTable : Prop :=
  encode .fclr = 0x10000000 ∧ ∀ s : State, ∃ t, exec .fclr s = .next t ∧
    t = { s with ft := t.ft, len := 0 } ∧ ∀ x, tableGet t.ft x = 0

/-- R121: FSCAN makes FT the number of times each byte stands in SRC and LEN the length of SRC, both mod 2^64, whatever
FT held before, and empties SRC; the bit reader is untouched. Its corner case (e): the counts add up to LEN. -/
def Obligations.FscanCountsTheSource : Prop :=
  encode .fscan = 0x11000000 ∧ ∀ s : State, ∃ t, exec .fscan s = .next t ∧
    t = { s with ft := t.ft, len := t.len, src := [] } ∧
    (∀ x, (tableGet t.ft x).toNat = s.src.count x % 2 ^ 64) ∧ t.len.toNat = s.src.length % 2 ^ 64 ∧
    (s.src.length < 2 ^ 64 → tableSum t.ft = t.len.toNat)

/-- R122, R123, R131, R132: FSET and QSET write one entry of their table with ARG0, FGET and QGET read one entry into
ARG0, and nothing else changes. -/
def Obligations.TableEntryCommands : Prop :=
  ∀ (sym : Byte) (s : State),
    (encode (.fset sym)).toNat = 0x12000000 + sym.toNat * 2 ^ 16 ∧
    (encode (.fget sym)).toNat = 0x13000000 + sym.toNat * 2 ^ 16 ∧
    (encode (.qset sym)).toNat = 0x19000000 + sym.toNat * 2 ^ 16 ∧
    (encode (.qget sym)).toNat = 0x1A000000 + sym.toNat * 2 ^ 16 ∧
    (∃ t, exec (.fset sym) s = .next t ∧ t = { s with ft := t.ft } ∧ tableGet t.ft sym = s.arg0 ∧
      ∀ x, x ≠ sym → tableGet t.ft x = tableGet s.ft x) ∧
    (∃ t, exec (.qset sym) s = .next t ∧ t = { s with qt := t.qt } ∧ tableGet t.qt sym = s.arg0 ∧
      ∀ x, x ≠ sym → tableGet t.qt x = tableGet s.qt x) ∧
    exec (.fget sym) s = .next { s with arg0 := tableGet s.ft sym } ∧
    exec (.qget sym) s = .next { s with arg0 := tableGet s.qt sym }

/-! ### Quantiser -/

/-- R130: QUANT writes QT with Quant(FT, w) and nothing else for w from 1 to 64, and raises UnsupportedBitWidth(w, 0)
with nothing else changed for every other w. -/
def Obligations.QuantCommand : Prop :=
  ∀ (w : Byte) (s : State), (encode (.quant w)).toNat = 0x18000000 + w.toNat * 2 ^ 16 ∧
    (1 ≤ w.toNat → w.toNat ≤ 64 → exec (.quant w) s = .next { s with qt := quant s.ft w.toNat }) ∧
    (w.toNat = 0 ∨ 65 ≤ w.toNat →
      exec (.quant w) s = .next { s with err := 3, fault := true, errinfo0 := w.setWidth 64, errinfo1 := 0 })

/-- R142 (a) to (f): what the source itself requires of the quantised table, for every table and every width. -/
def Obligations.QuantKeepsTheSourcesBounds : Prop :=
  ∀ (f : Table) (w : Nat), 1 ≤ w → w ≤ 64 →
    (∀ x, tableGet f x = 0 → tableGet (quant f w) x = 0) ∧
    (∀ x, tableGet f x ≠ 0 → 1 ≤ (tableGet (quant f w) x).toNat ∧ (tableGet (quant f w) x).toNat ≤ 2 ^ w - 1) ∧
    (w = 64 → quant f w = f) ∧
    ((∀ x, (tableGet f x).toNat ≤ 2 ^ w - 1) → quant f w = f) ∧
    ((∀ x, tableGet f x = 0) → ∀ x, tableGet (quant f w) x = 0) ∧
    (w < 8 → (∃ x, 2 ^ w - 1 < (tableGet f x).toNat) → presentCount f ≤ 2 ^ w - 1 → tableSum (quant f w) = 2 ^ w - 1)

/-- R138, R139: the values on the scaled path when nothing is redistributed: each nonzero count times the bound, divided
by the maximum, or by the total when there are more symbols than the bound, rounded half up and clamped to 1 and the
bound. -/
def Obligations.QuantScalesAndRounds : Prop :=
  ∀ (f : Table) (w m d : Nat), 1 ≤ w → w < 64 →
    (∃ x, (tableGet f x).toNat = m) → (∀ x, (tableGet f x).toNat ≤ m) → 2 ^ w - 1 < m →
    (8 ≤ w ∨ 2 ^ w - 1 < presentCount f) →
    d = (if 2 ^ w - 1 < presentCount f then tableSum f else m) →
    ∀ x, tableGet f x ≠ 0 →
      (tableGet (quant f w) x).toNat =
        min (2 ^ w - 1) (max 1 ((2 * ((tableGet f x).toNat * (2 ^ w - 1)) + d) / (2 * d)))

/-- R141: units are handed out in turns down the list. A negative remainder takes from every value as many units as there
were whole turns, and one more from the first `k`, and never goes below 1; a positive one adds in the same way, never
above the bound; and what is moved is the remainder. R138 to R141: QUANT does so with the values R139 scales to, down the
list of the present symbols by count descending, equal counts by symbol ascending. -/
def Obligations.RedistributionTakesTurns : Prop :=
  (∀ (b : Nat) (l : List Weighted) (r : Int), (∀ x ∈ l, 1 ≤ x.weight ∧ x.weight ≤ b) →
    (r ≤ 0 → (l.length : Int) ≤ totalWeight l + r →
      (totalWeight (redistribute b l r) : Int) = totalWeight l + r ∧
      ∃ turns k, redistribute b l r =
        l.mapIdx fun j x => ⟨x.sym, max 1 (x.weight - (turns + if j < k then 1 else 0))⟩) ∧
    (0 ≤ r → (totalWeight l : Int) + r ≤ l.length * b →
      (totalWeight (redistribute b l r) : Int) = totalWeight l + r ∧
      ∃ turns k, redistribute b l r =
        l.mapIdx fun j x => ⟨x.sym, min b (x.weight + (turns + if j < k then 1 else 0))⟩)) ∧
  ∀ (f : Table) (w m b : Nat) (order : List Byte), 1 ≤ w → w < 8 → b = 2 ^ w - 1 →
    (∃ x, (tableGet f x).toNat = m) → (∀ x, (tableGet f x).toNat ≤ m) → b < m → presentCount f ≤ b →
    (∀ x, x ∈ order ↔ tableGet f x ≠ 0) →
    (order.Pairwise fun x y => (tableGet f y).toNat < (tableGet f x).toNat ∨
      (tableGet f x = tableGet f y ∧ x.toNat < y.toNat)) →
    tableSum (quant f w) = b ∧
    ∃ turns k : Nat, ∀ j x, order[j]? = some x →
      (tableGet (quant f w) x).toNat =
        max 1 (min b (max 1 ((2 * ((tableGet f x).toNat * b) + m) / (2 * m))) - (turns + if j < k then 1 else 0))

/-! ### Builders -/

/-- R158, R175, R94: HBUILD and SBUILD make TREE the builder's tree of the selected table and CT its codes, set TV, TALG
and SYN, and change nothing else; a BUILD of any other algorithm raises UnsupportedVersionOrAlgorithm(alg, 0) and changes
nothing else. -/
def Obligations.BuildCommands : Prop :=
  (∀ (tsel : Byte) (s : State), tsel.toNat ≤ 1 →
    (encode (.hbuild tsel)).toNat = 0x20010000 + tsel.toNat * 2 ^ 8 ∧
    (encode (.sbuild tsel)).toNat = 0x20030000 + tsel.toNat * 2 ^ 8 ∧
    (∀ tab : Table, tab = (if tsel = 0 then s.ft else s.qt) →
      (∃ t, exec (.hbuild tsel) s = .next t ∧ t.tree = hBuild tab ∧ t.ct = codes (hBuild tab) ∧
        t = { s with tree := t.tree, ct := t.ct, tv := true, talg := 1, syn := t.syn } ∧
        (t.syn = true ↔ ∀ x, tableGet tab x = 0)) ∧
      (∃ t, exec (.sbuild tsel) s = .next t ∧ t.tree = sBuild tab ∧ t.ct = codes (sBuild tab) ∧
        t = { s with tree := t.tree, ct := t.ct, tv := true, talg := 3, syn := t.syn } ∧
        (t.syn = true ↔ ∀ x, tableGet tab x = 0)))) ∧
  ∀ (s : State) (v : Word) (rest : List HostMove) (alg : Byte), s.moves = .write 0 v :: rest → s.fault = false →
    fieldOP (v.setWidth 32) = 0x20 → fieldA (v.setWidth 32) = alg → (fieldB (v.setWidth 32)).toNat ≤ 1 →
    fieldZ (v.setWidth 32) = 0 → alg ≠ 1 → alg ≠ 3 →
    step s = .next { s with moves := rest, err := 2, fault := true, errinfo0 := alg.setWidth 64, errinfo1 := 0 }

/-- R154, R150, R174: both builders' trees are proper, their leaves are exactly the symbols with a nonzero entry, or
symbol 0 alone for an all-zero table, and they are a leaf exactly when at most one symbol is present. -/
def Obligations.BuildersCoverThePresentSymbols : Prop :=
  ∀ (tab : Table) (t : CodeTree), t = hBuild tab ∨ t = sBuild tab →
    Proper t ∧ (∀ x, x ∈ syms t ↔ tableGet tab x ≠ 0 ∨ (x = 0 ∧ ∀ y, tableGet tab y = 0)) ∧
    ((∃ x, t = .leaf x) ↔ presentCount tab ≤ 1)

/-- R150 to R152: Leaves lists the present symbols with their weights, symbols ascending, or symbol 0 with weight 1; and
the Huffman tree is the one that the merge loop makes of them, each round merging the first node of R151's order with the
first of the others, the first one on the left. R153, R175 (a): with two symbols present, the Huffman builder puts the lighter one, at equal weight the lower, on the
left; the Shannon-Fano partitioner puts the heavier one, at equal weight the lower, on the left. -/
def Obligations.TwoSymbolTrees : Prop :=
  (∀ tab : Table, ((leaves tab).Pairwise fun x y => x.sym.toNat < y.sym.toNat) ∧
    (∀ x : Weighted, x ∈ leaves tab ↔ (x.weight = (tableGet tab x.sym).toNat ∧ 0 < x.weight) ∨
      (x = ⟨0, 1⟩ ∧ ∀ y, tableGet tab y = 0)) ∧
    MergesTo ((leaves tab).map fun x => ⟨x.weight, x.sym, .leaf x.sym⟩) (hBuild tab)) ∧
  ∀ (tab : Table) (x y : Byte), x ≠ y → (∀ z, tableGet tab z ≠ 0 ↔ z = x ∨ z = y) →
    ((tableGet tab x).toNat < (tableGet tab y).toNat ∨ (tableGet tab x = tableGet tab y ∧ x.toNat < y.toNat) →
      hBuild tab = .node (.leaf x) (.leaf y)) ∧
    ((tableGet tab y).toNat < (tableGet tab x).toNat ∨ (tableGet tab x = tableGet tab y ∧ x.toNat < y.toNat) →
      sBuild tab = .node (.leaf x) (.leaf y))

/-- R170: the Shannon-Fano list holds exactly the weighted leaves, by weight descending, equal weights by symbol
ascending. -/
def Obligations.ShannonFanoListIsSorted : Prop :=
  ∀ tab : Table, (sortedList tab).Perm (leaves tab) ∧
    (sortedList tab).Pairwise fun x y => y.weight < x.weight ∨ (x.weight = y.weight ∧ x.sym.toNat < y.sym.toNat)

/-- R171: the split index leaves the right part non-empty, minimises `|2*left(i) - T|`, and is the largest index that
does. -/
def Obligations.SplitIsTheLastMinimum : Prop :=
  ∀ (l : List Weighted) (d : Nat → Nat), 2 ≤ l.length → (∀ x ∈ l, 0 < x.weight) →
    (∀ i, d i = (2 * (rangeSum (l.take (i + 1)) : Int) - rangeSum l).natAbs) →
    splitIndex l + 1 < l.length ∧
    ∀ i, i + 1 < l.length → d (splitIndex l) ≤ d i ∧ (d i = d (splitIndex l) → i ≤ splitIndex l)

/-- R172: the Shannon-Fano tree is the partition of the sorted list and of every range inside it at its split index: a
range of one symbol is its leaf, a longer one the node of its left part's tree and its right part's tree. With two symbols
or more present, the left subtree holds the left part of the sorted list and the right subtree the right part. -/
def Obligations.ShannonFanoFirstSplit : Prop :=
  (∀ tab : Table, SplitsTo (sortedList tab) (sBuild tab)) ∧
  ∀ tab : Table, 2 ≤ presentCount tab → ∃ l r, sBuild tab = .node l r ∧
    syms l = ((sortedList tab).take (splitIndex (sortedList tab) + 1)).map (·.sym) ∧
    syms r = ((sortedList tab).drop (splitIndex (sortedList tab) + 1)).map (·.sym)

/-- R155, R156, R6: in a proper tree every leaf's code is the path to it from the root, a degenerate tree's is `0`, a
symbol at no leaf has none, and every code has 1 to 255 bits. -/
def Obligations.CodesAreLeafPaths : Prop :=
  ∀ (t : CodeTree) (x : Byte), Proper t →
    (x ∉ syms t → codeOf (codes t) x = []) ∧
    (x ∈ syms t → 1 ≤ (codeOf (codes t) x).length ∧ (codeOf (codes t) x).length ≤ 255) ∧
    (t = .leaf x → codeOf (codes t) x = [false]) ∧
    ((∃ l r, t = .node l r) → x ∈ syms t → leafAt t (codeOf (codes t) x) = some x)

/-- R157: no code of a proper tree is a prefix of another, and every code has 1 to 255 bits. -/
def Obligations.CodesArePrefixFree : Prop :=
  ∀ (t : CodeTree) (x y : Byte), Proper t → x ∈ syms t → y ∈ syms t → x ≠ y →
    ¬ codeOf (codes t) x <+: codeOf (codes t) y ∧
    1 ≤ (codeOf (codes t) x).length ∧ (codeOf (codes t) x).length ≤ 255

/-- R159: CLEN puts the length of the symbol's code in ARG0, and raises NoTree with TV = 0. -/
def Obligations.ClenReadsTheLength : Prop :=
  ∀ (sym : Byte) (s : State), (encode (.clen sym)).toNat = 0x21000000 + sym.toNat * 2 ^ 16 ∧
    (s.tv = true → (codeOf s.ct sym).length ≤ 255 →
      ∃ t, exec (.clen sym) s = .next t ∧ t = { s with arg0 := t.arg0 } ∧ t.arg0.toNat = (codeOf s.ct sym).length) ∧
    (s.tv = false → exec (.clen sym) s = .next { s with err := 7, fault := true, errinfo0 := 0, errinfo1 := 0 })

/-- R160: CBITS puts 64 bits of the symbol's code in ARG0, code bit `64k + j` at bit `63 - j`, zeros beyond the code, and
raises NoTree with TV = 0. -/
def Obligations.CbitsReadsAChunk : Prop :=
  ∀ (sym k : Byte) (s : State), (encode (.cbits sym k)).toNat = 0x22000000 + sym.toNat * 2 ^ 16 + k.toNat * 2 ^ 8 ∧
    (s.tv = true → ∃ t, exec (.cbits sym k) s = .next t ∧ t = { s with arg0 := t.arg0 } ∧
      ∀ j, j < 64 → t.arg0.getLsbD (63 - j) = (codeOf s.ct sym).getD (64 * k.toNat + j) false) ∧
    (s.tv = false → exec (.cbits sym k) s = .next { s with err := 7, fault := true, errinfo0 := 0, errinfo1 := 0 })

/-- R236: ENCODE, DECODE, TSER, CLEN and CBITS with TV = 0 raise NoTree and do nothing else. -/
def Obligations.NoTreeComesFirst : Prop :=
  ∀ (i : Instr) (s : State), i = .encode ∨ i = .decode ∨ i = .tser ∨ (∃ x, i = .clen x) ∨ (∃ x k, i = .cbits x k) →
    s.tv = false → exec i s = .next { s with err := 7, fault := true, errinfo0 := 0, errinfo1 := 0 }

/-- R161: TDROP clears TV, TALG and SYN and changes nothing else but TREE and CT, whose content is then unspecified
(log 6); with no tree and its flags clear it changes nothing. -/
def Obligations.TdropDropsTheTree : Prop :=
  encode .tdrop = 0x25000000 ∧ ∀ s : State, ∃ t, exec .tdrop s = .next t ∧ t.tv = false ∧ t.talg = 0 ∧ t.syn = false ∧
    t = { s with tv := false, talg := 0, syn := false, tree := t.tree, ct := t.ct, freeCount := t.freeCount } ∧
    (s.tv = false → s.talg = 0 → s.syn = false → t = s)

/-! ### Serial form -/

/-- R180: the serial form, its length `3n - 1`, at most 767 for a proper tree, and that it delimits itself. -/
def Obligations.SerialForm : Prop :=
  (∀ x, serial (.leaf x) = [0x01, x]) ∧ (∀ l r, serial (.node l r) = [0x00] ++ serial l ++ serial r) ∧
    (∀ t, (serial t).length = 3 * (syms t).length - 1) ∧ (∀ t, Proper t → (serial t).length ≤ 767) ∧
    ∀ t u rest rest', serial t ++ rest = serial u ++ rest' → t = u ∧ rest = rest'

/-- R181: TSER appends the serial form of TREE to SNK and changes nothing else when SNK has room; when SNK fills up first
it holds what fitted and SinkFull is raised with the byte that did not; with TV = 0 it raises NoTree. -/
def Obligations.TserAppendsTheSerialForm : Prop :=
  encode .tser = 0x23000000 ∧ ∀ s : State,
    (s.tv = false → exec .tser s = .next { s with err := 7, fault := true, errinfo0 := 0, errinfo1 := 0 }) ∧
    (s.tv = true → SinkRoom s (serial s.tree).length →
      exec .tser s = .next { s with snk := s.snk ++ serial s.tree }) ∧
    ∀ (sent : List Byte) (b : Byte) (more : List Byte), s.tv = true → serial s.tree = sent ++ b :: more →
      s.cfg.snkCap = some (s.snk.length + sent.length) → s.snk.length + sent.length < 2 ^ 64 →
      ∃ t, exec .tser s = .next t ∧ t.errinfo0.toNat = s.snk.length + sent.length ∧
        t = { s with snk := s.snk ++ sent, err := 10, fault := true, errinfo0 := t.errinfo0, errinfo1 := b.setWidth 64 }

/-- R182, R183: TLOAD takes the serial form of any proper tree from the head of SRC, makes that tree the current one with
TALG = 1 and SYN = 0, and leaves the rest of SRC; nothing else changes but the model's counter (log 7). -/
def Obligations.TloadReadsASerialTree : Prop :=
  encode .tload = 0x24000000 ∧
    ∀ (s : State) (tree : CodeTree) (rest : List Byte), Proper tree → s.src = serial tree ++ rest →
    ∃ t, exec .tload s = .next t ∧ t = { s with
      src := rest, tree := tree, ct := codes tree, tv := true, talg := 1, syn := false, freeCount := t.freeCount }

/-- R182, R183, R237, R244: TLOAD loads the serial form of a proper tree, or it faults: then no tree is valid, the bytes
it consumed are gone and counted in ERRINFO1. They are the markers `p` of a tree that is not whole, and then the end of
SRC, before a marker or after a leaf's (TruncatedInput), a bad marker (InvalidTree, reason 1), a leaf with a symbol seen
before (2), or a 256th internal node (3). Nothing else changes but TREE and CT (log 6). -/
def Obligations.TloadLoadsOrFaults : Prop :=
  ∀ s : State, ∃ t, exec .tload s = .next t ∧
    ((∃ rest, Proper t.tree ∧ s.src = serial t.tree ++ rest ∧ t = { s with
        src := rest, tree := t.tree, ct := codes t.tree, tv := true, talg := 1, syn := false, freeCount := t.freeCount }) ∨
      (∃ gone, s.src = gone ++ t.src ∧ t.errinfo1.toNat = gone.length ∧ t = { s with
        src := t.src, tv := false, talg := 0, syn := false, tree := t.tree, ct := t.ct, freeCount := t.freeCount,
        err := t.err, fault := true, errinfo0 := t.errinfo0, errinfo1 := t.errinfo1 } ∧
        ∃ p, Unfinished p ∧
          ((t.err = 4 ∧ t.errinfo0 = 0 ∧ t.src = [] ∧ (gone = markerBytes p ∨ gone = markerBytes p ++ [1])) ∨
            (t.err = 8 ∧ t.errinfo0 = 1 ∧ ∃ m, m ≠ 0 ∧ m ≠ 1 ∧ gone = markerBytes p ++ [m]) ∨
            (t.err = 8 ∧ t.errinfo0 = 2 ∧ ∃ x, some x ∈ p ∧ gone = markerBytes p ++ [1, x]) ∨
            (t.err = 8 ∧ t.errinfo0 = 3 ∧ p.count none = 255 ∧ gone = markerBytes p ++ [0]))))

/-! ### Bit stream -/

/-- R193, R197: WRST drops the writer's bits and count, RRST the reader's bits and EOD, and neither touches a queue. -/
def Obligations.WriterAndReaderResets : Prop :=
  encode .wrst = 0x30000000 ∧ encode .rrst = 0x38000000 ∧
    ∀ s : State, exec .wrst s = .next { s with wacc := 0, wcnt := 0, wtotal := 0 } ∧
      exec .rrst s = .next { s with racc := 0, rcnt := 0, eod := false }

/-- R191, R194: WBIT shifts the bit into WACC and counts it; the eighth bit of a byte empties the accumulator and appends
the byte to SNK, or raises SinkFull with the byte lost. -/
def Obligations.WbitWritesOneBit : Prop :=
  ∀ (b : Byte) (s : State), b.toNat ≤ 1 →
    (encode (.wbit b)).toNat = 0x31000000 + b.toNat * 2 ^ 16 ∧
    (s.wcnt ≠ 7 → ∃ t, exec (.wbit b) s = .next t ∧ t.wacc.toNat = (s.wacc.toNat * 2 + b.toNat) % 256 ∧
      t = { s with wacc := t.wacc, wcnt := s.wcnt + 1, wtotal := s.wtotal + 1 }) ∧
    (s.wcnt = 7 → ∀ v : Byte, v.toNat = (s.wacc.toNat * 2 + b.toNat) % 256 →
      (SinkRoom s 1 → exec (.wbit b) s = .next
        { s with wacc := 0, wcnt := 0, wtotal := s.wtotal + 1, snk := s.snk ++ [v] }) ∧
      (s.cfg.snkCap = some s.snk.length → s.snk.length < 2 ^ 64 → ∃ t, exec (.wbit b) s = .next t ∧
        t.errinfo0.toNat = s.snk.length ∧ t = { s with
          wacc := 0, wcnt := 0, wtotal := s.wtotal + 1, err := 10, fault := true, errinfo0 := t.errinfo0,
          errinfo1 := v.setWidth 64 }))

/-- R192, R195: WFLUSH on a byte boundary changes nothing; otherwise it empties the accumulator and appends the pending
bits, shifted to the top of a byte, to SNK, or raises SinkFull with the byte lost. WTOTAL does not change. -/
def Obligations.WflushPadsAndEmits : Prop :=
  encode .wflush = 0x32000000 ∧ ∀ s : State,
    (s.wcnt = 0 → exec .wflush s = .next s) ∧
    (1 ≤ s.wcnt.toNat → s.wcnt.toNat ≤ 7 → ∀ v : Byte, v.toNat = (s.wacc.toNat * 2 ^ (8 - s.wcnt.toNat)) % 256 →
      (SinkRoom s 1 → exec .wflush s = .next { s with wacc := 0, wcnt := 0, snk := s.snk ++ [v] }) ∧
      (s.cfg.snkCap = some s.snk.length → s.snk.length < 2 ^ 64 → ∃ t, exec .wflush s = .next t ∧
        t.errinfo0.toNat = s.snk.length ∧ t = { s with
          wacc := 0, wcnt := 0, err := 10, fault := true, errinfo0 := t.errinfo0, errinfo1 := v.setWidth 64 }))

/-- R196, R198: RBIT delivers the top bit of the buffer, refilled from SRC only when it is empty, and clears EOD; with
buffer and SRC empty it gives 0 and sets EOD. -/
def Obligations.RbitReadsOneBit : Prop :=
  encode .rbit = 0x39000000 ∧ ∀ s : State,
    (s.rcnt = 0 → s.src = [] → exec .rbit s = .next { s with arg0 := 0, eod := true }) ∧
    (s.rcnt = 0 → ∀ x rest, s.src = x :: rest → ∃ t, exec .rbit s = .next t ∧
      t.arg0.toNat = x.toNat / 128 ∧ t.racc.toNat = x.toNat * 2 % 256 ∧
      t = { s with arg0 := t.arg0, racc := t.racc, rcnt := 7, src := rest, eod := false }) ∧
    (s.rcnt ≠ 0 → ∃ t, exec .rbit s = .next t ∧
      t.arg0.toNat = s.racc.toNat / 128 ∧ t.racc.toNat = s.racc.toNat * 2 % 256 ∧
      t = { s with arg0 := t.arg0, racc := t.racc, rcnt := s.rcnt - 1, eod := false })

/-- R28, R29, R67: seen as streams, WBIT adds its bit at the end of what the writer holds and RBIT takes the first bit of
what the reader holds, in every state between commands. -/
def Obligations.BitCommandsAreStreams : Prop :=
  (∀ (b : Byte) (s : State), b.toNat ≤ 1 → WriterOk s → SinkRoom s 1 → ∃ t, exec (.wbit b) s = .next t ∧
    WriterOk t ∧ sinkBits t = sinkBits s ++ [decide (b = 1)]) ∧
  ∀ (b : Bit) (s : State) (rest : List Bit), ReaderOk s → sourceBits s = b :: rest → ∃ t, exec .rbit s = .next t ∧
    ReaderOk t ∧ sourceBits t = rest ∧ t.arg0.toNat = b.toNat ∧ t.eod = false

/-- R199: bits written from a byte boundary and flushed become `ceil(n/8)` bytes with bit `8j + i` at bit `7 - i` of byte
`j` and zeros after the last; a reader on a byte boundary delivers those bits, then the pad, then EOD. -/
def Obligations.WriterReaderPair : Prop :=
  ∀ (bits : List Bit) (s : State), s.wcnt = 0 → s.wacc = 0 → SinkRoom s ((bits.length + 7) / 8) →
    ∃ t u bytes, writeBits bits s = .ok t ∧ flushWriter t = .ok u ∧ u.snk = s.snk ++ bytes ∧
      bytes.length = (bits.length + 7) / 8 ∧
      (∀ j i, j < bytes.length → i < 8 → (bytes.getD j 0).getLsbD (7 - i) = bits.getD (8 * j + i) false) ∧
      ∀ r : State, r.src = bytes → r.rcnt = 0 → r.racc = 0 →
        readMany (8 * bytes.length + 1) r =
          bits.map some ++ List.replicate (8 * bytes.length - bits.length) (some false) ++ [none]

/-! ### Encoder and decoder -/

/-- R210, R211: with every byte of SRC coded and room in SNK, ENCODE consumes SRC and adds the bytes' codes, in order, to
what the writer holds, WTOTAL counting them, and changes nothing else. -/
def Obligations.EncodeWritesTheCodes : Prop :=
  encode .encode = 0x40000000 ∧ ∀ s : State, s.tv = true → WriterOk s → (∀ x ∈ s.src, codeOf s.ct x ≠ []) →
    SinkRoom s ((s.wcnt.toNat + (codeBits s.ct s.src).length) / 8) →
    ∃ t, exec .encode s = .next t ∧ WriterOk t ∧ sinkBits t = sinkBits s ++ codeBits s.ct s.src ∧
      t = { s with src := [], wacc := t.wacc, wcnt := t.wcnt, snk := t.snk,
                   wtotal := s.wtotal + BitVec.ofNat 64 (codeBits s.ct s.src).length }

/-- R211, R235: ENCODE meeting a byte without a code raises AbsentSymbol with the byte and the number of bytes before it,
whose codes are written; the byte and all before it are gone from SRC. -/
def Obligations.EncodeFaultsOnAbsentSymbol : Prop :=
  ∀ (s : State) (done : List Byte) (x : Byte) (rest : List Byte), s.tv = true → WriterOk s →
    s.src = done ++ x :: rest → (∀ y ∈ done, codeOf s.ct y ≠ []) → codeOf s.ct x = [] → done.length < 2 ^ 64 →
    SinkRoom s ((s.wcnt.toNat + (codeBits s.ct done).length) / 8) →
    ∃ t, exec .encode s = .next t ∧ t.errinfo1.toNat = done.length ∧ WriterOk t ∧
      sinkBits t = sinkBits s ++ codeBits s.ct done ∧
      t = { s with src := rest, wacc := t.wacc, wcnt := t.wcnt, snk := t.snk,
                   wtotal := s.wtotal + BitVec.ofNat 64 (codeBits s.ct done).length,
                   err := 6, fault := true, errinfo0 := x.setWidth 64, errinfo1 := t.errinfo1 }

/-- R212, R213: when the reader's bits begin with the codes of `out` and ARG0 is their number, DECODE appends `out` to
SNK and leaves the bits after them, and changes nothing else but EOD. -/
def Obligations.DecodeReadsTheCodes : Prop :=
  encode .decode = 0x41000000 ∧ ∀ (s : State) (out : List Byte) (rest : List Bit), s.tv = true → Proper s.tree →
    ReaderOk s → (∀ x ∈ out, x ∈ syms s.tree) → sourceBits s = codeBits (codes s.tree) out ++ rest →
    s.arg0.toNat = out.length → SinkRoom s out.length →
    ∃ t, exec .decode s = .next t ∧ ReaderOk t ∧ sourceBits t = rest ∧
      t = { s with snk := s.snk ++ out, racc := t.racc, rcnt := t.rcnt, src := t.src,
                   eod := if out = [] then s.eod else false }

/-- R213, R233: when the bits end inside a symbol, or before it, DECODE raises TruncatedInput with the number of symbols
expected and produced; the symbols produced are in SNK, all bits are consumed and EOD is 1. -/
def Obligations.DecodeFaultsOnTruncatedInput : Prop :=
  ∀ (s : State) (out : List Byte) (tail : List Bit), s.tv = true → Proper s.tree → ReaderOk s →
    (∀ x ∈ out, x ∈ syms s.tree) → sourceBits s = codeBits (codes s.tree) out ++ tail →
    (∀ x ∈ syms s.tree, ¬ codeOf (codes s.tree) x <+: tail) → ((∃ x, s.tree = .leaf x) → tail = []) →
    out.length < s.arg0.toNat → SinkRoom s out.length →
    ∃ t, exec .decode s = .next t ∧ t.errinfo1.toNat = out.length ∧
      t = { s with snk := s.snk ++ out, racc := t.racc, rcnt := 0, src := [], eod := true,
                   err := 4, fault := true, errinfo0 := s.arg0, errinfo1 := t.errinfo1 }

/-- R213, R234: on a degenerate tree a 1 bit raises InvalidCode with the number of symbols produced; they are in SNK and
the bit is consumed. -/
def Obligations.DecodeFaultsOnInvalidCode : Prop :=
  ∀ (s : State) (x : Byte) (k : Nat) (rest : List Bit), s.tv = true → s.tree = .leaf x → ReaderOk s →
    sourceBits s = List.replicate k false ++ true :: rest → k < s.arg0.toNat → SinkRoom s k →
    ∃ t, exec .decode s = .next t ∧ t.errinfo0.toNat = k ∧ ReaderOk t ∧ sourceBits t = rest ∧
      t = { s with snk := s.snk ++ List.replicate k x, racc := t.racc, rcnt := t.rcnt, src := t.src, eod := false,
                   err := 5, fault := true, errinfo0 := t.errinfo0, errinfo1 := 0 }

/-- R214: round trip. With the tree either builder makes from a table in which every byte of `S` is present, encoding `S`
with a reset writer and flushing gives bytes from which a reset reader with the same tree decodes exactly `S`, without
fault. -/
def Obligations.RoundTrip : Prop :=
  ∀ (tab : Table) (tree : CodeTree) (S : List Byte) (s : State), tree = hBuild tab ∨ tree = sBuild tab →
    (∀ x ∈ S, tableGet tab x ≠ 0) → S.length < 2 ^ 64 →
    s.tv = true → s.tree = tree → s.ct = codes tree → s.fault = false → s.wcnt = 0 → s.wacc = 0 → s.src = S →
    SinkRoom s (((codeBits (codes tree) S).length + 7) / 8) →
    ∃ t u bytes, exec .encode s = .next t ∧ exec .wflush t = .next u ∧ u.fault = false ∧ u.snk = s.snk ++ bytes ∧
      ∀ d : State, d.tv = true → d.tree = tree → d.fault = false → d.rcnt = 0 → d.racc = 0 → d.src = bytes →
        d.arg0.toNat = S.length → SinkRoom d S.length →
        ∃ v, exec .decode d = .next v ∧ v.fault = false ∧ v.snk = d.snk ++ S

/-- R215: truncation. If the bytes of a flushed payload of at least one symbol lose one or more bytes from the end,
decoding the original length raises TruncatedInput with that length as the expected count. -/
def Obligations.TruncationIsDetected : Prop :=
  ∀ (tab : Table) (tree : CodeTree) (S : List Byte) (s : State), tree = hBuild tab ∨ tree = sBuild tab →
    (∀ x ∈ S, tableGet tab x ≠ 0) → S ≠ [] → S.length < 2 ^ 64 →
    s.tv = true → s.tree = tree → s.ct = codes tree → s.wcnt = 0 → s.wacc = 0 → s.src = S →
    SinkRoom s (((codeBits (codes tree) S).length + 7) / 8) →
    ∃ t u bytes, exec .encode s = .next t ∧ exec .wflush t = .next u ∧ u.snk = s.snk ++ bytes ∧
      ∀ (d : State) (cut : List Byte), cut <+: bytes → cut ≠ bytes →
        d.tv = true → d.tree = tree → d.rcnt = 0 → d.racc = 0 → d.src = cut →
        d.arg0.toNat = S.length → SinkRoom d S.length →
        ∃ v, exec .decode d = .next v ∧ v.fault = true ∧ v.err = 4 ∧ v.errinfo0 = d.arg0

/-! ### Whole-machine rules -/

/-- R39: the invariants between commands hold at reset, whatever the capacities. -/
def Obligations.ResetHasTheInvariants : Prop :=
  ∀ (cfg : Config) (moves : List HostMove), Inv { State.reset with cfg := cfg, moves := moves }

/-- R39: every step, of whatever host move, keeps the invariants between commands. -/
def Obligations.StepKeepsTheInvariants : Prop :=
  ∀ s t : State, Inv s → step s = .next t → Inv t

/-- R21, R26, R31, R32, R124: which commands can change ARG0, ARG1, LEN, FT and QT. -/
def Obligations.RegistersAndTablesWriters : Prop :=
  ∀ (i : Instr) (s t : State), exec i s = .next t → i ≠ .srst →
    (t.ft ≠ s.ft → i = .fclr ∨ i = .fscan ∨ ∃ x, i = .fset x) ∧
    (t.qt ≠ s.qt → (∃ w, i = .quant w) ∨ ∃ x, i = .qset x) ∧
    (t.arg0 ≠ s.arg0 → (∃ x, i = .fget x) ∨ (∃ x, i = .qget x) ∨ (∃ x, i = .clen x) ∨ (∃ x k, i = .cbits x k) ∨ i = .rbit) ∧
    t.arg1 = s.arg1 ∧ (t.len ≠ s.len → i = .fclr ∨ i = .fscan)

/-- R162, R24: which commands can change TREE, CT, TV, TALG and SYN; a BUILD of the table's rows always leaves TV = 1. -/
def Obligations.TreeLifetime : Prop :=
  ∀ (i : Instr) (s t : State), exec i s = .next t →
    (t.tree = s.tree ∧ t.ct = s.ct ∧ t.tv = s.tv ∧ t.talg = s.talg ∧ t.syn = s.syn) ∨
    ((∃ x, i = .hbuild x) ∨ (∃ x, i = .sbuild x)) ∧ t.tv = true ∨
    i = .tload ∨ i = .tdrop ∧ t.tv = false ∨ i = .srst ∧ t.tv = false

/-- R24, R27, R28, R29, R35, R266: which commands can change the writer, the reader, EOD and the queues. -/
def Obligations.StreamWriters : Prop :=
  ∀ (i : Instr) (s t : State), exec i s = .next t → i ≠ .srst →
    (t.wacc ≠ s.wacc ∨ t.wcnt ≠ s.wcnt → i = .wrst ∨ (∃ b, i = .wbit b) ∨ i = .wflush ∨ i = .encode) ∧
    (t.wtotal ≠ s.wtotal → i = .wrst ∨ (∃ b, i = .wbit b) ∨ i = .encode) ∧
    (t.racc ≠ s.racc ∨ t.rcnt ≠ s.rcnt ∨ t.eod ≠ s.eod → i = .rrst ∨ i = .rbit ∨ i = .decode) ∧
    (t.src ≠ s.src → i = .fscan ∨ i = .tload ∨ i = .rbit ∨ i = .encode ∨ i = .decode ∨ i = .srcclr) ∧
    (t.snk ≠ s.snk → (∃ b, i = .wbit b) ∨ i = .wflush ∨ i = .encode ∨ i = .decode ∨ i = .tser ∨ i = .snkclr)

/-- R239, R66: SinkFull is recorded only with SNK at its capacity, whose size ERRINFO0 shows, and only by WBIT, WFLUSH,
ENCODE, DECODE and TSER. R244: with room for `n` bytes, ENCODE stops in the byte `x` whose code has the bit that completes
byte `n + 1`: that byte is lost and in ERRINFO1, `n` bytes are in SNK, the writer is empty, the bits up to there are
counted, and `x` and all before it are gone from SRC. With room for the symbols `out`, DECODE stops at the next symbol
`x`: it is lost and in ERRINFO1, its bits are consumed, and EOD is 0. -/
def Obligations.SinkFullMeansFull : Prop :=
  (∀ (i : Instr) (s t : State), exec i s = .next t → s.fault = false → t.fault = true → t.err = 10 →
    ((∃ b, i = .wbit b) ∨ i = .wflush ∨ i = .encode ∨ i = .decode ∨ i = .tser) ∧
    ∃ c, t.cfg.snkCap = some c ∧ c ≤ t.snk.length ∧ t.errinfo0 = countWord t.snk.length) ∧
  (∀ (s : State) (done : List Byte) (x : Byte) (rest : List Byte) (n : Nat), s.tv = true → WriterOk s →
    s.src = done ++ x :: rest → (∀ y ∈ done, codeOf s.ct y ≠ []) →
    s.cfg.snkCap = some (s.snk.length + n) → s.snk.length + n < 2 ^ 64 →
    s.wcnt.toNat + (codeBits s.ct done).length < 8 * (n + 1) →
    8 * (n + 1) ≤ s.wcnt.toNat + (codeBits s.ct (done ++ [x])).length →
    ∃ t sent lost, exec .encode s = .next t ∧ sent.length = n ∧
      (sent ++ [lost]).flatMap byteBits = (pendingBits s ++ codeBits s.ct (done ++ [x])).take (8 * (n + 1)) ∧
      t.errinfo0.toNat = s.snk.length + n ∧
      t = { s with src := rest, wacc := 0, wcnt := 0, snk := s.snk ++ sent,
                   wtotal := s.wtotal + BitVec.ofNat 64 (8 * (n + 1) - s.wcnt.toNat),
                   err := 10, fault := true, errinfo0 := t.errinfo0, errinfo1 := lost.setWidth 64 }) ∧
  ∀ (s : State) (out : List Byte) (x : Byte) (rest : List Bit), s.tv = true → Proper s.tree → ReaderOk s →
    (∀ y ∈ out, y ∈ syms s.tree) → x ∈ syms s.tree →
    sourceBits s = codeBits (codes s.tree) (out ++ [x]) ++ rest → out.length < s.arg0.toNat →
    s.cfg.snkCap = some (s.snk.length + out.length) → s.snk.length + out.length < 2 ^ 64 →
    ∃ t, exec .decode s = .next t ∧ ReaderOk t ∧ sourceBits t = rest ∧
      t.errinfo0.toNat = s.snk.length + out.length ∧
      t = { s with snk := s.snk ++ out, racc := t.racc, rcnt := t.rcnt, src := t.src, eod := false,
                   err := 10, fault := true, errinfo0 := t.errinfo0, errinfo1 := x.setWidth 64 }
end

