-- ==== Sys2Proof/Laws/State.lean ====
section
/-! SUPPORT. Every field of every named update of State, and the laws of the result type. -/

namespace Sys2Proof.Machine

/-! ### raise -/

@[simp] theorem raise_arg0 (k : FaultKind) (e0 e1 : Word) (s : State) : (raise k e0 e1 s).arg0 = s.arg0 := rfl
@[simp] theorem raise_arg1 (k : FaultKind) (e0 e1 : Word) (s : State) : (raise k e0 e1 s).arg1 = s.arg1 := rfl
@[simp] theorem raise_err (k : FaultKind) (e0 e1 : Word) (s : State) : (raise k e0 e1 s).err = faultCode k := rfl
@[simp] theorem raise_fault (k : FaultKind) (e0 e1 : Word) (s : State) : (raise k e0 e1 s).fault = true := rfl
@[simp] theorem raise_tv (k : FaultKind) (e0 e1 : Word) (s : State) : (raise k e0 e1 s).tv = s.tv := rfl
@[simp] theorem raise_eod (k : FaultKind) (e0 e1 : Word) (s : State) : (raise k e0 e1 s).eod = s.eod := rfl
@[simp] theorem raise_syn (k : FaultKind) (e0 e1 : Word) (s : State) : (raise k e0 e1 s).syn = s.syn := rfl
@[simp] theorem raise_talg (k : FaultKind) (e0 e1 : Word) (s : State) : (raise k e0 e1 s).talg = s.talg := rfl
@[simp] theorem raise_errinfo0 (k : FaultKind) (e0 e1 : Word) (s : State) : (raise k e0 e1 s).errinfo0 = e0 := rfl
@[simp] theorem raise_errinfo1 (k : FaultKind) (e0 e1 : Word) (s : State) : (raise k e0 e1 s).errinfo1 = e1 := rfl
@[simp] theorem raise_len (k : FaultKind) (e0 e1 : Word) (s : State) : (raise k e0 e1 s).len = s.len := rfl
@[simp] theorem raise_wtotal (k : FaultKind) (e0 e1 : Word) (s : State) : (raise k e0 e1 s).wtotal = s.wtotal := rfl
@[simp] theorem raise_wacc (k : FaultKind) (e0 e1 : Word) (s : State) : (raise k e0 e1 s).wacc = s.wacc := rfl
@[simp] theorem raise_wcnt (k : FaultKind) (e0 e1 : Word) (s : State) : (raise k e0 e1 s).wcnt = s.wcnt := rfl
@[simp] theorem raise_racc (k : FaultKind) (e0 e1 : Word) (s : State) : (raise k e0 e1 s).racc = s.racc := rfl
@[simp] theorem raise_rcnt (k : FaultKind) (e0 e1 : Word) (s : State) : (raise k e0 e1 s).rcnt = s.rcnt := rfl
@[simp] theorem raise_ft (k : FaultKind) (e0 e1 : Word) (s : State) : (raise k e0 e1 s).ft = s.ft := rfl
@[simp] theorem raise_qt (k : FaultKind) (e0 e1 : Word) (s : State) : (raise k e0 e1 s).qt = s.qt := rfl
@[simp] theorem raise_tree (k : FaultKind) (e0 e1 : Word) (s : State) : (raise k e0 e1 s).tree = s.tree := rfl
@[simp] theorem raise_ct (k : FaultKind) (e0 e1 : Word) (s : State) : (raise k e0 e1 s).ct = s.ct := rfl
@[simp] theorem raise_src (k : FaultKind) (e0 e1 : Word) (s : State) : (raise k e0 e1 s).src = s.src := rfl
@[simp] theorem raise_snk (k : FaultKind) (e0 e1 : Word) (s : State) : (raise k e0 e1 s).snk = s.snk := rfl
@[simp] theorem raise_cfg (k : FaultKind) (e0 e1 : Word) (s : State) : (raise k e0 e1 s).cfg = s.cfg := rfl
@[simp] theorem raise_moves (k : FaultKind) (e0 e1 : Word) (s : State) : (raise k e0 e1 s).moves = s.moves := rfl
@[simp] theorem raise_returned (k : FaultKind) (e0 e1 : Word) (s : State) : (raise k e0 e1 s).returned = s.returned := rfl
@[simp] theorem raise_freeCount (k : FaultKind) (e0 e1 : Word) (s : State) : (raise k e0 e1 s).freeCount = s.freeCount := rfl

/-! ### clearFault -/

@[simp] theorem clearFault_arg0 (s : State) : (clearFault s).arg0 = s.arg0 := rfl
@[simp] theorem clearFault_arg1 (s : State) : (clearFault s).arg1 = s.arg1 := rfl
@[simp] theorem clearFault_err (s : State) : (clearFault s).err = 0 := rfl
@[simp] theorem clearFault_fault (s : State) : (clearFault s).fault = false := rfl
@[simp] theorem clearFault_tv (s : State) : (clearFault s).tv = s.tv := rfl
@[simp] theorem clearFault_eod (s : State) : (clearFault s).eod = s.eod := rfl
@[simp] theorem clearFault_syn (s : State) : (clearFault s).syn = s.syn := rfl
@[simp] theorem clearFault_talg (s : State) : (clearFault s).talg = s.talg := rfl
@[simp] theorem clearFault_errinfo0 (s : State) : (clearFault s).errinfo0 = 0 := rfl
@[simp] theorem clearFault_errinfo1 (s : State) : (clearFault s).errinfo1 = 0 := rfl
@[simp] theorem clearFault_len (s : State) : (clearFault s).len = s.len := rfl
@[simp] theorem clearFault_wtotal (s : State) : (clearFault s).wtotal = s.wtotal := rfl
@[simp] theorem clearFault_wacc (s : State) : (clearFault s).wacc = s.wacc := rfl
@[simp] theorem clearFault_wcnt (s : State) : (clearFault s).wcnt = s.wcnt := rfl
@[simp] theorem clearFault_racc (s : State) : (clearFault s).racc = s.racc := rfl
@[simp] theorem clearFault_rcnt (s : State) : (clearFault s).rcnt = s.rcnt := rfl
@[simp] theorem clearFault_ft (s : State) : (clearFault s).ft = s.ft := rfl
@[simp] theorem clearFault_qt (s : State) : (clearFault s).qt = s.qt := rfl
@[simp] theorem clearFault_tree (s : State) : (clearFault s).tree = s.tree := rfl
@[simp] theorem clearFault_ct (s : State) : (clearFault s).ct = s.ct := rfl
@[simp] theorem clearFault_src (s : State) : (clearFault s).src = s.src := rfl
@[simp] theorem clearFault_snk (s : State) : (clearFault s).snk = s.snk := rfl
@[simp] theorem clearFault_cfg (s : State) : (clearFault s).cfg = s.cfg := rfl
@[simp] theorem clearFault_moves (s : State) : (clearFault s).moves = s.moves := rfl
@[simp] theorem clearFault_returned (s : State) : (clearFault s).returned = s.returned := rfl
@[simp] theorem clearFault_freeCount (s : State) : (clearFault s).freeCount = s.freeCount := rfl

/-! ### shiftIn -/

@[simp] theorem shiftIn_arg0 (b : Bit) (s : State) : (shiftIn b s).arg0 = s.arg0 := rfl
@[simp] theorem shiftIn_arg1 (b : Bit) (s : State) : (shiftIn b s).arg1 = s.arg1 := rfl
@[simp] theorem shiftIn_err (b : Bit) (s : State) : (shiftIn b s).err = s.err := rfl
@[simp] theorem shiftIn_fault (b : Bit) (s : State) : (shiftIn b s).fault = s.fault := rfl
@[simp] theorem shiftIn_tv (b : Bit) (s : State) : (shiftIn b s).tv = s.tv := rfl
@[simp] theorem shiftIn_eod (b : Bit) (s : State) : (shiftIn b s).eod = s.eod := rfl
@[simp] theorem shiftIn_syn (b : Bit) (s : State) : (shiftIn b s).syn = s.syn := rfl
@[simp] theorem shiftIn_talg (b : Bit) (s : State) : (shiftIn b s).talg = s.talg := rfl
@[simp] theorem shiftIn_errinfo0 (b : Bit) (s : State) : (shiftIn b s).errinfo0 = s.errinfo0 := rfl
@[simp] theorem shiftIn_errinfo1 (b : Bit) (s : State) : (shiftIn b s).errinfo1 = s.errinfo1 := rfl
@[simp] theorem shiftIn_len (b : Bit) (s : State) : (shiftIn b s).len = s.len := rfl
@[simp] theorem shiftIn_wtotal (b : Bit) (s : State) : (shiftIn b s).wtotal = s.wtotal + 1 := rfl
@[simp] theorem shiftIn_wacc (b : Bit) (s : State) : (shiftIn b s).wacc = s.wacc * 2 + bitByte b := rfl
@[simp] theorem shiftIn_wcnt (b : Bit) (s : State) : (shiftIn b s).wcnt = s.wcnt + 1 := rfl
@[simp] theorem shiftIn_racc (b : Bit) (s : State) : (shiftIn b s).racc = s.racc := rfl
@[simp] theorem shiftIn_rcnt (b : Bit) (s : State) : (shiftIn b s).rcnt = s.rcnt := rfl
@[simp] theorem shiftIn_ft (b : Bit) (s : State) : (shiftIn b s).ft = s.ft := rfl
@[simp] theorem shiftIn_qt (b : Bit) (s : State) : (shiftIn b s).qt = s.qt := rfl
@[simp] theorem shiftIn_tree (b : Bit) (s : State) : (shiftIn b s).tree = s.tree := rfl
@[simp] theorem shiftIn_ct (b : Bit) (s : State) : (shiftIn b s).ct = s.ct := rfl
@[simp] theorem shiftIn_src (b : Bit) (s : State) : (shiftIn b s).src = s.src := rfl
@[simp] theorem shiftIn_snk (b : Bit) (s : State) : (shiftIn b s).snk = s.snk := rfl
@[simp] theorem shiftIn_cfg (b : Bit) (s : State) : (shiftIn b s).cfg = s.cfg := rfl
@[simp] theorem shiftIn_moves (b : Bit) (s : State) : (shiftIn b s).moves = s.moves := rfl
@[simp] theorem shiftIn_returned (b : Bit) (s : State) : (shiftIn b s).returned = s.returned := rfl
@[simp] theorem shiftIn_freeCount (b : Bit) (s : State) : (shiftIn b s).freeCount = s.freeCount := rfl

/-! ### takeBit -/

@[simp] theorem takeBit_arg0 (s : State) : (takeBit s).2.arg0 = s.arg0 := rfl
@[simp] theorem takeBit_arg1 (s : State) : (takeBit s).2.arg1 = s.arg1 := rfl
@[simp] theorem takeBit_err (s : State) : (takeBit s).2.err = s.err := rfl
@[simp] theorem takeBit_fault (s : State) : (takeBit s).2.fault = s.fault := rfl
@[simp] theorem takeBit_tv (s : State) : (takeBit s).2.tv = s.tv := rfl
@[simp] theorem takeBit_eod (s : State) : (takeBit s).2.eod = false := rfl
@[simp] theorem takeBit_syn (s : State) : (takeBit s).2.syn = s.syn := rfl
@[simp] theorem takeBit_talg (s : State) : (takeBit s).2.talg = s.talg := rfl
@[simp] theorem takeBit_errinfo0 (s : State) : (takeBit s).2.errinfo0 = s.errinfo0 := rfl
@[simp] theorem takeBit_errinfo1 (s : State) : (takeBit s).2.errinfo1 = s.errinfo1 := rfl
@[simp] theorem takeBit_len (s : State) : (takeBit s).2.len = s.len := rfl
@[simp] theorem takeBit_wtotal (s : State) : (takeBit s).2.wtotal = s.wtotal := rfl
@[simp] theorem takeBit_wacc (s : State) : (takeBit s).2.wacc = s.wacc := rfl
@[simp] theorem takeBit_wcnt (s : State) : (takeBit s).2.wcnt = s.wcnt := rfl
@[simp] theorem takeBit_racc (s : State) : (takeBit s).2.racc = s.racc * 2 := rfl
@[simp] theorem takeBit_rcnt (s : State) : (takeBit s).2.rcnt = s.rcnt - 1 := rfl
@[simp] theorem takeBit_ft (s : State) : (takeBit s).2.ft = s.ft := rfl
@[simp] theorem takeBit_qt (s : State) : (takeBit s).2.qt = s.qt := rfl
@[simp] theorem takeBit_tree (s : State) : (takeBit s).2.tree = s.tree := rfl
@[simp] theorem takeBit_ct (s : State) : (takeBit s).2.ct = s.ct := rfl
@[simp] theorem takeBit_src (s : State) : (takeBit s).2.src = s.src := rfl
@[simp] theorem takeBit_snk (s : State) : (takeBit s).2.snk = s.snk := rfl
@[simp] theorem takeBit_cfg (s : State) : (takeBit s).2.cfg = s.cfg := rfl
@[simp] theorem takeBit_moves (s : State) : (takeBit s).2.moves = s.moves := rfl
@[simp] theorem takeBit_returned (s : State) : (takeBit s).2.returned = s.returned := rfl
@[simp] theorem takeBit_freeCount (s : State) : (takeBit s).2.freeCount = s.freeCount := rfl

/-! ### dropTree -/

@[simp] theorem dropTree_arg0 (s : State) : (dropTree s).arg0 = s.arg0 := rfl
@[simp] theorem dropTree_arg1 (s : State) : (dropTree s).arg1 = s.arg1 := rfl
@[simp] theorem dropTree_err (s : State) : (dropTree s).err = s.err := rfl
@[simp] theorem dropTree_fault (s : State) : (dropTree s).fault = s.fault := rfl
@[simp] theorem dropTree_tv (s : State) : (dropTree s).tv = false := rfl
@[simp] theorem dropTree_eod (s : State) : (dropTree s).eod = s.eod := rfl
@[simp] theorem dropTree_syn (s : State) : (dropTree s).syn = false := rfl
@[simp] theorem dropTree_talg (s : State) : (dropTree s).talg = 0 := rfl
@[simp] theorem dropTree_errinfo0 (s : State) : (dropTree s).errinfo0 = s.errinfo0 := rfl
@[simp] theorem dropTree_errinfo1 (s : State) : (dropTree s).errinfo1 = s.errinfo1 := rfl
@[simp] theorem dropTree_len (s : State) : (dropTree s).len = s.len := rfl
@[simp] theorem dropTree_wtotal (s : State) : (dropTree s).wtotal = s.wtotal := rfl
@[simp] theorem dropTree_wacc (s : State) : (dropTree s).wacc = s.wacc := rfl
@[simp] theorem dropTree_wcnt (s : State) : (dropTree s).wcnt = s.wcnt := rfl
@[simp] theorem dropTree_racc (s : State) : (dropTree s).racc = s.racc := rfl
@[simp] theorem dropTree_rcnt (s : State) : (dropTree s).rcnt = s.rcnt := rfl
@[simp] theorem dropTree_ft (s : State) : (dropTree s).ft = s.ft := rfl
@[simp] theorem dropTree_qt (s : State) : (dropTree s).qt = s.qt := rfl
@[simp] theorem dropTree_tree (s : State) : (dropTree s).tree = if s.tv then Config.freeTree s.freeCount else s.tree := rfl
@[simp] theorem dropTree_ct (s : State) : (dropTree s).ct = if s.tv then Config.freeCodes s.freeCount else s.ct := rfl
@[simp] theorem dropTree_src (s : State) : (dropTree s).src = s.src := rfl
@[simp] theorem dropTree_snk (s : State) : (dropTree s).snk = s.snk := rfl
@[simp] theorem dropTree_cfg (s : State) : (dropTree s).cfg = s.cfg := rfl
@[simp] theorem dropTree_moves (s : State) : (dropTree s).moves = s.moves := rfl
@[simp] theorem dropTree_returned (s : State) : (dropTree s).returned = s.returned := rfl
@[simp] theorem dropTree_freeCount (s : State) : (dropTree s).freeCount = if s.tv then s.freeCount + 1 else s.freeCount := rfl

/-! ### installTree -/

@[simp] theorem installTree_arg0 (t : CodeTree) (alg : BitVec 8) (syn : Bool) (s : State) : (installTree t alg syn s).arg0 = s.arg0 := rfl
@[simp] theorem installTree_arg1 (t : CodeTree) (alg : BitVec 8) (syn : Bool) (s : State) : (installTree t alg syn s).arg1 = s.arg1 := rfl
@[simp] theorem installTree_err (t : CodeTree) (alg : BitVec 8) (syn : Bool) (s : State) : (installTree t alg syn s).err = s.err := rfl
@[simp] theorem installTree_fault (t : CodeTree) (alg : BitVec 8) (syn : Bool) (s : State) : (installTree t alg syn s).fault = s.fault := rfl
@[simp] theorem installTree_tv (t : CodeTree) (alg : BitVec 8) (syn : Bool) (s : State) : (installTree t alg syn s).tv = true := rfl
@[simp] theorem installTree_eod (t : CodeTree) (alg : BitVec 8) (syn : Bool) (s : State) : (installTree t alg syn s).eod = s.eod := rfl
@[simp] theorem installTree_syn (t : CodeTree) (alg : BitVec 8) (syn : Bool) (s : State) : (installTree t alg syn s).syn = syn := rfl
@[simp] theorem installTree_talg (t : CodeTree) (alg : BitVec 8) (syn : Bool) (s : State) : (installTree t alg syn s).talg = alg := rfl
@[simp] theorem installTree_errinfo0 (t : CodeTree) (alg : BitVec 8) (syn : Bool) (s : State) : (installTree t alg syn s).errinfo0 = s.errinfo0 := rfl
@[simp] theorem installTree_errinfo1 (t : CodeTree) (alg : BitVec 8) (syn : Bool) (s : State) : (installTree t alg syn s).errinfo1 = s.errinfo1 := rfl
@[simp] theorem installTree_len (t : CodeTree) (alg : BitVec 8) (syn : Bool) (s : State) : (installTree t alg syn s).len = s.len := rfl
@[simp] theorem installTree_wtotal (t : CodeTree) (alg : BitVec 8) (syn : Bool) (s : State) : (installTree t alg syn s).wtotal = s.wtotal := rfl
@[simp] theorem installTree_wacc (t : CodeTree) (alg : BitVec 8) (syn : Bool) (s : State) : (installTree t alg syn s).wacc = s.wacc := rfl
@[simp] theorem installTree_wcnt (t : CodeTree) (alg : BitVec 8) (syn : Bool) (s : State) : (installTree t alg syn s).wcnt = s.wcnt := rfl
@[simp] theorem installTree_racc (t : CodeTree) (alg : BitVec 8) (syn : Bool) (s : State) : (installTree t alg syn s).racc = s.racc := rfl
@[simp] theorem installTree_rcnt (t : CodeTree) (alg : BitVec 8) (syn : Bool) (s : State) : (installTree t alg syn s).rcnt = s.rcnt := rfl
@[simp] theorem installTree_ft (t : CodeTree) (alg : BitVec 8) (syn : Bool) (s : State) : (installTree t alg syn s).ft = s.ft := rfl
@[simp] theorem installTree_qt (t : CodeTree) (alg : BitVec 8) (syn : Bool) (s : State) : (installTree t alg syn s).qt = s.qt := rfl
@[simp] theorem installTree_tree (t : CodeTree) (alg : BitVec 8) (syn : Bool) (s : State) : (installTree t alg syn s).tree = t := rfl
@[simp] theorem installTree_ct (t : CodeTree) (alg : BitVec 8) (syn : Bool) (s : State) : (installTree t alg syn s).ct = codes t := rfl
@[simp] theorem installTree_src (t : CodeTree) (alg : BitVec 8) (syn : Bool) (s : State) : (installTree t alg syn s).src = s.src := rfl
@[simp] theorem installTree_snk (t : CodeTree) (alg : BitVec 8) (syn : Bool) (s : State) : (installTree t alg syn s).snk = s.snk := rfl
@[simp] theorem installTree_cfg (t : CodeTree) (alg : BitVec 8) (syn : Bool) (s : State) : (installTree t alg syn s).cfg = s.cfg := rfl
@[simp] theorem installTree_moves (t : CodeTree) (alg : BitVec 8) (syn : Bool) (s : State) : (installTree t alg syn s).moves = s.moves := rfl
@[simp] theorem installTree_returned (t : CodeTree) (alg : BitVec 8) (syn : Bool) (s : State) : (installTree t alg syn s).returned = s.returned := rfl
@[simp] theorem installTree_freeCount (t : CodeTree) (alg : BitVec 8) (syn : Bool) (s : State) : (installTree t alg syn s).freeCount = s.freeCount := rfl

/-! ### clearFreq -/

@[simp] theorem clearFreq_arg0 (s : State) : (clearFreq s).arg0 = s.arg0 := rfl
@[simp] theorem clearFreq_arg1 (s : State) : (clearFreq s).arg1 = s.arg1 := rfl
@[simp] theorem clearFreq_err (s : State) : (clearFreq s).err = s.err := rfl
@[simp] theorem clearFreq_fault (s : State) : (clearFreq s).fault = s.fault := rfl
@[simp] theorem clearFreq_tv (s : State) : (clearFreq s).tv = s.tv := rfl
@[simp] theorem clearFreq_eod (s : State) : (clearFreq s).eod = s.eod := rfl
@[simp] theorem clearFreq_syn (s : State) : (clearFreq s).syn = s.syn := rfl
@[simp] theorem clearFreq_talg (s : State) : (clearFreq s).talg = s.talg := rfl
@[simp] theorem clearFreq_errinfo0 (s : State) : (clearFreq s).errinfo0 = s.errinfo0 := rfl
@[simp] theorem clearFreq_errinfo1 (s : State) : (clearFreq s).errinfo1 = s.errinfo1 := rfl
@[simp] theorem clearFreq_len (s : State) : (clearFreq s).len = 0 := rfl
@[simp] theorem clearFreq_wtotal (s : State) : (clearFreq s).wtotal = s.wtotal := rfl
@[simp] theorem clearFreq_wacc (s : State) : (clearFreq s).wacc = s.wacc := rfl
@[simp] theorem clearFreq_wcnt (s : State) : (clearFreq s).wcnt = s.wcnt := rfl
@[simp] theorem clearFreq_racc (s : State) : (clearFreq s).racc = s.racc := rfl
@[simp] theorem clearFreq_rcnt (s : State) : (clearFreq s).rcnt = s.rcnt := rfl
@[simp] theorem clearFreq_ft (s : State) : (clearFreq s).ft = zeroTable := rfl
@[simp] theorem clearFreq_qt (s : State) : (clearFreq s).qt = s.qt := rfl
@[simp] theorem clearFreq_tree (s : State) : (clearFreq s).tree = s.tree := rfl
@[simp] theorem clearFreq_ct (s : State) : (clearFreq s).ct = s.ct := rfl
@[simp] theorem clearFreq_src (s : State) : (clearFreq s).src = s.src := rfl
@[simp] theorem clearFreq_snk (s : State) : (clearFreq s).snk = s.snk := rfl
@[simp] theorem clearFreq_cfg (s : State) : (clearFreq s).cfg = s.cfg := rfl
@[simp] theorem clearFreq_moves (s : State) : (clearFreq s).moves = s.moves := rfl
@[simp] theorem clearFreq_returned (s : State) : (clearFreq s).returned = s.returned := rfl
@[simp] theorem clearFreq_freeCount (s : State) : (clearFreq s).freeCount = s.freeCount := rfl

/-! ### countByte -/

@[simp] theorem countByte_arg0 (s : State) (b : Byte) : (countByte s b).arg0 = s.arg0 := rfl
@[simp] theorem countByte_arg1 (s : State) (b : Byte) : (countByte s b).arg1 = s.arg1 := rfl
@[simp] theorem countByte_err (s : State) (b : Byte) : (countByte s b).err = s.err := rfl
@[simp] theorem countByte_fault (s : State) (b : Byte) : (countByte s b).fault = s.fault := rfl
@[simp] theorem countByte_tv (s : State) (b : Byte) : (countByte s b).tv = s.tv := rfl
@[simp] theorem countByte_eod (s : State) (b : Byte) : (countByte s b).eod = s.eod := rfl
@[simp] theorem countByte_syn (s : State) (b : Byte) : (countByte s b).syn = s.syn := rfl
@[simp] theorem countByte_talg (s : State) (b : Byte) : (countByte s b).talg = s.talg := rfl
@[simp] theorem countByte_errinfo0 (s : State) (b : Byte) : (countByte s b).errinfo0 = s.errinfo0 := rfl
@[simp] theorem countByte_errinfo1 (s : State) (b : Byte) : (countByte s b).errinfo1 = s.errinfo1 := rfl
@[simp] theorem countByte_len (s : State) (b : Byte) : (countByte s b).len = s.len + 1 := rfl
@[simp] theorem countByte_wtotal (s : State) (b : Byte) : (countByte s b).wtotal = s.wtotal := rfl
@[simp] theorem countByte_wacc (s : State) (b : Byte) : (countByte s b).wacc = s.wacc := rfl
@[simp] theorem countByte_wcnt (s : State) (b : Byte) : (countByte s b).wcnt = s.wcnt := rfl
@[simp] theorem countByte_racc (s : State) (b : Byte) : (countByte s b).racc = s.racc := rfl
@[simp] theorem countByte_rcnt (s : State) (b : Byte) : (countByte s b).rcnt = s.rcnt := rfl
@[simp] theorem countByte_ft (s : State) (b : Byte) : (countByte s b).ft = tableSet s.ft b (tableGet s.ft b + 1) := rfl
@[simp] theorem countByte_qt (s : State) (b : Byte) : (countByte s b).qt = s.qt := rfl
@[simp] theorem countByte_tree (s : State) (b : Byte) : (countByte s b).tree = s.tree := rfl
@[simp] theorem countByte_ct (s : State) (b : Byte) : (countByte s b).ct = s.ct := rfl
@[simp] theorem countByte_src (s : State) (b : Byte) : (countByte s b).src = s.src := rfl
@[simp] theorem countByte_snk (s : State) (b : Byte) : (countByte s b).snk = s.snk := rfl
@[simp] theorem countByte_cfg (s : State) (b : Byte) : (countByte s b).cfg = s.cfg := rfl
@[simp] theorem countByte_moves (s : State) (b : Byte) : (countByte s b).moves = s.moves := rfl
@[simp] theorem countByte_returned (s : State) (b : Byte) : (countByte s b).returned = s.returned := rfl
@[simp] theorem countByte_freeCount (s : State) (b : Byte) : (countByte s b).freeCount = s.freeCount := rfl

/-! ### The result of an operation that may raise -/

/-- The state an operation ends in, with or without a fault. -/
def settled : Except State State → State
  | .ok s => s
  | .error s => s

@[simp] theorem settled_ok (s : State) : settled (.ok s) = s := rfl
@[simp] theorem settled_error (s : State) : settled (.error s) = s := rfl

theorem endCommand_eq (r : Except State State) : endCommand r = .next (settled r) := by cases r <;> rfl

end Sys2Proof.Machine
end

