-- ==== Sys2Proof/Laws/Tables.lean ====
section
/-! SUPPORT. Laws of the tables, the code tables, the weighted symbols and their order. -/

namespace Sys2Proof.Machine
open Sys2Proof

theorem byte_toNat_inj {a b : Byte} (h : a.toNat = b.toNat) : a = b := BitVec.eq_of_toNat_eq h

@[simp] theorem tableGet_tableSet_self (t : Table) (s : Byte) (v : Word) : tableGet (tableSet t s v) s = v := by
  simp [tableGet, tableSet]

theorem tableGet_tableSet_ne (t : Table) {s u : Byte} (v : Word) (h : u ≠ s) :
    tableGet (tableSet t s v) u = tableGet t u := by
  have : s.toNat ≠ u.toNat := fun e => h (byte_toNat_inj e).symm
  simp [tableGet, tableSet, this]

theorem tableGet_tableSet (t : Table) (s u : Byte) (v : Word) :
    tableGet (tableSet t s v) u = if u = s then v else tableGet t u := by
  split
  · next h => subst h; simp
  · next h => exact tableGet_tableSet_ne t v h

@[simp] theorem tableGet_zeroTable (s : Byte) : tableGet zeroTable s = 0 := by
  simp [tableGet, zeroTable]

theorem table_ext {t u : Table} (h : ∀ s, tableGet t s = tableGet u s) : t = u := by
  apply Vector.ext
  intro i hi
  have := h (BitVec.ofNat 8 i)
  simpa [tableGet, Nat.mod_eq_of_lt hi] using this

@[simp] theorem codeOf_codeSet_self (c : CodeTable) (s : Byte) (p : Code) : codeOf (codeSet c s p) s = p := by
  simp [codeOf, codeSet]

theorem codeOf_codeSet (c : CodeTable) (s u : Byte) (p : Code) :
    codeOf (codeSet c s p) u = if u = s then p else codeOf c u := by
  split
  · next h => subst h; simp
  · next h =>
    have : s.toNat ≠ u.toNat := fun e => h (byte_toNat_inj e).symm
    simp [codeOf, codeSet, this]

@[simp] theorem codeOf_noCodes (s : Byte) : codeOf noCodes s = [] := by
  simp [codeOf, noCodes]

@[simp] theorem mem_allSymbols (s : Byte) : s ∈ allSymbols := by
  simp only [allSymbols, List.mem_map, List.mem_range]
  exact ⟨s.toNat, s.isLt, by simp⟩

theorem nodup_allSymbols : allSymbols.Nodup := by
  refine List.Nodup.map_on ?_ List.nodup_range
  intro a ha b hb h
  simp only [List.mem_range] at ha hb
  have := congrArg BitVec.toNat h
  simpa [Nat.mod_eq_of_lt ha, Nat.mod_eq_of_lt hb] using this

@[simp] theorem length_allSymbols : allSymbols.length = 256 := by simp [allSymbols]

theorem mem_presentSymbols {t : Table} {x : Weighted} :
    x ∈ presentSymbols t ↔ x.weight = (tableGet t x.sym).toNat ∧ 0 < x.weight := by
  simp only [presentSymbols, List.mem_filter, List.mem_map, mem_allSymbols, true_and, decide_eq_true_eq]
  constructor
  · rintro ⟨⟨a, rfl⟩, h⟩; exact ⟨rfl, h⟩
  · rintro ⟨h1, h2⟩
    exact ⟨⟨x.sym, by cases x; simp_all⟩, h2⟩

theorem map_sym_presentSymbols (t : Table) :
    (presentSymbols t).map (·.sym) = allSymbols.filter (fun s => decide (0 < (tableGet t s).toNat)) := by
  unfold presentSymbols
  induction allSymbols with
  | nil => rfl
  | cons a l ih =>
    simp only [List.map_cons, List.filter_cons]
    split <;> simp_all

theorem nodup_presentSymbols (t : Table) : ((presentSymbols t).map (·.sym)).Nodup := by
  rw [map_sym_presentSymbols]; exact nodup_allSymbols.filter _

theorem presentSymbols_eq_nil {t : Table} : presentSymbols t = [] ↔ ∀ s, tableGet t s = 0 := by
  constructor
  · intro h s
    by_contra hs
    have : (⟨s, (tableGet t s).toNat⟩ : Weighted) ∈ presentSymbols t := by
      rw [mem_presentSymbols]
      refine ⟨rfl, ?_⟩
      simp only
      rcases Nat.eq_zero_or_pos (tableGet t s).toNat with h0 | h0
      · exact absurd (BitVec.eq_of_toNat_eq (by simpa using h0)) hs
      · exact h0
    rw [h] at this; simp at this
  · intro h
    rw [List.eq_nil_iff_forall_not_mem]
    intro x hx
    rw [mem_presentSymbols] at hx
    rw [h] at hx; simp at hx; omega

theorem ranksBefore_total (x y : Weighted) : ranksBefore x y = true ∨ ranksBefore y x = true := by
  simp only [ranksBefore, Bool.or_eq_true, Bool.and_eq_true, decide_eq_true_eq, beq_iff_eq]; omega

theorem ranksBefore_trans {x y z : Weighted} (h : ranksBefore x y = true) (h' : ranksBefore y z = true) :
    ranksBefore x z = true := by
  simp only [ranksBefore, Bool.or_eq_true, Bool.and_eq_true, decide_eq_true_eq, beq_iff_eq] at *; omega

theorem ranked_perm (l : List Weighted) : (ranked l).Perm l := List.perm_insertionSort _ _

theorem ranked_pairwise (l : List Weighted) : (ranked l).Pairwise (fun x y => ranksBefore x y = true) := by
  have : Std.Total (fun x y : Weighted => ranksBefore x y = true) := ⟨ranksBefore_total⟩
  have : IsTrans Weighted (fun x y => ranksBefore x y = true) := ⟨fun _ _ _ => ranksBefore_trans⟩
  exact List.pairwise_insertionSort _ _

theorem foldl_countByte : ∀ (l : List Byte) (s : State),
    (∀ x, tableGet (l.foldl countByte s).ft x = tableGet s.ft x + BitVec.ofNat 64 (l.count x)) ∧
    (l.foldl countByte s).len = s.len + BitVec.ofNat 64 l.length
  | [], s => by simp
  | b :: l, s => by
    obtain ⟨h1, h2⟩ := foldl_countByte l (countByte s b)
    refine ⟨fun x => ?_, ?_⟩
    · rw [List.foldl_cons, h1, countByte_ft, tableGet_tableSet, List.count_cons]
      by_cases h : x = b
      · subst h; simp [BitVec.ofNat_add]; ac_rfl
      · have : (b == x) = false := by simp [Ne.symm h]
        simp [h, this]
    · rw [List.foldl_cons, h2, countByte_len, List.length_cons, BitVec.ofNat_add]; ac_rfl

theorem allZero_iff (t : Table) : allZero t = true ↔ ∀ x, tableGet t x = 0 := by
  rw [allZero, List.isEmpty_iff, presentSymbols_eq_nil]

theorem presentCount_eq (f : Table) : (presentSymbols f).length = presentCount f := by
  unfold presentCount
  rw [← List.length_map (f := (·.sym)), map_sym_presentSymbols]
  congr 2
  funext s
  simp only [decide_eq_decide]
  constructor
  · intro h e; simp [e] at h
  · intro h; rcases Nat.eq_zero_or_pos (tableGet f s).toNat with h0 | h0
    · exact absurd (BitVec.eq_of_toNat_eq (by simpa using h0)) h
    · exact h0

theorem foldl_countByte_frame : ∀ (l : List Byte) (s : State), l.foldl countByte s = { s with
    ft := (l.foldl countByte s).ft, len := (l.foldl countByte s).len }
  | [], _ => rfl
  | b :: l, s => by rw [List.foldl_cons, foldl_countByte_frame l]; rfl

theorem countWord_toNat {n : Nat} (h : n < 2 ^ 64) : (countWord n).toNat = n := by
  simp only [countWord]; rw [if_pos h, BitVec.toNat_ofNat, Nat.mod_eq_of_lt h]

theorem bitsToNat_append (l m : List Bit) : bitsToNat (l ++ m) = bitsToNat l * 2 ^ m.length + bitsToNat m := by
  induction m using List.reverseRecOn with
  | nil => simp [bitsToNat]
  | append_singleton m b ih =>
    have : ∀ (k : List Bit) b, bitsToNat (k ++ [b]) = 2 * bitsToNat k + b.toNat := by intro k b; simp [bitsToNat]
    rw [← List.append_assoc, this, this, ih]; simp [pow_succ]; ring

theorem bitsToNat_lt (l : List Bit) : bitsToNat l < 2 ^ l.length := by
  induction l using List.reverseRecOn with
  | nil => simp [bitsToNat]
  | append_singleton m b ih =>
    have : ∀ (k : List Bit) b, bitsToNat (k ++ [b]) = 2 * bitsToNat k + b.toNat := by intro k b; simp [bitsToNat]
    rw [this]; cases b <;> simp [pow_succ] <;> omega

theorem testBit_bitsToNat : ∀ (l : List Bit) (i : Nat), i < l.length → (bitsToNat l).testBit (l.length - 1 - i) = l.getD i false
  | b :: l, i, hi => by
    have h := bitsToNat_append [b] l
    simp only [List.singleton_append] at h
    have hlt := bitsToNat_lt l
    have hb : bitsToNat [b] = b.toNat := by simp [bitsToNat]
    rw [h, hb]
    cases i with
    | zero =>
      simp only [List.length_cons, Nat.add_sub_cancel, Nat.sub_zero, List.getD_cons_zero]
      rw [Nat.mul_comm, Nat.testBit_two_pow_mul_add _ hlt]; cases b <;> simp
    | succ i =>
      simp only [List.length_cons] at hi
      rw [Nat.mul_comm, Nat.testBit_two_pow_mul_add _ hlt]
      have : (b :: l).length - 1 - (i + 1) = l.length - 1 - i := by simp; omega
      rw [this, if_pos (by omega), testBit_bitsToNat l i (by omega)]; simp

end Sys2Proof.Machine
end

