-- ==== Sys2Proof/Laws/Streams.lean ====
section
/-! SUPPORT. Laws of the queues, the bit writer and the bit reader: one that says everything each operation can do, and the views as bit streams. -/

namespace Sys2Proof.Machine
open Sys2Proof

set_option maxRecDepth 10000 in
theorem pend_step : ∀ (c : BitVec 4) (b : Bool) (a : BitVec 8), c.toNat ≤ 6 → a.toNat < 2 ^ c.toNat →
    (byteBits (a * 2 + bitByte b)).drop (8 - (c + 1).toNat) = (byteBits a).drop (8 - c.toNat) ++ [b] ∧
    (a * 2 + bitByte b).toNat < 2 ^ (c + 1).toNat ∧ (c+1).toNat = c.toNat + 1 := by decide +kernel

theorem pend_full : ∀ (b : Bool) (a : BitVec 8), a.toNat < 2 ^ 7 →
    byteBits (a * 2 + bitByte b) = (byteBits a).drop 1 ++ [b] := by decide +kernel

theorem flush_byte : ∀ (c : BitVec 4) (a : BitVec 8), c.toNat ≤ 7 → a.toNat < 2 ^ c.toNat →
    byteBits (BitVec.ofNat 8 (a.toNat * 2 ^ (8 - c.toNat))) =
      (byteBits a).drop (8 - c.toNat) ++ List.replicate (8 - c.toNat) false := by decide +kernel

theorem take_step : ∀ (c : BitVec 4) (a : BitVec 8), 1 ≤ c.toNat → c.toNat ≤ 8 → a.toNat % 2 ^ (8 - c.toNat) = 0 →
    (byteBits a).take c.toNat = a.getLsbD 7 :: (byteBits (a * 2)).take (c - 1).toNat ∧
    (a * 2).toNat % 2 ^ (8 - (c - 1).toNat) = 0 ∧ (c - 1).toNat = c.toNat - 1 := by decide +kernel

theorem hasRoom_of (cap : Option Nat) (n : Nat) : hasRoom cap n = true ↔ ∀ c, cap = some c → n < c := by
  cases cap <;> simp [hasRoom]

theorem snkPush_ok {b : Byte} {s : State} (h : SinkRoom s 1) : snkPush b s = .ok { s with snk := s.snk ++ [b] } := by
  have : hasRoom s.cfg.snkCap s.snk.length = true := by
    rw [hasRoom_of]; intro c hc; have := h c hc; omega
  simp [snkPush, this]

theorem snkPush_full {b : Byte} {s : State} {c : Nat} (hc : s.cfg.snkCap = some c) (h : c ≤ s.snk.length) :
    snkPush b s = .error (raise .sinkFull (countWord s.snk.length) (b.setWidth 64) s) := by
  have : hasRoom s.cfg.snkCap s.snk.length = false := by simp [hc, hasRoom, h]
  simp [snkPush, this]

/-- Everything SnkPush can do. -/
theorem snkPush_cases (b : Byte) (s : State) :
    (SinkRoom s 1 ∧ snkPush b s = .ok { s with snk := s.snk ++ [b] }) ∨
    ((∃ c, s.cfg.snkCap = some c ∧ c ≤ s.snk.length) ∧
      snkPush b s = .error (raise .sinkFull (countWord s.snk.length) (b.setWidth 64) s)) := by
  by_cases h : SinkRoom s 1
  · exact .inl ⟨h, snkPush_ok h⟩
  · simp only [SinkRoom, not_forall] at h
    obtain ⟨c, hc, h⟩ := h
    exact .inr ⟨⟨c, hc, by omega⟩, snkPush_full hc (by omega)⟩

theorem snkPushAll_ok : ∀ {l : List Byte} {s : State}, SinkRoom s l.length →
    snkPushAll l s = .ok { s with snk := s.snk ++ l }
  | [], s, _ => by simp [snkPushAll]
  | b :: l, s, h => by
    have h1 : SinkRoom s 1 := fun c hc => by have := h c hc; simp at this; omega
    simp only [snkPushAll, snkPush_ok h1]
    rw [snkPushAll_ok]
    · simp
    · intro c hc; have := h c hc; simp at this ⊢; omega

theorem writeBit_pending {b : Bit} {s : State} (h : WriterOk s) (hc : s.wcnt.toNat ≤ 6) :
    writeBit b s = .ok (shiftIn b s) ∧ WriterOk (shiftIn b s) ∧
      pendingBits (shiftIn b s) = pendingBits s ++ [b] := by
  obtain ⟨h1, h2, h3⟩ := pend_step s.wcnt b s.wacc hc h.small
  refine ⟨?_, ⟨by simp only [shiftIn, h3]; omega, h2⟩, h1⟩
  have : (shiftIn b s).wcnt ≠ 8 := fun e => by
    have := congrArg BitVec.toNat e; simp only [shiftIn, h3] at this; simp at this; omega
  exact if_neg this

theorem writeBit_emit {b : Bit} {s : State} (hc : s.wcnt = 7) :
    writeBit b s = snkPush (s.wacc * 2 + bitByte b) { s with wacc := 0, wcnt := 0, wtotal := s.wtotal + 1 } := by
  simp [writeBit, hc, shiftIn]

theorem byteBits_full {b : Bit} {s : State} (h : WriterOk s) (hc : s.wcnt = 7) :
    byteBits (s.wacc * 2 + bitByte b) = pendingBits s ++ [b] := by
  have := h.small
  rw [hc] at this
  simpa [pendingBits, hc] using pend_full b s.wacc (by simpa using this)

theorem length_pendingBits {s : State} (h : s.wcnt.toNat ≤ 8) : (pendingBits s).length = s.wcnt.toNat := by
  simp [pendingBits, byteBits]; omega

/-- With room in SNK a bit written is added at the end of what the writer holds. -/
theorem writeBit_ok {b : Bit} {s : State} (h : WriterOk s) (hr : SinkRoom s ((s.wcnt.toNat + 1) / 8)) :
    ∃ t, writeBit b s = .ok t ∧ WriterOk t ∧ sinkBits t = sinkBits s ++ [b] ∧
      8 * t.snk.length + t.wcnt.toNat = 8 * s.snk.length + s.wcnt.toNat + 1 ∧
      t = { s with wacc := t.wacc, wcnt := t.wcnt, snk := t.snk, wtotal := s.wtotal + 1 } := by
  have h7 := h.count
  by_cases hc : s.wcnt.toNat ≤ 6
  · obtain ⟨h1, h2, h3⟩ := writeBit_pending (b := b) h hc
    obtain ⟨_, _, h4⟩ := pend_step s.wcnt b s.wacc hc h.small
    refine ⟨_, h1, h2, ?_, ?_, rfl⟩
    · simp only [sinkBits, h3]; simp [shiftIn]
    · simp only [shiftIn, h4]; omega
  · have hc : s.wcnt = 7 := by apply BitVec.eq_of_toNat_eq; simp; omega
    rw [writeBit_emit hc, snkPush_ok]
    · refine ⟨_, rfl, ⟨by simp, by simp⟩, ?_, ?_, rfl⟩
      · simp only [sinkBits, List.flatMap_append, List.flatMap_cons, List.flatMap_nil, byteBits_full h hc]
        simp [pendingBits, byteBits]
      · simp [hc]; omega
    · intro c hc'; have := hr c hc'; simp [hc] at this ⊢; omega

theorem writeBits_ok : ∀ {l : List Bit} {s : State}, WriterOk s → SinkRoom s ((s.wcnt.toNat + l.length) / 8) →
    ∃ t, writeBits l s = .ok t ∧ WriterOk t ∧ sinkBits t = sinkBits s ++ l ∧
      8 * t.snk.length + t.wcnt.toNat = 8 * s.snk.length + s.wcnt.toNat + l.length ∧
      t = { s with wacc := t.wacc, wcnt := t.wcnt, snk := t.snk, wtotal := s.wtotal + BitVec.ofNat 64 l.length }
  | [], s, h, _ => ⟨s, rfl, h, by simp, by simp, by simp⟩
  | b :: l, s, h, hr => by
    obtain ⟨t, h1, h2, h3, h4, h5⟩ := writeBit_ok (b := b) h (fun c hc => by
      have := hr c hc; simp at this; omega)
    have hcfg : t.cfg = s.cfg := by rw [h5]
    obtain ⟨u, g1, g2, g3, g4, g5⟩ := writeBits_ok (l := l) h2 (fun c hc => by
      have := hr c (hcfg ▸ hc); have := h2.count; have := h.count
      simp at this ⊢; simp only [List.length_cons] at *; omega)
    refine ⟨u, by simp [writeBits, h1, g1], g2, by simp [g3, h3], by simp; omega, ?_⟩
    rw [g5, h5]
    simp only [List.length_cons, BitVec.ofNat_add]
    ac_rfl

theorem flush_ok {s : State} (h : WriterOk s) (hr : SinkRoom s ((s.wcnt.toNat + 7) / 8)) :
    ∃ t, flushWriter s = .ok t ∧ t.wacc = 0 ∧ t.wcnt = 0 ∧
      t.snk.flatMap byteBits = sinkBits s ++ List.replicate ((8 - s.wcnt.toNat) % 8) false ∧
      t.snk.length = s.snk.length + (s.wcnt.toNat + 7) / 8 ∧
      t = { s with wacc := 0, wcnt := 0, snk := t.snk } := by
  have h7 := h.count
  by_cases h0 : 0 < s.wcnt.toNat
  · simp only [flushWriter, h0, if_true]
    rw [snkPush_ok]
    · refine ⟨_, rfl, rfl, rfl, ?_, by simp; omega, rfl⟩
      have : (8 - s.wcnt.toNat) % 8 = 8 - s.wcnt.toNat := by omega
      simp only [sinkBits, List.flatMap_append, List.flatMap_cons, List.flatMap_nil, flush_byte _ _ h7 h.small, pendingBits, this]
      simp
    · intro c hc; have := hr c hc; simp at this ⊢; omega
  · have hz : s.wcnt = 0 := by apply BitVec.eq_of_toNat_eq; simp; omega
    have ha : s.wacc = 0 := by
      have := h.small; apply BitVec.eq_of_toNat_eq; simp [hz] at this ⊢; simp [this]
    refine ⟨s, by simp [flushWriter, h0], ha, hz, ?_, by simp [hz], ?_⟩
    · simp [sinkBits, hz, pendingBits, byteBits]
    · cases s; simp_all

/-- A reader that holds a bit delivers its top one. -/
theorem takeBit_spec {s : State} (h1 : 1 ≤ s.rcnt.toNat) (h8 : s.rcnt.toNat ≤ 8) (ha : s.racc.toNat % 2 ^ (8 - s.rcnt.toNat) = 0) :
    bufferedBits s = (takeBit s).1 :: bufferedBits (takeBit s).2 ∧ ReaderOk (takeBit s).2 := by
  obtain ⟨g1, g2, g3⟩ := take_step s.rcnt s.racc h1 h8 ha
  exact ⟨g1, ⟨by simp only [takeBit, g3]; omega, g2⟩⟩

theorem readBit_cons {s : State} {b : Bit} {rest : List Bit} (h : ReaderOk s) (hs : sourceBits s = b :: rest) :
    ∃ t, readBit s = (some b, t) ∧ ReaderOk t ∧ sourceBits t = rest ∧
      t = { s with racc := t.racc, rcnt := t.rcnt, src := t.src, eod := false } := by
  by_cases h0 : s.rcnt = 0
  · have hb : bufferedBits s = [] := by simp [bufferedBits, h0]
    cases hsrc : s.src with
    | nil => simp [sourceBits, hb, hsrc] at hs
    | cons x xs =>
      have := takeBit_spec (s := { s with src := xs, racc := x, rcnt := 8 }) (by simp) (by simp) (by simp [Nat.mod_one])
      obtain ⟨g1, g2⟩ := this
      simp only [sourceBits, hb, hsrc, List.flatMap_cons, List.nil_append] at hs
      have g0 : bufferedBits { s with src := xs, racc := x, rcnt := 8 } = byteBits x := by simp [bufferedBits, byteBits]
      rw [← g0, g1] at hs
      simp only [List.cons_append, List.cons.injEq] at hs
      refine ⟨_, by simp only [readBit, h0, if_true, hsrc]; rw [hs.1], g2, ?_, rfl⟩
      simp only [sourceBits]; exact hs.2
  · have h1 : 1 ≤ s.rcnt.toNat := by
      rcases Nat.eq_zero_or_pos s.rcnt.toNat with h | h
      · exact absurd (BitVec.eq_of_toNat_eq (by simpa using h)) h0
      · exact h
    obtain ⟨g1, g2⟩ := takeBit_spec h1 (by have := h.count; omega) h.aligned
    simp only [sourceBits, g1, List.cons_append, List.cons.injEq] at hs
    exact ⟨_, by simp only [readBit, h0, if_false]; rw [hs.1], g2, hs.2, rfl⟩

theorem readBit_nil {s : State} (hs : sourceBits s = []) : readBit s = (none, { s with eod := true }) ∧ s.rcnt = 0 ∧ s.src = [] := by
  simp only [sourceBits, List.append_eq_nil_iff, bufferedBits] at hs
  have h0 : s.rcnt = 0 := by
    have := congrArg List.length hs.1
    apply BitVec.eq_of_toNat_eq
    simp [byteBits] at this ⊢
    simpa using this
  have hs : s.src = [] := by
    have := hs.2
    cases hx : s.src with
    | nil => rfl
    | cons x xs => simp [hx, byteBits] at this
  simp [readBit, h0, hs]

/-- SNK is within its capacity. -/
def SinkCapOk (s : State) : Prop := ∀ c, s.cfg.snkCap = some c → s.snk.length ≤ c

/-- SNK is at its capacity (or beyond it, in a state no run reaches). -/
def SinkFullAt (s : State) : Prop := ∃ c, s.cfg.snkCap = some c ∧ c ≤ s.snk.length

/-- Everything `snkPush` can do. -/
theorem snkPush_spec (b : Byte) (s : State) :
    match snkPush b s with
    | .ok t => t = { s with snk := s.snk ++ [b] } ∧ SinkRoom s 1
    | .error t => t = raise .sinkFull (countWord s.snk.length) (b.setWidth 64) s ∧ SinkFullAt s := by
  rcases snkPush_cases b s with ⟨h, e⟩ | ⟨h, e⟩ <;> rw [e]
  · exact ⟨rfl, h⟩
  · exact ⟨rfl, h⟩

/-- Everything `snkPushAll` can do. -/
theorem snkPushAll_spec : ∀ (l : List Byte) (s : State),
    match snkPushAll l s with
    | .ok t => t = { s with snk := s.snk ++ l } ∧ (SinkCapOk s → SinkCapOk t)
    | .error t => ∃ sent b more, l = sent ++ b :: more ∧ SinkFullAt { s with snk := s.snk ++ sent } ∧
        t = raise .sinkFull (countWord (s.snk ++ sent).length) (b.setWidth 64) { s with snk := s.snk ++ sent } ∧
        (SinkCapOk s → SinkCapOk t)
  | [], s => ⟨by simp, id⟩
  | b :: l, s => by
    rcases snkPush_cases b s with ⟨h, e⟩ | ⟨h, e⟩
    · have ih := snkPushAll_spec l { s with snk := s.snk ++ [b] }
      have hc : SinkCapOk { s with snk := s.snk ++ [b] } := fun c hc => by have := h c hc; simpa using this
      simp only [snkPushAll, e]
      cases hr : snkPushAll l { s with snk := s.snk ++ [b] } with
      | ok t =>
        rw [hr] at ih
        exact ⟨by rw [ih.1]; simp, fun _ => ih.2 hc⟩
      | error t =>
        rw [hr] at ih
        obtain ⟨sent, b', more, h1, h2, h3, h4⟩ := ih
        exact ⟨b :: sent, b', more, by simp [h1], by simpa [SinkFullAt] using h2, by simpa using h3, fun _ => h4 hc⟩
    · simp only [snkPushAll, e]
      exact ⟨[], b, l, rfl, by simpa [SinkFullAt] using h, by simp, id⟩

theorem writeBit_writerOk {b : Bit} {s t : State} (h : writeBit b s = .ok t) (hw : WriterOk s) : WriterOk t := by
  have h7 := hw.count
  by_cases hc : s.wcnt.toNat ≤ 6
  · obtain ⟨h1, h2, _⟩ := writeBit_pending (b := b) hw hc
    rw [h1] at h; cases h; exact h2
  · have hc : s.wcnt = 7 := by apply BitVec.eq_of_toNat_eq; simp; omega
    rw [writeBit_emit hc] at h
    have := snkPush_spec (s.wacc * 2 + bitByte b) { s with wacc := 0, wcnt := 0, wtotal := s.wtotal + 1 }
    rw [h] at this
    rw [this.1]; exact ⟨by simp, by simp⟩

/-- Everything `writeBit` can do. -/
theorem writeBit_spec (b : Bit) (s : State) :
    match writeBit b s with
    | .ok t => t = { s with wacc := t.wacc, wcnt := t.wcnt, wtotal := s.wtotal + 1, snk := t.snk } ∧
        (WriterOk s → WriterOk t) ∧ (SinkCapOk s → SinkCapOk t)
    | .error t => t = { s with
          wacc := 0, wcnt := 0, wtotal := s.wtotal + 1, err := 10, fault := true,
          errinfo0 := countWord t.snk.length, errinfo1 := t.errinfo1 } ∧ SinkFullAt t := by
  cases h : writeBit b s with
  | ok t =>
    refine ⟨?_, writeBit_writerOk h, ?_⟩ <;> unfold writeBit at h <;> simp only at h <;> split at h
    · have := snkPush_spec (shiftIn b s).wacc { shiftIn b s with wacc := 0, wcnt := 0 }
      rw [h] at this; rw [this.1]; rfl
    · cases h; rfl
    · have := snkPush_spec (shiftIn b s).wacc { shiftIn b s with wacc := 0, wcnt := 0 }
      rw [h] at this; rw [this.1]
      exact fun _ c hc => by have := this.2 c hc; simpa using this
    · cases h; exact id
  | error t =>
    unfold writeBit at h; simp only at h; split at h
    · have := snkPush_spec (shiftIn b s).wacc { shiftIn b s with wacc := 0, wcnt := 0 }
      rw [h] at this; rw [this.1]
      exact ⟨rfl, this.2⟩
    · cases h

/-- Everything `writeBits` can do. -/
theorem writeBits_spec : ∀ (l : List Bit) (s : State),
    match writeBits l s with
    | .ok t => t = { s with wacc := t.wacc, wcnt := t.wcnt, wtotal := t.wtotal, snk := t.snk } ∧
        (WriterOk s → WriterOk t) ∧ (SinkCapOk s → SinkCapOk t)
    | .error t => t = { s with
          wacc := 0, wcnt := 0, wtotal := t.wtotal, snk := t.snk, err := 10, fault := true,
          errinfo0 := countWord t.snk.length, errinfo1 := t.errinfo1 } ∧ SinkFullAt t ∧ (SinkCapOk s → SinkCapOk t)
  | [], s => ⟨rfl, id, id⟩
  | b :: l, s => by
    have h1 := writeBit_spec b s
    cases hr : writeBit b s with
    | error t =>
      rw [hr] at h1
      simp only [writeBits, hr]
      have e : t.snk = s.snk := by rw [h1.1]
      have e' : t.wtotal = s.wtotal + 1 := by rw [h1.1]
      refine ⟨?_, h1.2, fun h => ?_⟩
      · rw [e, e']; simpa [e] using h1.1
      · rw [h1.1]; exact h
    | ok t =>
      rw [hr] at h1
      have ih := writeBits_spec l t
      simp only [writeBits, hr]
      cases hr2 : writeBits l t with
      | ok u => rw [hr2] at ih; exact ⟨by rw [ih.1, h1.1], fun h => ih.2.1 (h1.2.1 h), fun h => ih.2.2 (h1.2.2 h)⟩
      | error u => rw [hr2] at ih; exact ⟨by rw [ih.1, h1.1], ih.2.1, fun h => ih.2.2 (h1.2.2 h)⟩

/-- Everything `flushWriter` can do. -/
theorem flushWriter_spec (s : State) :
    match flushWriter s with
    | .ok t => t = { s with wacc := t.wacc, wcnt := t.wcnt, snk := t.snk } ∧
        (WriterOk s → WriterOk t) ∧ (SinkCapOk s → SinkCapOk t)
    | .error t => t = { s with
          wacc := 0, wcnt := 0, err := 10, fault := true,
          errinfo0 := countWord t.snk.length, errinfo1 := t.errinfo1 } ∧ SinkFullAt t := by
  by_cases h0 : 0 < s.wcnt.toNat
  · have e0 : flushWriter s = snkPush (BitVec.ofNat 8 (s.wacc.toNat * 2 ^ (8 - s.wcnt.toNat)))
        { s with wacc := 0, wcnt := 0 } := if_pos h0
    rw [e0]
    have := snkPush_spec (BitVec.ofNat 8 (s.wacc.toNat * 2 ^ (8 - s.wcnt.toNat))) { s with wacc := 0, wcnt := 0 }
    cases hr : snkPush (BitVec.ofNat 8 (s.wacc.toNat * 2 ^ (8 - s.wcnt.toNat))) { s with wacc := 0, wcnt := 0 } with
    | ok t =>
      rw [hr] at this
      refine ⟨by rw [this.1], fun _ => by rw [this.1]; exact ⟨by simp, by simp⟩, fun _ c hc => ?_⟩
      rw [this.1] at hc ⊢; have := this.2 c hc; simpa using this
    | error t => rw [hr] at this; obtain ⟨e, f⟩ := this; subst e; exact ⟨rfl, f⟩
  · have e0 : flushWriter s = .ok s := if_neg h0
    rw [e0]
    exact ⟨rfl, id, id⟩

/-- Everything `readBit` can do. -/
theorem readBit_spec (s : State) :
    (readBit s).2 = { s with
      racc := (readBit s).2.racc, rcnt := (readBit s).2.rcnt, src := (readBit s).2.src,
      eod := (readBit s).2.eod } ∧ (readBit s).2.src.length ≤ s.src.length ∧ (ReaderOk s → ReaderOk (readBit s).2) := by
  by_cases h0 : s.rcnt = 0
  · cases hsrc : s.src with
    | nil =>
      have e : readBit s = (none, { s with eod := true }) := by simp [readBit, h0, hsrc]
      rw [e]; exact ⟨rfl, by simp [hsrc], fun h => ⟨h.count, h.aligned⟩⟩
    | cons x xs =>
      have e : readBit s = (some (takeBit { s with src := xs, racc := x, rcnt := 8 }).1,
        (takeBit { s with src := xs, racc := x, rcnt := 8 }).2) := by simp [readBit, h0, hsrc]
      rw [e]
      exact ⟨rfl, by simp, fun _ => (takeBit_spec (s := { s with src := xs, racc := x, rcnt := 8 }) (by simp) (by simp) (by simp [Nat.mod_one])).2⟩
  · have e : readBit s = (some (takeBit s).1, (takeBit s).2) := by simp only [readBit, h0, if_false]
    rw [e]
    refine ⟨rfl, by simp, fun h => (takeBit_spec ?_ ?_ h.aligned).2⟩
    · rcases Nat.eq_zero_or_pos s.rcnt.toNat with h | h
      · exact absurd (BitVec.eq_of_toNat_eq (by simpa using h)) h0
      · exact h
    · have := h.count; omega

/-- What the reading of bits leaves as it was. -/
structure ReadFrom (s t : State) : Prop where
  frame : t = { s with racc := t.racc, rcnt := t.rcnt, src := t.src, eod := t.eod }
  shorter : t.src.length ≤ s.src.length
  reader : ReaderOk s → ReaderOk t

theorem readFrom_refl (s : State) : ReadFrom s s := ⟨by cases s; simp, le_refl _, id⟩

theorem ReadFrom.trans {s t u : State} (h : ReadFrom s t) (h' : ReadFrom t u) : ReadFrom s u :=
  ⟨by rw [h'.frame, h.frame], le_trans h'.shorter h.shorter, fun r => h'.reader (h.reader r)⟩

theorem ReadFrom.raised {s t : State} (h : ReadFrom s t) (k : FaultKind) (e0 e1 : Word) :
    raise k e0 e1 t = { s with
      racc := t.racc, rcnt := t.rcnt, src := t.src, eod := t.eod, snk := t.snk,
      err := faultCode k, fault := true, errinfo0 := e0, errinfo1 := e1 } := by
  have := h.frame
  cases t; cases s; simp_all [raise]

theorem ReadFrom.sinkCapOk {s t : State} (h : ReadFrom s t) (hs : SinkCapOk s) : SinkCapOk t := by
  rw [h.frame]; exact hs

theorem readFrom_readBit (s : State) : ReadFrom s (readBit s).2 :=
  ⟨(readBit_spec s).1, (readBit_spec s).2.1, (readBit_spec s).2.2⟩

theorem snkPushAll_stop : ∀ (sent : List Byte) (b : Byte) (more : List Byte) (s : State), s.cfg.snkCap = some (s.snk.length + sent.length) →
    snkPushAll (sent ++ b :: more) s = .error (raise .sinkFull (countWord (s.snk.length + sent.length)) (b.setWidth 64) { s with snk := s.snk ++ sent })
  | [], b, more, s, h => by simp [snkPushAll, snkPush_full (b := b) h (by simp)]
  | x :: sent, b, more, s, h => by
    have : SinkRoom s 1 := fun c hc => by rw [h] at hc; cases hc; simp
    simp only [List.cons_append, snkPushAll, snkPush_ok this]
    rw [snkPushAll_stop sent b more _ (by simp [h]; omega)]
    have e : s.snk.length + 1 + sent.length = s.snk.length + (sent.length + 1) := by omega
    simp [e]

theorem bit_of {b : Byte} (h : b.toNat ≤ 1) : (b = 0 ∧ b.getLsbD 0 = false) ∨ (b = 1 ∧ b.getLsbD 0 = true) := by
  have : b.toNat = 0 ∨ b.toNat = 1 := by omega
  rcases this with h | h
  · left; have : b = 0 := BitVec.eq_of_toNat_eq (by simpa using h)
    subst this; simp
  · right; have : b = 1 := BitVec.eq_of_toNat_eq (by simpa using h)
    subst this; simp

theorem top_bit : ∀ a : Byte, (bitByte (a.getLsbD 7)).toNat = a.toNat / 128 := by decide +kernel

theorem byteBits_length (b : Byte) : (byteBits b).length = 8 := rfl

theorem byteBits_getD (b : Byte) (i : Nat) (h : i < 8) : (byteBits b).getD i false = b.getLsbD (7 - i) := by
  have : i = 0 ∨ i = 1 ∨ i = 2 ∨ i = 3 ∨ i = 4 ∨ i = 5 ∨ i = 6 ∨ i = 7 := by omega
  rcases this with rfl | rfl | rfl | rfl | rfl | rfl | rfl | rfl <;> rfl

theorem flatMap_byteBits_getD : ∀ (l : List Byte) (j i : Nat), j < l.length → i < 8 →
    (l.flatMap byteBits).getD (8 * j + i) false = (l.getD j 0).getLsbD (7 - i)
  | b :: l, 0, i, _, hi => by
    rw [List.flatMap_cons, List.getD_append _ _ _ _ (by simp [byteBits_length]; omega)]
    simpa using byteBits_getD b i hi
  | b :: l, j + 1, i, hj, hi => by
    rw [List.flatMap_cons, List.getD_append_right _ _ _ _ (by simp [byteBits_length]; omega)]
    have : 8 * (j + 1) + i - (byteBits b).length = 8 * j + i := by simp [byteBits_length]; omega
    rw [this, flatMap_byteBits_getD l j i (by simpa using hj) hi]; simp

theorem readMany_bits : ∀ (bits : List Bit) (s : State) (k : Nat), ReaderOk s → sourceBits s = bits →
    readMany (bits.length + k) s = bits.map some ++ List.replicate k none
  | [], s, k, hr, hs => by
    induction k with
    | zero => rfl
    | succ k ih =>
      have h := (readBit_nil hs).1
      have : ∀ k, readMany k { s with eod := true } = List.replicate k none := by
        intro k
        induction k with
        | zero => rfl
        | succ k ih =>
          have h := (readBit_nil (s := { s with eod := true }) hs).1
          simp only [readMany, h]
          rw [ih]; rfl
      simp only [List.length_nil, readMany, h, List.map_nil, List.nil_append, this]; simp [List.replicate_succ]
  | b :: bits, s, k, hr, hs => by
    obtain ⟨t, h1, h2, h3, h4⟩ := readBit_cons hr hs
    have : (b :: bits).length + k = (bits.length + k) + 1 := by simp; omega
    rw [this]
    simp only [readMany, h1]
    rw [readMany_bits bits t k h2 h3]; rfl

theorem length_flatMap_byteBits (l : List Byte) : (l.flatMap byteBits).length = 8 * l.length := by
  induction l with
  | nil => rfl
  | cons b l ih => simp [byteBits_length, ih]; omega

theorem writerOk_zero {s : State} (h : s.wcnt = 0) (h' : s.wacc = 0) : WriterOk s := ⟨by simp [h], by simp [h, h']⟩

theorem readerOk_zero {s : State} (h : s.rcnt = 0) (h' : s.racc = 0) : ReaderOk s := ⟨by simp [h], by simp [h, h']⟩

theorem sourceBits_zero {s : State} (h : s.rcnt = 0) : sourceBits s = s.src.flatMap byteBits := by
  simp [sourceBits, bufferedBits, h]

theorem sinkBits_zero {s : State} (h : s.wcnt = 0) : sinkBits s = s.snk.flatMap byteBits := by
  simp [sinkBits, pendingBits, h, byteBits]

theorem writeBits_prefix : ∀ (l : List Bit) (s t : State), writeBits l s = .ok t → ∃ m, t.snk = s.snk ++ m
  | [], s, t, h => by cases h; exact ⟨[], by simp⟩
  | b :: l, s, t, h => by
    have h1 : ∀ u, writeBit b s = .ok u → ∃ m, u.snk = s.snk ++ m := by
      intro u hu
      unfold writeBit at hu; simp only at hu; split at hu
      · have := snkPush_spec (shiftIn b s).wacc { shiftIn b s with wacc := 0, wcnt := 0 }
        rw [hu] at this; rw [this.1]; exact ⟨_, rfl⟩
      · cases hu; exact ⟨[], by simp⟩
    simp only [writeBits] at h
    cases hw : writeBit b s with
    | error u => rw [hw] at h; cases h
    | ok u =>
      rw [hw] at h
      obtain ⟨m, hm⟩ := h1 u hw
      obtain ⟨m', hm'⟩ := writeBits_prefix l u t h
      exact ⟨m ++ m', by rw [hm', hm]; simp⟩

theorem writeBits_append : ∀ (a b : List Bit) (s t : State), writeBits a s = .ok t → writeBits (a ++ b) s = writeBits b t
  | [], b, s, t, h => by cases h; rfl
  | x :: a, b, s, t, h => by
    simp only [writeBits, List.cons_append] at h ⊢
    cases hw : writeBit x s with
    | error u => rw [hw] at h; cases h
    | ok u => rw [hw] at h; exact writeBits_append a b u t h

/-- Writing stops at the bit that completes the first byte SNK has no room for, and that byte is lost. -/
theorem writeBits_full {l : List Bit} {s : State} {n : Nat} (h : WriterOk s) (hc : s.cfg.snkCap = some (s.snk.length + n))
    (hl : 8 * (n + 1) ≤ s.wcnt.toNat + l.length) :
    ∃ sent lost, sent.length = n ∧ (sent ++ [lost]).flatMap byteBits = (pendingBits s ++ l).take (8 * (n + 1)) ∧
      writeBits l s = .error (raise .sinkFull (countWord (s.snk.length + n)) (lost.setWidth 64)
        { s with wacc := 0, wcnt := 0, snk := s.snk ++ sent, wtotal := s.wtotal + BitVec.ofNat 64 (8 * (n + 1) - s.wcnt.toNat) }) := by
  have h7 := h.count
  obtain ⟨a, b, c, rfl, ha⟩ : ∃ a b c, l = a ++ b :: c ∧ s.wcnt.toNat + a.length = 8 * n + 7 := by
    refine ⟨l.take (8 * n + 7 - s.wcnt.toNat), l[8 * n + 7 - s.wcnt.toNat]'(by omega), l.drop (8 * n + 7 - s.wcnt.toNat + 1), ?_, ?_⟩
    · rw [← List.drop_eq_getElem_cons, List.take_append_drop]
    · rw [List.length_take]; omega
  obtain ⟨t, h1, h2, h3, h4, h5⟩ := writeBits_ok (l := a) h (fun c' hc' => by rw [hc] at hc'; cases hc'; omega)
  obtain ⟨sent, hs⟩ := writeBits_prefix _ _ _ h1
  have ht7 := h2.count
  have hsl : sent.length = n := by rw [hs] at h4; simp at h4; omega
  have hw7 : t.wcnt = 7 := BitVec.eq_of_toNat_eq (by rw [hs] at h4; simp at h4 ⊢; omega)
  have hcfg : t.cfg = s.cfg := by rw [h5]
  have hbb := byteBits_full (b := b) h2 hw7
  refine ⟨sent, t.wacc * 2 + bitByte b, hsl, ?_, ?_⟩
  · have e : (sent.flatMap byteBits ++ pendingBits t) = pendingBits s ++ a := by
      simp only [sinkBits, hs, List.flatMap_append, List.append_assoc] at h3
      exact List.append_cancel_left h3
    rw [List.flatMap_append, List.flatMap_singleton, hbb, ← List.append_assoc, e]
    have : pendingBits s ++ (a ++ b :: c) = (pendingBits s ++ a ++ [b]) ++ c := by simp
    rw [this, List.take_left']
    simp [length_pendingBits (show s.wcnt.toNat ≤ 8 by omega)]; omega
  · rw [writeBits_append _ _ _ _ h1]
    simp only [writeBits, writeBit_emit hw7]
    rw [snkPush_full (c := s.snk.length + n) (by simp only; rw [hcfg, hc]) (by simp [hs, hsl])]
    have hwt : s.wtotal + BitVec.ofNat 64 a.length + 1 = s.wtotal + BitVec.ofNat 64 (8 * (n + 1) - s.wcnt.toNat) := by
      have : 8 * (n + 1) - s.wcnt.toNat = a.length + 1 := by omega
      rw [this, BitVec.ofNat_add, ← BitVec.add_assoc]; rfl
    rw [← hwt, h5]; simp [hs, hsl]

end Sys2Proof.Machine
end

