-- ==== Sys2Proof/Laws/Codes.lean ====
section
/-! SUPPORT. Laws of trees and their codes. -/

namespace Sys2Proof.Machine
open Sys2Proof

theorem syms_pos : ∀ t : CodeTree, 0 < (syms t).length
  | .leaf _ => by simp [syms]
  | .node l r => by have := syms_pos l; simp [syms]; omega

theorem codeOf_walkCodes_notMem : ∀ (t : CodeTree) (p : Code) (c : CodeTable) {s : Byte}, s ∉ syms t →
    codeOf (walkCodes t p c) s = codeOf c s
  | .leaf x, p, c, s, h => by
    simp only [syms, List.mem_singleton] at h
    simp [walkCodes, codeOf_codeSet, h]
  | .node l r, p, c, s, h => by
    simp only [syms, List.mem_append, not_or] at h
    rw [walkCodes, codeOf_walkCodes_notMem r _ _ h.2, codeOf_walkCodes_notMem l _ _ h.1]

theorem codeOf_walkCodes_mem : ∀ (t : CodeTree) (p : Code) (c : CodeTable) {s : Byte}, Proper t → s ∈ syms t →
    ∃ q, codeOf (walkCodes t p c) s = p ++ q ∧ leafAt t q = some s
  | .leaf x, p, c, s, _, h => by
    simp only [syms, List.mem_singleton] at h
    subst h
    exact ⟨[], by simp [walkCodes], rfl⟩
  | .node l r, p, c, s, hp, h => by
    simp only [Proper, syms] at hp
    rw [List.nodup_append] at hp
    simp only [syms, List.mem_append] at h
    by_cases hr : s ∈ syms r
    · obtain ⟨q, h1, h2⟩ := codeOf_walkCodes_mem r (p ++ [true]) (walkCodes l (p ++ [false]) c) hp.2.1 hr
      exact ⟨true :: q, by simp [walkCodes, h1], by simp [leafAt, h2]⟩
    · have hl := h.resolve_right hr
      obtain ⟨q, h1, h2⟩ := codeOf_walkCodes_mem l (p ++ [false]) c hp.1 hl
      exact ⟨false :: q, by simp [walkCodes, codeOf_walkCodes_notMem r _ _ hr, h1], by simp [leafAt, h2]⟩

theorem leafAt_unique : ∀ (t : CodeTree) (q r : List Bit) {x y : Byte}, leafAt t q = some x → leafAt t (q ++ r) = some y →
    r = [] ∧ x = y
  | .leaf a, [], [], _, _, h, h' => by simp_all [leafAt]
  | .leaf a, [], _ :: _, _, _, _, h' => by simp [leafAt] at h'
  | .leaf a, _ :: _, _, _, _, h, _ => by simp [leafAt] at h
  | .node l r', [], _, _, _, h, _ => by simp [leafAt] at h
  | .node l r', b :: q, r, x, y, h, h' => by
    cases b
    · exact leafAt_unique l q r (by simpa [leafAt] using h) (by simpa [leafAt] using h')
    · exact leafAt_unique r' q r (by simpa [leafAt] using h) (by simpa [leafAt] using h')

theorem leafAt_length : ∀ (t : CodeTree) (q : List Bit) {x : Byte}, leafAt t q = some x → q.length < (syms t).length
  | .leaf a, [], _, _ => by simp [syms]
  | .leaf a, _ :: _, _, h => by simp [leafAt] at h
  | .node l r, [], _, h => by simp [leafAt] at h
  | .node l r, b :: q, x, h => by
    have h1 := syms_pos l
    have h2 := syms_pos r
    cases b
    · have := leafAt_length l q (by simpa [leafAt] using h); simp [syms]; omega
    · have := leafAt_length r q (by simpa [leafAt] using h); simp [syms]; omega

theorem leafAt_mem : ∀ (t : CodeTree) (q : List Bit) {x : Byte}, leafAt t q = some x → x ∈ syms t
  | .leaf a, [], _, h => by simp_all [leafAt, syms]
  | .leaf a, _ :: _, _, h => by simp [leafAt] at h
  | .node l r, [], _, h => by simp [leafAt] at h
  | .node l r, b :: q, x, h => by
    cases b
    · simp [syms, leafAt_mem l q (by simpa [leafAt] using h)]
    · simp [syms, leafAt_mem r q (by simpa [leafAt] using h)]

theorem codes_notMem {t : CodeTree} {s : Byte} (h : s ∉ syms t) : codeOf (codes t) s = [] := by
  cases t with
  | leaf x => simp [syms] at h; simp [codes, codeOf_codeSet, h]
  | node l r => rw [codes, codeOf_walkCodes_notMem _ _ _ h]; simp

theorem codes_node_mem {l r : CodeTree} {s : Byte} (hp : Proper (.node l r)) (h : s ∈ syms (.node l r)) :
    leafAt (.node l r) (codeOf (codes (.node l r)) s) = some s := by
  obtain ⟨q, h1, h2⟩ := codeOf_walkCodes_mem (.node l r) [] noCodes hp h
  rw [codes, h1]; simpa using h2

theorem length_syms_le {t : CodeTree} (h : Proper t) : (syms t).length ≤ 256 := by
  have : (syms t).Subperm allSymbols := h.subperm (fun x _ => mem_allSymbols x)
  simpa using this.length_le

theorem codes_length {t : CodeTree} {s : Byte} (hp : Proper t) (h : s ∈ syms t) :
    1 ≤ (codeOf (codes t) s).length ∧ (codeOf (codes t) s).length ≤ 255 := by
  cases t with
  | leaf x => simp [syms] at h; subst h; simp [codes]
  | node l r =>
    have h1 := codes_node_mem hp h
    have h2 := leafAt_length _ _ h1
    have h3 := length_syms_le hp
    constructor
    · rcases hc : codeOf (codes (.node l r)) s with _ | ⟨b, q⟩
      · rw [hc] at h1; simp [leafAt] at h1
      · simp
    · omega

theorem leaf_iff (t : CodeTree) : (∃ x, t = .leaf x) ↔ (syms t).length ≤ 1 := by
  cases t with
  | leaf x => simp [syms]
  | node l r => have := syms_pos l; have := syms_pos r; simp [syms]; omega

theorem leafAt_codes {l r : CodeTree} (hp : Proper (.node l r)) {q : List Bit} {x : Byte} (h : leafAt (.node l r) q = some x) :
    codeOf (codes (.node l r)) x = q := by
  have hm := leafAt_mem _ _ h
  have h2 := codes_node_mem hp hm
  -- both paths lead to the same leaf of a proper tree
  have uniq : ∀ (t : CodeTree) (p q : List Bit), Proper t → leafAt t p = some x → leafAt t q = some x → p = q := by
    intro t
    induction t with
    | leaf a => intro p q _ hp hq; cases p <;> cases q <;> simp_all [leafAt]
    | node l r ihl ihr =>
      intro p q hpr hp hq
      simp only [Proper, syms, List.nodup_append] at hpr
      cases p with
      | nil => simp [leafAt] at hp
      | cons b p =>
        cases q with
        | nil => simp [leafAt] at hq
        | cons c q =>
          cases b <;> cases c <;> simp [leafAt] at hp hq
          · rw [ihl p q hpr.1 hp hq]
          · exact absurd rfl (hpr.2.2 x (leafAt_mem _ _ hp) x (leafAt_mem _ _ hq))
          · exact absurd rfl (hpr.2.2 x (leafAt_mem _ _ hq) x (leafAt_mem _ _ hp))
          · rw [ihr p q hpr.2.1 hp hq]
  exact uniq _ _ _ hp h2 h

theorem code_ne_nil {tree : CodeTree} (hp : Proper tree) {x : Byte} (h : x ∈ syms tree) : codeOf (codes tree) x ≠ [] := by
  intro e; have := (codes_length hp h).1; rw [e] at this; simp at this

end Sys2Proof.Machine
end

