-- ==== Sys2Proof/Laws/Builders.lean ====
section
/-! SUPPORT. Laws of the two tree builders. -/

namespace Sys2Proof.Machine
open Sys2Proof

theorem enqueue_perm (x : QNode) (q : List QNode) : (enqueue x q).Perm (x :: q) := List.perm_orderedInsert _ _ _

theorem mergeLoop_syms : ∀ (fuel : Nat) (q : List QNode), q ≠ [] → q.length ≤ fuel + 1 →
    (syms (mergeLoop fuel q)).Perm (q.flatMap fun x => syms x.tree)
  | _, [], h, _ => absurd rfl h
  | fuel, [x], _, _ => by cases fuel <;> simp [mergeLoop]
  | 0, _ :: _ :: _, _, h => by simp at h
  | fuel + 1, a :: b :: q, _, h => by
    have hp := enqueue_perm (mergeNodes a b) q
    have := mergeLoop_syms fuel (enqueue (mergeNodes a b) q)
      (by intro e; have := hp.length_eq; simp [e] at this)
      (by have := hp.length_eq; simp at this h; omega)
    refine this.trans ((hp.flatMap_right _).trans ?_)
    simp [mergeNodes, syms]

theorem leafQueue_perm (l : List Weighted) : (leafQueue l).Perm (l.map fun x => (⟨x.weight, x.sym, .leaf x.sym⟩ : QNode)) :=
  List.perm_insertionSort _ _

theorem leaves_ne_nil (t : Table) : leaves t ≠ [] := by
  unfold leaves; split <;> simp_all

theorem hBuild_syms (t : Table) : (syms (hBuild t)).Perm ((leaves t).map (·.sym)) := by
  have hq := leafQueue_perm (leaves t)
  have := mergeLoop_syms (leaves t).length (leafQueue (leaves t))
    (by intro e; have := hq.length_eq; simp [e] at this; exact leaves_ne_nil t (List.eq_nil_of_length_eq_zero this.symm))
    (by have := hq.length_eq; simp at this; omega)
  refine this.trans ((hq.flatMap_right _).trans ?_)
  rw [List.flatMap_map]
  simp [syms]
  have : ∀ l : List Weighted, (List.flatMap (fun x => [x.sym]) l) = l.map (·.sym) := by
    intro l; induction l <;> simp_all
  rw [this]

theorem splitScan_bound (total : Nat) : ∀ (k left d : Nat) (l : List Weighted), k ≤ splitScan total k left d l ∧
    (l ≠ [] → splitScan total k left d l < k + l.length)
  | k, left, d, [] => by simp [splitScan]
  | k, left, d, [x] => by simp [splitScan]
  | k, left, d, x :: y :: rest => by
    have := splitScan_bound total (k+1) (left + x.weight) (imbalance total (left + x.weight)) (y :: rest)
    simp only [splitScan]
    split
    · simp at this ⊢; omega
    · simp

theorem splitIndex_lt {l : List Weighted} (h : 2 ≤ l.length) : splitIndex l + 1 < l.length := by
  match l with
  | [] => simp at h
  | [_] => simp at h
  | x :: y :: rest =>
    have := (splitScan_bound (rangeSum (x::y::rest)) 0 x.weight (imbalance (rangeSum (x :: y :: rest)) x.weight) (y :: rest)).2 (by simp)
    simp [splitIndex] at this ⊢; omega

theorem part_syms : ∀ (fuel : Nat) (l : List Weighted), l ≠ [] → l.length ≤ fuel + 1 → syms (part fuel l) = l.map (·.sym)
  | _, [], h, _ => absurd rfl h
  | fuel, [x], _, _ => by cases fuel <;> simp [part, syms]
  | 0, _ :: _ :: _, _, h => by simp at h
  | fuel + 1, x :: y :: rest, _, h => by
    have hk := splitIndex_lt (l := x :: y :: rest) (by simp)
    simp only [part, syms]
    rw [part_syms fuel, part_syms fuel, ← List.map_append, List.take_append_drop]
    · intro e; have := congrArg List.length e; simp at this hk; omega
    · simp at h hk ⊢; omega
    · simp
    · simp at h hk ⊢; omega

theorem sBuild_syms (t : Table) : (syms (sBuild t)).Perm ((leaves t).map (·.sym)) := by
  have hq : (sortedList t).Perm (leaves t) := ranked_perm _
  rw [sBuild, part_syms]
  · exact hq.map _
  · intro e; have := hq.length_eq; simp [e] at this; exact leaves_ne_nil t (List.eq_nil_of_length_eq_zero this.symm)
  · omega

theorem nodup_leaves (t : Table) : ((leaves t).map (·.sym)).Nodup := by
  have := nodup_presentSymbols t
  unfold leaves; split <;> simp_all

theorem hBuild_proper (t : Table) : Proper (hBuild t) := (hBuild_syms t).nodup_iff.2 (nodup_leaves t)

theorem sBuild_proper (t : Table) : Proper (sBuild t) := (sBuild_syms t).nodup_iff.2 (nodup_leaves t)

theorem mem_leaves {t : Table} {s : Byte} : s ∈ (leaves t).map (·.sym) ↔
    tableGet t s ≠ 0 ∨ (s = 0 ∧ ∀ u, tableGet t u = 0) := by
  by_cases h : presentSymbols t = []
  · have h' := presentSymbols_eq_nil.1 h
    simp [leaves, h, h', synSym]
  · have h' : ¬ ∀ u, tableGet t u = 0 := fun e => h (presentSymbols_eq_nil.2 e)
    have hl : leaves t = presentSymbols t := by unfold leaves; split <;> simp_all
    rw [hl, map_sym_presentSymbols]
    simp only [List.mem_filter, mem_allSymbols, true_and, decide_eq_true_eq, h', and_false, or_false]
    constructor
    · intro h e; simp [e] at h
    · intro h; rcases Nat.eq_zero_or_pos (tableGet t s).toNat with h0 | h0
      · exact absurd (BitVec.eq_of_toNat_eq (by simpa using h0)) h
      · exact h0

theorem leaves_length (t : Table) : (leaves t).length ≤ 1 ↔ presentCount t ≤ 1 := by
  rw [← presentCount_eq]; unfold leaves; split <;> simp_all

theorem builder_facts {tab : Table} {tree : CodeTree} (h : tree = hBuild tab ∨ tree = sBuild tab) :
    Proper tree ∧ ∀ x, tableGet tab x ≠ 0 → x ∈ syms tree := by
  rcases h with rfl | rfl
  · exact ⟨hBuild_proper _, fun x hx => by rw [(hBuild_syms tab).mem_iff, mem_leaves]; exact .inl hx⟩
  · exact ⟨sBuild_proper _, fun x hx => by rw [(sBuild_syms tab).mem_iff, mem_leaves]; exact .inl hx⟩

theorem splitsTo_part : ∀ (fuel : Nat) (l : List Weighted), l ≠ [] → l.length ≤ fuel + 1 → SplitsTo l (part fuel l)
  | _, [], h, _ => absurd rfl h
  | fuel, [x], _, _ => by cases fuel <;> exact .single x
  | 0, _ :: _ :: _, _, h => by simp at h
  | fuel + 1, x :: y :: rest, _, h => by
    have hk := splitIndex_lt (l := x :: y :: rest) (by simp)
    refine .split (by simp) (splitsTo_part fuel _ (by simp) ?_) (splitsTo_part fuel _ ?_ ?_)
    · simp at h hk ⊢; omega
    · intro e; have := congrArg List.length e; simp at this hk; omega
    · simp at h hk ⊢; omega

theorem comesBefore_total (x y : QNode) : comesBefore x y = true ∨ comesBefore y x = true := by
  simp only [comesBefore, Bool.or_eq_true, Bool.and_eq_true, decide_eq_true_eq, beq_iff_eq]; omega

theorem comesBefore_trans {x y z : QNode} (h : comesBefore x y = true) (h' : comesBefore y z = true) :
    comesBefore x z = true := by
  simp only [comesBefore, Bool.or_eq_true, Bool.and_eq_true, decide_eq_true_eq, beq_iff_eq] at *; omega

/-- With distinct minimum symbols the order of the queue is the strict order of R151. -/
theorem priorTo_of_comesBefore {x y : QNode} (h : comesBefore x y = true) (hne : x.minSym ≠ y.minSym) : PriorTo x y := by
  have : x.minSym.toNat ≠ y.minSym.toNat := fun e => hne (BitVec.eq_of_toNat_eq e)
  simp only [comesBefore, Bool.or_eq_true, Bool.and_eq_true, decide_eq_true_eq, beq_iff_eq] at h
  unfold PriorTo; omega

theorem enqueue_pairwise {q : List QNode} (x : QNode) (h : q.Pairwise fun a b => comesBefore a b = true) :
    (enqueue x q).Pairwise fun a b => comesBefore a b = true := by
  have : Std.Total (fun x y : QNode => comesBefore x y = true) := ⟨comesBefore_total⟩
  have : IsTrans QNode (fun x y => comesBefore x y = true) := ⟨fun _ _ _ => comesBefore_trans⟩
  exact h.orderedInsert _ _

theorem leafQueue_pairwise (l : List Weighted) : (leafQueue l).Pairwise fun a b => comesBefore a b = true := by
  have : Std.Total (fun x y : QNode => comesBefore x y = true) := ⟨comesBefore_total⟩
  have : IsTrans QNode (fun x y => comesBefore x y = true) := ⟨fun _ _ _ => comesBefore_trans⟩
  exact List.pairwise_insertionSort _ _

theorem MergesTo.perm {p q : List QNode} {t : CodeTree} (h : MergesTo q t) (hp : p.Perm q) : MergesTo p t := by
  cases h with
  | done x => rw [List.perm_singleton.1 hp]; exact .done x
  | round m h1 h2 h3 h4 h5 => exact .round m (hp.trans h1) h2 h3 h4 h5

theorem mergesTo_mergeLoop : ∀ (fuel : Nat) (q : List QNode), q ≠ [] → q.length ≤ fuel + 1 →
    (q.Pairwise fun a b => comesBefore a b = true) → (q.map (·.minSym)).Nodup → MergesTo q (mergeLoop fuel q)
  | _, [], h, _, _, _ => absurd rfl h
  | fuel, [x], _, _, _, _ => by cases fuel <;> exact .done x
  | 0, _ :: _ :: _, _, h, _, _ => by simp at h
  | fuel + 1, a :: b :: q, _, h, hs, hn => by
    have hp := enqueue_perm (mergeNodes a b) q
    simp only [List.pairwise_cons, List.mem_cons, List.map_cons, List.nodup_cons, List.mem_map, not_or, not_exists, not_and,
      forall_eq_or_imp] at hs hn
    refine .round (mergeNodes a b).minSym (List.Perm.refl _) (priorTo_of_comesBefore hs.1.1 hn.1.1)
      (fun x hx => priorTo_of_comesBefore (hs.2.1 x hx) (fun e => hn.2.1 x hx e.symm)) ?_ ?_
    · simp only [mergeNodes]; split <;> omega
    · refine MergesTo.perm (mergesTo_mergeLoop fuel _ ?_ ?_ (enqueue_pairwise _ hs.2.2) ?_) hp.symm
      · intro e; have := hp.length_eq; simp [e] at this
      · have := hp.length_eq; simp at this h; omega
      · rw [(hp.map _).nodup_iff]
        simp only [List.map_cons, List.nodup_cons, List.mem_map, not_exists, not_and]
        refine ⟨fun x hx e => ?_, hn.2.2⟩
        simp only [mergeNodes] at e
        split at e
        · exact hn.1.2 x hx e
        · exact hn.2.1 x hx e

end Sys2Proof.Machine
end

