-- ==== Sys2Proof/Laws/Codec.lean ====
section
/-! SUPPORT. Laws of the encoder and the decoder. -/

namespace Sys2Proof.Machine
open Sys2Proof

theorem walkDown_found : ∀ (t : CodeTree) (q rest : List Bit) {x : Byte} {s : State}, leafAt t q = some x → ReaderOk s →
    sourceBits s = q ++ rest →
    ∃ u, walkDown t s = .found x u ∧ ReaderOk u ∧ sourceBits u = rest ∧
      u = { s with racc := u.racc, rcnt := u.rcnt, src := u.src, eod := if q = [] then s.eod else false }
  | .leaf a, [], rest, x, s, h, hr, hs => by
    simp [leafAt] at h; subst h
    exact ⟨s, rfl, hr, by simpa using hs, by simp⟩
  | .leaf a, _ :: _, _, _, _, h, _, _ => by simp [leafAt] at h
  | .node l r, [], _, _, _, h, _, _ => by simp [leafAt] at h
  | .node l r, b :: q, rest, x, s, h, hr, hs => by
    obtain ⟨t, h1, h2, h3, h4⟩ := readBit_cons hr (by simpa using hs)
    cases b
    · obtain ⟨u, g1, g2, g3, g4⟩ := walkDown_found l q rest (by simpa [leafAt] using h) h2 h3
      refine ⟨u, by simp [walkDown, h1, g1], g2, g3, ?_⟩
      rw [g4, h4]; simp
    · obtain ⟨u, g1, g2, g3, g4⟩ := walkDown_found r q rest (by simpa [leafAt] using h) h2 h3
      refine ⟨u, by simp [walkDown, h1, g1], g2, g3, ?_⟩
      rw [g4, h4]; simp

/-- A symbol whose code stands at the front of the bits is read. -/
theorem readSymbol_found {t : CodeTree} (hp : Proper t) {x : Byte} (hx : x ∈ syms t) {s : State} {rest : List Bit}
    (hr : ReaderOk s) (hs : sourceBits s = codeOf (codes t) x ++ rest) :
    ∃ u, readSymbol t s = .found x u ∧ ReaderOk u ∧ sourceBits u = rest ∧
      u = { s with racc := u.racc, rcnt := u.rcnt, src := u.src, eod := false } := by
  cases t with
  | leaf a =>
    simp [syms] at hx; subst hx
    obtain ⟨u, h1, h2, h3, h4⟩ := readBit_cons (b := false) hr (by simpa [codes] using hs)
    exact ⟨u, by simp [readSymbol, h1], h2, h3, h4⟩
  | node l r =>
    have hf := codes_node_mem hp hx
    obtain ⟨u, h1, h2, h3, h4⟩ := walkDown_found _ _ rest hf hr hs
    refine ⟨u, by simp only [readSymbol, h1], h2, h3, ?_⟩
    have := (codes_length hp hx).1
    rw [h4]; simp only [State.mk.injEq, true_and, and_true]
    split
    · next h => rw [h] at this; simp at this
    · rfl

theorem decodeLoop_ok (n : Nat) : ∀ (l : List Byte) {s : State} {rest : List Bit}, Proper s.tree → (∀ x ∈ l, x ∈ syms s.tree) →
    ReaderOk s → sourceBits s = codeBits (codes s.tree) l ++ rest → SinkRoom s l.length →
    ∃ u, decodeLoop n l.length s = .ok u ∧ ReaderOk u ∧ sourceBits u = rest ∧
      u = { s with racc := u.racc, rcnt := u.rcnt, src := u.src, snk := s.snk ++ l, eod := if l = [] then s.eod else false }
  | [], s, rest, _, _, hr, hs, _ => ⟨s, rfl, hr, by simpa [codeBits] using hs, by simp⟩
  | x :: l, s, rest, hp, hm, hr, hs, hroom => by
    obtain ⟨u, h1, h2, h3, h4⟩ := readSymbol_found (rest := codeBits (codes s.tree) l ++ rest) hp (hm x (by simp)) hr
      (by simpa [codeBits] using hs)
    have hroom1 : SinkRoom u 1 := fun c hc => by
      rw [h4] at hc ⊢; have := hroom c hc; simp at this ⊢; omega
    have hpush := snkPush_ok (b := x) hroom1
    have ht : u.tree = s.tree := by rw [h4]
    have hsnk : u.snk = s.snk := by rw [h4]
    have hcfg : u.cfg = s.cfg := by rw [h4]
    obtain ⟨v, g1, g2, g3, g4⟩ := decodeLoop_ok n l (s := { u with snk := u.snk ++ [x] }) (rest := rest)
      (by simpa [ht] using hp) (fun y hy => by simpa [ht] using hm y (by simp [hy])) ⟨h2.count, h2.aligned⟩
      (by simpa [ht, sourceBits, bufferedBits] using h3)
      (fun c hc => by have := hroom c (hcfg ▸ hc); simp [hsnk] at this ⊢; omega)
    refine ⟨v, by simp only [List.length_cons, decodeLoop, h1, hpush, g1], g2, g3, ?_⟩
    rw [g4, h4]; simp

/-- Bytes that have codes, with room for their bits, are encoded and leave the rest of SRC to encode. -/
theorem encodeLoop_through : ∀ (done rest : List Byte) (n : Nat) {s : State}, s.src = done ++ rest → (∀ x ∈ done, codeOf s.ct x ≠ []) →
    WriterOk s → SinkRoom s ((s.wcnt.toNat + (codeBits s.ct done).length) / 8) →
    ∃ t sent, encodeLoop (done ++ rest) n s = encodeLoop rest (n + done.length) t ∧ WriterOk t ∧
      sent.flatMap byteBits ++ pendingBits t = pendingBits s ++ codeBits s.ct done ∧
      8 * sent.length + t.wcnt.toNat = s.wcnt.toNat + (codeBits s.ct done).length ∧
      t = { s with src := rest, wacc := t.wacc, wcnt := t.wcnt, snk := s.snk ++ sent,
                   wtotal := s.wtotal + BitVec.ofNat 64 (codeBits s.ct done).length }
  | [], rest, n, s, hs, _, h, _ => ⟨s, [], rfl, h, by simp [codeBits], by simp [codeBits], by cases s; simp_all [codeBits]⟩
  | b :: done, rest, n, s, hs, hm, h, hr => by
    have hb := hm b (by simp)
    have hbits : codeBits s.ct (b :: done) = codeOf s.ct b ++ codeBits s.ct done := by simp [codeBits]
    obtain ⟨t, h1, h2, h3, h4, h5⟩ := writeBits_ok (l := codeOf s.ct b) (s := { s with src := done ++ rest }) ⟨h.count, h.small⟩ (fun c hc => by
      have := hr c hc; rw [hbits] at this; simp at this ⊢; omega)
    obtain ⟨m, hsm⟩ := writeBits_prefix _ _ _ h1
    have hcfg : t.cfg = s.cfg := by rw [h5]
    have hct : t.ct = s.ct := by rw [h5]
    simp only at h4 hsm
    obtain ⟨u, sent, g1, g2, g3, g4, g5⟩ := encodeLoop_through done rest (n + 1) (s := t) (by rw [h5]) (fun x hx => by rw [hct]; exact hm x (by simp [hx])) h2 (fun c hc => by
      have := hr c (hcfg ▸ hc); rw [hbits] at this; have := h2.count; have := h.count; rw [hct]
      simp only [List.length_append] at *; omega)
    refine ⟨u, m ++ sent, ?_, g2, ?_, ?_, ?_⟩
    · have : n + (b :: done).length = n + 1 + done.length := by simp; omega
      rw [this]; simp [encodeLoop, hb, h1, g1]
    · have e : m.flatMap byteBits ++ pendingBits t = pendingBits s ++ codeOf s.ct b := by
        simp only [sinkBits, hsm, List.flatMap_append, List.append_assoc] at h3
        exact List.append_cancel_left h3
      rw [List.flatMap_append, List.append_assoc, g3, hct, ← List.append_assoc, e, hbits, List.append_assoc]
    · rw [hct] at g4; rw [hsm] at h4; rw [hbits]; simp at h4 ⊢; omega
    · rw [g5, hct, hsm, h5, hbits]
      simp only [List.length_append, BitVec.ofNat_add, State.mk.injEq, true_and, and_true, List.append_assoc]
      ac_rfl

theorem encodeLoop_ok (l : List Byte) (n : Nat) {s : State} (hs : s.src = l) (hm : ∀ x ∈ l, codeOf s.ct x ≠ []) (h : WriterOk s)
    (hr : SinkRoom s ((s.wcnt.toNat + (codeBits s.ct l).length) / 8)) :
    ∃ t, encodeLoop l n s = .ok t ∧ WriterOk t ∧ sinkBits t = sinkBits s ++ codeBits s.ct l ∧
      8 * t.snk.length + t.wcnt.toNat = 8 * s.snk.length + s.wcnt.toNat + (codeBits s.ct l).length ∧
      t = { s with src := [], wacc := t.wacc, wcnt := t.wcnt, snk := t.snk,
                   wtotal := s.wtotal + BitVec.ofNat 64 (codeBits s.ct l).length } := by
  obtain ⟨t, sent, h1, h2, h3, h4, h5⟩ := encodeLoop_through l [] n (by simpa using hs) hm h hr
  have hsnk : t.snk = s.snk ++ sent := by rw [h5]
  refine ⟨t, by simpa [encodeLoop] using h1, h2, ?_, by rw [hsnk]; simp; omega, by rw [hsnk]; exact h5⟩
  simp only [sinkBits, hsnk, List.flatMap_append, List.append_assoc, h3]

/-- Everything `encodeLoop` can do. -/
theorem encodeLoop_spec : ∀ (l : List Byte) (n : Nat) (s : State), s.src = l →
    match encodeLoop l n s with
    | .ok t => t = { s with src := [], wacc := t.wacc, wcnt := t.wcnt, wtotal := t.wtotal, snk := t.snk } ∧
        (WriterOk s → WriterOk t) ∧ (SinkCapOk s → SinkCapOk t)
    | .error t => t = { s with
          src := t.src, wacc := t.wacc, wcnt := t.wcnt, wtotal := t.wtotal, snk := t.snk,
          err := t.err, fault := true, errinfo0 := t.errinfo0, errinfo1 := t.errinfo1 } ∧
        (t.err = 6 ∨ t.err = 10 ∧ SinkFullAt t ∧ t.errinfo0 = countWord t.snk.length) ∧ t.src.length ≤ s.src.length ∧
        (WriterOk s → WriterOk t) ∧ (SinkCapOk s → SinkCapOk t)
  | [], n, s, hs => ⟨by cases s; simp_all, id, id⟩
  | b :: l, n, s, hs => by
    by_cases hb : codeOf s.ct b = []
    · simp only [encodeLoop, hb, if_true]
      exact ⟨rfl, .inl rfl, by simp [hs], fun h => ⟨h.count, h.small⟩, id⟩
    · have h1 := writeBits_spec (codeOf s.ct b) { s with src := l }
      simp only [encodeLoop, hb, if_false]
      cases hr : writeBits (codeOf s.ct b) { s with src := l } with
      | error t =>
        rw [hr] at h1
        simp only at h1 ⊢
        obtain ⟨a1, a2, a3⟩ := h1
        refine ⟨by rw [a1], .inr ⟨by rw [a1], a2, by rw [a1]⟩, by rw [a1]; simp [hs], fun _ => by rw [a1]; exact ⟨by simp, by simp⟩, a3⟩
      | ok t =>
        rw [hr] at h1
        simp only at h1 ⊢
        obtain ⟨a1, a2, a3⟩ := h1
        have ih := encodeLoop_spec l (n + 1) t (by rw [a1])
        have hw : WriterOk s → WriterOk t := fun h => a2 ⟨h.count, h.small⟩
        cases hr2 : encodeLoop l (n + 1) t with
        | ok u => rw [hr2] at ih; exact ⟨by rw [ih.1, a1], fun h => ih.2.1 (hw h), fun h => ih.2.2 (a3 h)⟩
        | error u =>
          rw [hr2] at ih
          obtain ⟨b1, b2, b3, b4, b5⟩ := ih
          refine ⟨by rw [b1, a1], b2, ?_, fun h => b4 (hw h), fun h => b5 (a3 h)⟩
          have : t.src = l := by rw [a1]
          rw [this] at b3; simp [hs]; omega

/-- The state a symbol's reading ends in. -/
def Symbol.state : Symbol → State
  | .found _ s => s
  | .endOfData s => s
  | .offTree s => s

theorem readFrom_walkDown : ∀ (t : CodeTree) (s : State), ReadFrom s (walkDown t s).state
  | .leaf _, s => readFrom_refl s
  | .node l r, s => by
    have h := readFrom_readBit s
    rcases hr : readBit s with ⟨b, u⟩
    rw [hr] at h
    rcases b with _ | _ | _
    · simpa [walkDown, hr, Symbol.state] using h
    · simpa [walkDown, hr] using h.trans (readFrom_walkDown l u)
    · simpa [walkDown, hr] using h.trans (readFrom_walkDown r u)

theorem readFrom_readSymbol (t : CodeTree) (s : State) : ReadFrom s (readSymbol t s).state := by
  cases t with
  | node l r => exact readFrom_walkDown _ s
  | leaf x =>
    have h := readFrom_readBit s
    rcases hr : readBit s with ⟨b, u⟩
    rw [hr] at h
    rcases b with _ | _ | _ <;> simpa [readSymbol, hr, Symbol.state] using h

/-- Everything `decodeLoop` can do. -/
theorem decodeLoop_spec (n : Nat) : ∀ (left : Nat) (s : State),
    match decodeLoop n left s with
    | .ok t => t = { s with racc := t.racc, rcnt := t.rcnt, src := t.src, eod := t.eod, snk := t.snk } ∧
        t.src.length ≤ s.src.length ∧ (ReaderOk s → ReaderOk t) ∧ (SinkCapOk s → SinkCapOk t)
    | .error t => t = { s with
          racc := t.racc, rcnt := t.rcnt, src := t.src, eod := t.eod, snk := t.snk,
          err := t.err, fault := true, errinfo0 := t.errinfo0, errinfo1 := t.errinfo1 } ∧
        (t.err = 4 ∨ t.err = 5 ∨ t.err = 10 ∧ SinkFullAt t ∧ t.errinfo0 = countWord t.snk.length) ∧
        t.src.length ≤ s.src.length ∧ (ReaderOk s → ReaderOk t) ∧ (SinkCapOk s → SinkCapOk t)
  | 0, s => ⟨rfl, le_refl _, id, id⟩
  | left + 1, s => by
    have h1 := readFrom_readSymbol s.tree s
    cases hr : readSymbol s.tree s with
    | endOfData t =>
      rw [hr] at h1
      simp only [decodeLoop, hr]
      exact ⟨h1.raised _ _ _, .inl rfl, h1.shorter, fun h => ⟨(h1.reader h).count, (h1.reader h).aligned⟩, fun h => h1.sinkCapOk h⟩
    | offTree t =>
      rw [hr] at h1
      simp only [decodeLoop, hr]
      exact ⟨h1.raised _ _ _, .inr (.inl rfl), h1.shorter, fun h => ⟨(h1.reader h).count, (h1.reader h).aligned⟩, fun h => h1.sinkCapOk h⟩
    | found x t =>
      rw [hr] at h1
      simp only [Symbol.state] at h1
      have hf := h1.frame
      have h2 := snkPush_spec x t
      cases hp : snkPush x t with
      | error u =>
        rw [hp] at h2
        simp only [decodeLoop, hr, hp]
        obtain ⟨e, hfull⟩ := h2
        subst e
        exact ⟨h1.raised _ _ _, .inr (.inr ⟨rfl, hfull, rfl⟩), h1.shorter, fun h => ⟨(h1.reader h).count, (h1.reader h).aligned⟩, fun h => h1.sinkCapOk h⟩
      | ok u =>
        rw [hp] at h2
        simp only [decodeLoop, hr, hp]
        obtain ⟨e, hroom⟩ := h2
        have ih := decodeLoop_spec n left u
        have hcap : SinkCapOk u := fun c hc => by rw [e] at hc ⊢; have := hroom c hc; simpa using this
        have hrd : ReaderOk s → ReaderOk u := fun h => by rw [e]; exact ⟨(h1.reader h).count, (h1.reader h).aligned⟩
        have hsh : u.src.length ≤ s.src.length := by rw [e]; exact h1.shorter
        cases hd : decodeLoop n left u with
        | ok v =>
          rw [hd] at ih
          exact ⟨by rw [ih.1, e, hf], le_trans ih.2.1 hsh, fun h => ih.2.2.1 (hrd h), fun _ => ih.2.2.2 hcap⟩
        | error v =>
          rw [hd] at ih
          exact ⟨by rw [ih.1, e, hf], ih.2.1, le_trans ih.2.2.1 hsh, fun h => ih.2.2.2.1 (hrd h), fun _ => ih.2.2.2.2 hcap⟩

theorem encodeLoop_prefix : ∀ (l : List Byte) (n : Nat) (s t : State), encodeLoop l n s = .ok t → ∃ m, t.snk = s.snk ++ m
  | [], n, s, t, h => by cases h; exact ⟨[], by simp⟩
  | b :: l, n, s, t, h => by
    simp only [encodeLoop] at h
    split at h
    · cases h
    · cases hw : writeBits (codeOf s.ct b) { s with src := l } with
      | error u => rw [hw] at h; cases h
      | ok u =>
        rw [hw] at h
        obtain ⟨m, hm⟩ := writeBits_prefix _ _ _ hw
        obtain ⟨m', hm'⟩ := encodeLoop_prefix l _ u t h
        exact ⟨m ++ m', by rw [hm', hm]; simp⟩

theorem encodeLoop_absent (done : List Byte) (x : Byte) (rest : List Byte) (n : Nat) (s : State) (h : WriterOk s)
    (hs : s.src = done ++ x :: rest) (hm : ∀ y ∈ done, codeOf s.ct y ≠ []) (hx : codeOf s.ct x = [])
    (hr : SinkRoom s ((s.wcnt.toNat + (codeBits s.ct done).length) / 8)) :
    ∃ t, encodeLoop (done ++ x :: rest) n s = .error t ∧ WriterOk t ∧ sinkBits t = sinkBits s ++ codeBits s.ct done ∧
      t = { s with
        src := rest, wacc := t.wacc, wcnt := t.wcnt, snk := t.snk,
        wtotal := s.wtotal + BitVec.ofNat 64 (codeBits s.ct done).length,
        err := 6, fault := true, errinfo0 := x.setWidth 64, errinfo1 := countWord (n + done.length) } := by
  obtain ⟨t, sent, h1, h2, h3, h4, h5⟩ := encodeLoop_through done (x :: rest) n hs hm h hr
  have hsnk : t.snk = s.snk ++ sent := by rw [h5]
  have hct : codeOf t.ct x = [] := by rw [h5]; exact hx
  refine ⟨raise .absentSymbol (x.setWidth 64) (countWord (n + done.length)) { t with src := rest }, ?_, ⟨h2.count, h2.small⟩, ?_, ?_⟩
  · rw [h1]; simp only [encodeLoop, hct, if_true]
  · simp only [sinkBits, pendingBits, raise] at h3 ⊢
    simp only [hsnk, List.flatMap_append, List.append_assoc, h3]
  · conv_lhs => rw [h5]
    simp [raise, faultCode, hsnk]

theorem encodeLoop_full {done : List Byte} {x : Byte} {rest : List Byte} {n k : Nat} {s : State} (hs : s.src = done ++ x :: rest)
    (hm : ∀ y ∈ done, codeOf s.ct y ≠ []) (h : WriterOk s) (hc : s.cfg.snkCap = some (s.snk.length + n))
    (h1 : s.wcnt.toNat + (codeBits s.ct done).length < 8 * (n + 1))
    (h2 : 8 * (n + 1) ≤ s.wcnt.toNat + (codeBits s.ct (done ++ [x])).length) :
    ∃ sent lost, sent.length = n ∧
      (sent ++ [lost]).flatMap byteBits = (pendingBits s ++ codeBits s.ct (done ++ [x])).take (8 * (n + 1)) ∧
      encodeLoop (done ++ x :: rest) k s = .error (raise .sinkFull (countWord (s.snk.length + n)) (lost.setWidth 64)
        { s with src := rest, wacc := 0, wcnt := 0, snk := s.snk ++ sent,
                 wtotal := s.wtotal + BitVec.ofNat 64 (8 * (n + 1) - s.wcnt.toNat) }) := by
  obtain ⟨t, m, a1, a2, a3, a4, a5⟩ := encodeLoop_through done (x :: rest) k hs hm h (fun c hcc => by rw [hc] at hcc; cases hcc; omega)
  have hct : t.ct = s.ct := by rw [a5]
  have hcfg : t.cfg = s.cfg := by rw [a5]
  have hsnk : t.snk = s.snk ++ m := by rw [a5]
  have hbits : codeBits s.ct (done ++ [x]) = codeBits s.ct done ++ codeOf s.ct x := by simp [codeBits]
  rw [hbits] at h2 ⊢
  simp only [List.length_append] at h2
  have ht7 := a2.count
  have h7 := h.count
  have hx : codeOf s.ct x ≠ [] := by intro e; simp [e] at h2; omega
  obtain ⟨sent, lost, b1, b2, b3⟩ := writeBits_full (l := codeOf t.ct x) (s := { t with src := rest }) (n := n - m.length)
    ⟨a2.count, a2.small⟩ (by simp only; rw [hcfg, hc, hsnk]; simp; omega) (by simp only; rw [hct]; omega)
  simp only at b2 b3
  refine ⟨m ++ sent, lost, by simp; omega, ?_, ?_⟩
  · rw [List.append_assoc, List.flatMap_append, b2, hct, ← List.append_assoc, ← a3, List.append_assoc]
    have hl : 8 * (n + 1) = (m.flatMap byteBits).length + 8 * (n - m.length + 1) := by rw [length_flatMap_byteBits]; omega
    rw [hl, List.take_length_add_append]; rfl
  · rw [a1]
    simp only [encodeLoop, show codeOf t.ct x ≠ [] from hct ▸ hx, if_false, b3]
    have hn : t.snk.length + (n - m.length) = s.snk.length + n := by rw [hsnk]; simp; omega
    have hwt : t.wtotal + BitVec.ofNat 64 (8 * (n - m.length + 1) - t.wcnt.toNat) = s.wtotal + BitVec.ofNat 64 (8 * (n + 1) - s.wcnt.toNat) := by
      have : t.wtotal = s.wtotal + BitVec.ofNat 64 (codeBits s.ct done).length := by rw [a5]
      rw [this, BitVec.add_assoc, ← BitVec.ofNat_add]; congr 2; omega
    rw [hn, hwt, hsnk, a5]; simp

theorem walkDown_end : ∀ (t : CodeTree) (s : State), ReaderOk s → (∀ q x, leafAt t q = some x → ¬ q <+: sourceBits s) →
    walkDown t s = .endOfData { s with racc := (walkDown t s).state.racc, rcnt := 0, src := [], eod := true }
  | .leaf a, s, hr, h => absurd (List.nil_prefix) (h [] a rfl)
  | .node l r, s, hr, h => by
    cases hs : sourceBits s with
    | nil =>
      obtain ⟨h1, h2, h3⟩ := readBit_nil hs
      have : walkDown (.node l r) s = .endOfData { s with eod := true } := by simp [walkDown, h1]
      rw [this]; cases s; simp_all [Symbol.state]
    | cons b bits =>
      obtain ⟨t, h1, h2, h3, h4⟩ := readBit_cons hr hs
      have hw : walkDown (.node l r) s = if b then walkDown r t else walkDown l t := by cases b <;> simp [walkDown, h1]
      rw [hw]
      cases b
      · have ih := walkDown_end l t h2 (fun q x hq hpre => h (false :: q) x (by simp [leafAt, hq]) (by rw [hs, ← h3]; exact List.cons_prefix_cons.2 ⟨rfl, hpre⟩))
        simp only [Bool.false_eq_true, if_false]
        rw [ih]; simp only [Symbol.state]; rw [h4]
      · have ih := walkDown_end r t h2 (fun q x hq hpre => h (true :: q) x (by simp [leafAt, hq]) (by rw [hs, ← h3]; exact List.cons_prefix_cons.2 ⟨rfl, hpre⟩))
        simp only [if_true]
        rw [ih]; simp only [Symbol.state]; rw [h4]

theorem readSymbol_end {t : CodeTree} {s : State} (hp : Proper t) (hr : ReaderOk s)
    (h : ∀ x ∈ syms t, ¬ codeOf (codes t) x <+: sourceBits s) (hl : (∃ x, t = .leaf x) → sourceBits s = []) :
    readSymbol t s = .endOfData { s with racc := (readSymbol t s).state.racc, rcnt := 0, src := [], eod := true } := by
  cases t with
  | leaf x =>
    obtain ⟨h1, h2, h3⟩ := readBit_nil (hl ⟨x, rfl⟩)
    have : readSymbol (.leaf x) s = .endOfData { s with eod := true } := by simp [readSymbol, h1]
    rw [this]; cases s; simp_all [Symbol.state]
  | node l r =>
    apply walkDown_end _ s hr
    intro q x hq
    have := leafAt_codes hp hq
    rw [← this]; exact h x (leafAt_mem _ _ hq)

theorem decodeLoop_end (n : Nat) : ∀ (out : List Byte) (left : Nat) {s : State} {tail : List Bit}, Proper s.tree → ReaderOk s →
    (∀ x ∈ out, x ∈ syms s.tree) → sourceBits s = codeBits (codes s.tree) out ++ tail →
    (∀ x ∈ syms s.tree, ¬ codeOf (codes s.tree) x <+: tail) → ((∃ x, s.tree = .leaf x) → tail = []) →
    out.length < left → SinkRoom s out.length →
    ∃ u, decodeLoop n left s = .error u ∧ u = { s with
      snk := s.snk ++ out, racc := u.racc, rcnt := 0, src := [], eod := true, err := 4, fault := true,
      errinfo0 := countWord n, errinfo1 := countWord (n - (left - out.length)) }
  | [], left + 1, s, tail, hp, hr, hm, hs, hn, hl, hlen, hroom => by
    have e : sourceBits s = tail := by simpa [codeBits] using hs
    have := readSymbol_end hp hr (fun x hx => e ▸ hn x hx) (fun hx => e ▸ hl hx)
    simp only [decodeLoop]
    rw [this]
    refine ⟨_, rfl, ?_⟩
    simp [raise, faultCode]
  | x :: out, left + 1, s, tail, hp, hr, hm, hs, hn, hl, hlen, hroom => by
    obtain ⟨u, h1, h2, h3, h4⟩ := readSymbol_found (rest := codeBits (codes s.tree) out ++ tail) hp (hm x (by simp)) hr
      (by simpa [codeBits] using hs)
    have hroom1 : SinkRoom u 1 := fun c hc => by
      rw [h4] at hc ⊢; have := hroom c hc; simp at this ⊢; omega
    have hpush := snkPush_ok (b := x) hroom1
    have ht : u.tree = s.tree := by rw [h4]
    have hsnk : u.snk = s.snk := by rw [h4]
    have hcfg : u.cfg = s.cfg := by rw [h4]
    obtain ⟨v, g1, g4⟩ := decodeLoop_end n out left (s := { u with snk := u.snk ++ [x] }) (tail := tail)
      (by simpa [ht] using hp) ⟨h2.count, h2.aligned⟩ (fun y hy => by simpa [ht] using hm y (by simp [hy]))
      (by simpa [ht, sourceBits, bufferedBits] using h3) (by simpa [ht] using hn) (by simpa [ht] using hl) (by simpa using hlen)
      (fun c hc => by have := hroom c (hcfg ▸ hc); simp [hsnk] at this ⊢; omega)
    refine ⟨v, by simp only [decodeLoop, h1, hpush, g1], ?_⟩
    rw [g4, h4]
    have : n - (left + 1 - (x :: out).length) = n - (left - out.length) := by simp
    rw [this]; simp

theorem decodeLoop_off (n : Nat) (x : Byte) : ∀ (k : Nat) (left : Nat) {s : State} {rest : List Bit}, s.tree = .leaf x → ReaderOk s →
    sourceBits s = List.replicate k false ++ true :: rest → k < left → SinkRoom s k →
    ∃ u, decodeLoop n left s = .error u ∧ ReaderOk u ∧ sourceBits u = rest ∧ u = { s with
      snk := s.snk ++ List.replicate k x, racc := u.racc, rcnt := u.rcnt, src := u.src, eod := false, err := 5, fault := true,
      errinfo0 := countWord (n - (left - k)), errinfo1 := 0 }
  | 0, left + 1, s, rest, ht, hr, hs, hk, hroom => by
    obtain ⟨t, h1, h2, h3, h4⟩ := readBit_cons hr (by simpa using hs)
    refine ⟨raise .invalidCode (countWord (n - (left + 1))) 0 t, by simp [decodeLoop, ht, readSymbol, h1], ⟨h2.count, h2.aligned⟩, h3, ?_⟩
    conv_lhs => rw [h4]
    simp [raise, faultCode]
  | k + 1, left + 1, s, rest, ht, hr, hs, hk, hroom => by
    obtain ⟨u, h1, h2, h3, h4⟩ := readBit_cons (b := false) (rest := List.replicate k false ++ true :: rest) hr (by simpa [List.replicate_succ] using hs)
    have hroom1 : SinkRoom u 1 := fun c hc => by
      rw [h4] at hc ⊢; have := hroom c hc; simp at this ⊢; omega
    have hpush := snkPush_ok (b := x) hroom1
    have ht' : u.tree = s.tree := by rw [h4]
    have hsnk : u.snk = s.snk := by rw [h4]
    have hcfg : u.cfg = s.cfg := by rw [h4]
    obtain ⟨v, g1, g2, g3, g4⟩ := decodeLoop_off n x k left (s := { u with snk := u.snk ++ [x] }) (rest := rest)
      (by rw [← ht]; exact ht') ⟨h2.count, h2.aligned⟩ h3 (by omega)
      (fun c hc => by have := hroom c (hcfg ▸ hc); simp [hsnk] at this ⊢; omega)
    refine ⟨v, by simp only [decodeLoop, ht, readSymbol, h1, hpush, g1], g2, g3, ?_⟩
    rw [g4, h4]
    have : n - (left + 1 - (k + 1)) = n - (left - k) := by omega
    rw [this]; simp [List.replicate_succ]

/-- Decoding stops at the first symbol SNK has no room for, and that symbol is lost. -/
theorem decodeLoop_full (n : Nat) (x : Byte) : ∀ (out : List Byte) (left : Nat) {s : State} {rest : List Bit}, Proper s.tree → ReaderOk s →
    (∀ y ∈ out, y ∈ syms s.tree) → x ∈ syms s.tree → sourceBits s = codeBits (codes s.tree) (out ++ [x]) ++ rest →
    out.length < left → s.cfg.snkCap = some (s.snk.length + out.length) →
    ∃ u, decodeLoop n left s = .error u ∧ ReaderOk u ∧ sourceBits u = rest ∧ u = { s with
      snk := s.snk ++ out, racc := u.racc, rcnt := u.rcnt, src := u.src, eod := false, err := 10, fault := true,
      errinfo0 := countWord (s.snk.length + out.length), errinfo1 := x.setWidth 64 }
  | [], left + 1, s, rest, hp, hr, hm, hx, hs, hlen, hc => by
    obtain ⟨u, h1, h2, h3, h4⟩ := readSymbol_found (rest := rest) hp hx hr (by simpa [codeBits] using hs)
    have hf := snkPush_full (b := x) (s := u) (c := s.snk.length) (by rw [h4]; simpa using hc) (by rw [h4])
    refine ⟨raise .sinkFull (countWord u.snk.length) (x.setWidth 64) u, by simp only [decodeLoop, h1, hf], ⟨h2.count, h2.aligned⟩, h3, ?_⟩
    conv_lhs => rw [h4]
    simp [raise, faultCode]
  | y :: out, left + 1, s, rest, hp, hr, hm, hx, hs, hlen, hc => by
    obtain ⟨u, h1, h2, h3, h4⟩ := readSymbol_found (rest := codeBits (codes s.tree) (out ++ [x]) ++ rest) hp (hm y (by simp)) hr
      (by simpa [codeBits] using hs)
    have ht : u.tree = s.tree := by rw [h4]
    have hsnk : u.snk = s.snk := by rw [h4]
    have hcfg : u.cfg = s.cfg := by rw [h4]
    have hpush := snkPush_ok (b := y) (s := u) (fun c hcc => by
      rw [hcfg, hc] at hcc; cases hcc; simp [hsnk])
    obtain ⟨v, g1, g2, g3, g4⟩ := decodeLoop_full n x out left (s := { u with snk := u.snk ++ [y] }) (rest := rest)
      (by simpa [ht] using hp) ⟨h2.count, h2.aligned⟩ (fun z hz => by simpa [ht] using hm z (by simp [hz])) (by simpa [ht] using hx)
      (by simpa [ht, sourceBits, bufferedBits] using h3) (by simpa using hlen)
      (by simp only; rw [hcfg, hc, hsnk]; simp; omega)
    refine ⟨v, by simp only [decodeLoop, h1, hpush, g1], g2, g3, ?_⟩
    rw [g4, h4]
    have : s.snk.length + 1 + out.length = s.snk.length + (out.length + 1) := by omega
    simp [this]

end Sys2Proof.Machine
end

