-- ==== Sys2Proof/Laws/Encoding.lean ====
section
/-! SUPPORT. Laws of the command word: its fields, its masks, what decoding answers. -/

namespace Sys2Proof

/-- A 32-bit word from its four bytes, the first the most significant. -/
def joinBytes (op a b z : Byte) : CommandWord := op ++ a ++ b ++ z

theorem getLsbD_joinBytes (op a b z : Byte) (i : Nat) : (joinBytes op a b z).getLsbD i =
    if i < 8 then z.getLsbD i else if i < 16 then b.getLsbD (i - 8) else if i < 24 then a.getLsbD (i - 16)
    else op.getLsbD (i - 24) := by
  show BitVec.getLsbD (w := 8 + 8 + 8 + 8) (op ++ a ++ b ++ z) _ = _
  simp only [BitVec.getLsbD_append, Nat.sub_sub]
  repeat' split
  all_goals first | rfl | (exfalso; omega)

theorem joinBytes_fields (c : CommandWord) : joinBytes (fieldOP c) (fieldA c) (fieldB c) (fieldZ c) = c := by
  apply BitVec.eq_of_getLsbD_eq
  intro i hi
  rw [getLsbD_joinBytes]
  simp only [fieldOP, fieldA, fieldB, fieldZ, BitVec.getLsbD_extractLsb']
  repeat' split
  all_goals
    rw [decide_eq_true (by omega), Bool.true_and]
    congr 1; omega

@[simp] theorem fieldOP_joinBytes (op a b z : Byte) : fieldOP (joinBytes op a b z) = op := by
  apply BitVec.eq_of_getLsbD_eq
  intro i hi
  simp only [fieldOP, BitVec.getLsbD_extractLsb', getLsbD_joinBytes, hi, decide_true, Bool.true_and]
  rw [if_neg (by omega), if_neg (by omega), if_neg (by omega)]; congr 1; omega

@[simp] theorem fieldA_joinBytes (op a b z : Byte) : fieldA (joinBytes op a b z) = a := by
  apply BitVec.eq_of_getLsbD_eq
  intro i hi
  simp only [fieldA, BitVec.getLsbD_extractLsb', getLsbD_joinBytes, hi, decide_true, Bool.true_and]
  rw [if_neg (by omega), if_neg (by omega), if_pos (by omega)]; congr 1; omega

@[simp] theorem fieldB_joinBytes (op a b z : Byte) : fieldB (joinBytes op a b z) = b := by
  apply BitVec.eq_of_getLsbD_eq
  intro i hi
  simp only [fieldB, BitVec.getLsbD_extractLsb', getLsbD_joinBytes, hi, decide_true, Bool.true_and]
  rw [if_neg (by omega), if_pos (by omega)]; congr 1; omega

@[simp] theorem fieldZ_joinBytes (op a b z : Byte) : fieldZ (joinBytes op a b z) = z := by
  apply BitVec.eq_of_getLsbD_eq
  intro i hi
  simp only [fieldZ, BitVec.getLsbD_extractLsb', getLsbD_joinBytes, hi, decide_true, Bool.true_and]
  rw [if_pos (by omega)]; congr 1; omega

theorem commandWord_eq (op a b : Byte) : commandWord op a b = joinBytes op a b 0 := rfl

theorem word_ext {c d : CommandWord} (h1 : fieldOP c = fieldOP d) (h2 : fieldA c = fieldA d) (h3 : fieldB c = fieldB d)
    (h4 : fieldZ c = fieldZ d) : c = d := by
  rw [← joinBytes_fields c, ← joinBytes_fields d, h1, h2, h3, h4]

theorem fieldOP_and (c d : CommandWord) : fieldOP (c &&& d) = fieldOP c &&& fieldOP d := by
  apply BitVec.eq_of_getLsbD_eq; intro i hi; simp [fieldOP, hi]

theorem fieldA_and (c d : CommandWord) : fieldA (c &&& d) = fieldA c &&& fieldA d := by
  apply BitVec.eq_of_getLsbD_eq; intro i hi; simp [fieldA, hi]

theorem fieldB_and (c d : CommandWord) : fieldB (c &&& d) = fieldB c &&& fieldB d := by
  apply BitVec.eq_of_getLsbD_eq; intro i hi; simp [fieldB, hi]

theorem fieldZ_and (c d : CommandWord) : fieldZ (c &&& d) = fieldZ c &&& fieldZ d := by
  apply BitVec.eq_of_getLsbD_eq; intro i hi; simp [fieldZ, hi]

/-- A masked comparison of a word is one of each of its fields. -/
theorem word_and_eq (c m p : CommandWord) : c &&& m = p ↔
    fieldOP c &&& fieldOP m = fieldOP p ∧ fieldA c &&& fieldA m = fieldA p ∧
    fieldB c &&& fieldB m = fieldB p ∧ fieldZ c &&& fieldZ m = fieldZ p := by
  constructor
  · rintro rfl; simp [fieldOP_and, fieldA_and, fieldB_and, fieldZ_and]
  · rintro ⟨h1, h2, h3, h4⟩
    exact word_ext (by rw [fieldOP_and, h1]) (by rw [fieldA_and, h2]) (by rw [fieldB_and, h3]) (by rw [fieldZ_and, h4])

theorem byte_and_ff (b : Byte) : b &&& 0xFF = b := by revert b; decide +kernel

theorem byte_and_00 (b : Byte) : b &&& 0x00 = 0 := by revert b; decide +kernel

theorem byte_and_fe (b : Byte) : b &&& 0xFE = 0 ↔ b.toNat ≤ 1 := by revert b; decide +kernel

theorem byte_and_fc (b : Byte) : b &&& 0xFC = 0 ↔ b.toNat ≤ 3 := by revert b; decide +kernel

theorem decode_undefined {c : CommandWord} (h : formatOf (fieldOP c) = none) : decode c = .illegal .undefinedOpcode := by
  unfold decode; rw [h]

theorem assemble_ne_illegal {op : Byte} {f : Format} (h : formatOf op = some f) (a b : Byte) (why : Illegal) :
    assemble op a b ≠ .illegal why := by
  unfold assemble
  split
  case h_26 => exfalso; unfold formatOf at h; split at h <;> simp_all
  all_goals first | (split_ifs <;> simp) | simp

/-- The operand checks of a format. -/
def Format.rejects (f : Format) (a b z : Byte) : Prop :=
  z ≠ 0 ∨ (f.usesA = false ∧ a ≠ 0) ∨ (f.usesB = false ∧ b ≠ 0) ∨ (f = .SK ∧ 3 < b.toNat) ∨ (f = .G ∧ 1 < b.toNat) ∨
    (f = .I ∧ 1 < a.toNat)

theorem decode_rejects {c : CommandWord} {f : Format} (h : formatOf (fieldOP c) = some f)
    (hr : f.rejects (fieldA c) (fieldB c) (fieldZ c)) : ∃ why, decode c = .illegal why := by
  unfold decode; rw [h]
  simp only []
  split_ifs with h1 h2 h3 h4 h5 <;> first | exact ⟨_, rfl⟩ | skip
  exfalso
  simp only [unusedNonzero, chunkLegal, tselLegal, bitLegal, ne_eq, not_not, Bool.or_eq_true, Bool.and_eq_true, bne_iff_ne,
    Bool.not_eq_true', not_or, not_and, decide_eq_false_iff_not, Nat.not_le] at h1 h2 h3 h4 h5
  rcases hr with h | ⟨a, b⟩ | ⟨a, b⟩ | ⟨a, b⟩ | ⟨a, b⟩ | ⟨a, b⟩
  · exact h h1
  · exact b (h2.1 a)
  · exact b (h2.2 a)
  · exact h3 a b
  · exact h4 a b
  · exact h5 a b

theorem decode_accepts {c : CommandWord} {f : Format} (h : formatOf (fieldOP c) = some f)
    (hr : ¬ f.rejects (fieldA c) (fieldB c) (fieldZ c)) : decode c = assemble (fieldOP c) (fieldA c) (fieldB c) := by
  unfold decode; rw [h]
  simp only [Format.rejects, not_or, not_and, ne_eq, not_not] at hr
  obtain ⟨a1, a2, a3, a4, a5, a6⟩ := hr
  simp only []
  split_ifs with h1 h2 h3 h4 h5
  · exact absurd a1 h1
  · simp [unusedNonzero] at h2; rcases h2 with ⟨x, y⟩ | ⟨x, y⟩
    · exact absurd (a2 x) y
    · exact absurd (a3 x) y
  · have := a4 h3.1; have := h3.2; simp [chunkLegal] at this; omega
  · have := a5 h4.1; have := h4.2; simp [tselLegal] at this; omega
  · have := a6 h5.1; have := h5.2; simp [bitLegal] at this; omega
  · rfl

theorem decode_format {c : CommandWord} {f : Format} (h : formatOf (fieldOP c) = some f) :
    ((∃ why, decode c = .illegal why) ↔ f.rejects (fieldA c) (fieldB c) (fieldZ c)) ∧
    (¬ (∃ why, decode c = .illegal why) → decode c = assemble (fieldOP c) (fieldA c) (fieldB c)) := by
  have : (∃ why, decode c = .illegal why) ↔ f.rejects (fieldA c) (fieldB c) (fieldZ c) := by
    constructor
    · rintro ⟨why, e⟩; by_contra hr
      rw [decode_accepts h hr] at e; exact assemble_ne_illegal h _ _ _ e
    · exact decode_rejects h
  exact ⟨this, fun e => decode_accepts h (fun r => e (this.2 r))⟩

theorem formatOf_cases (op : Byte) :
    (formatOf op = none ∧ op.toNat ∉ [0x00, 0x01, 0x02, 0x10, 0x11, 0x12, 0x13, 0x18, 0x19, 0x1A, 0x20, 0x21, 0x22, 0x23, 0x24, 0x25,
    0x30, 0x31, 0x32, 0x38, 0x39, 0x40, 0x41, 0x50, 0x51]) ∨
    (formatOf op = some .N ∧ op.toNat ∈ [0x00, 0x01, 0x02, 0x10, 0x11, 0x23, 0x24, 0x25, 0x30, 0x32, 0x38, 0x39, 0x40, 0x41, 0x50, 0x51]) ∨
    (formatOf op = some .S ∧ op.toNat ∈ [0x12, 0x13, 0x19, 0x1A, 0x21]) ∨
    (formatOf op = some .W ∧ op.toNat = 0x18) ∨ (formatOf op = some .SK ∧ op.toNat = 0x22) ∨ (formatOf op = some .G ∧ op.toNat = 0x20) ∨
    (formatOf op = some .I ∧ op.toNat = 0x31) := by
  revert op; decide +kernel

theorem toNat_commandWord (op a b : Byte) : (commandWord op a b).toNat = op.toNat * 2^24 + a.toNat * 2^16 + b.toNat * 2^8 := by
  have h1 := op.isLt; have h2 := a.isLt; have h3 := b.isLt
  show BitVec.toNat (op ++ a ++ b ++ (0 : Byte)) = _
  simp only [BitVec.toNat_append]
  rw [Nat.shiftLeft_eq, Nat.shiftLeft_eq, Nat.shiftLeft_eq, ← Nat.shiftLeft_eq, ← Nat.shiftLeft_eq, ← Nat.shiftLeft_eq]
  rw [← Nat.shiftLeft_add_eq_or_of_lt h2, ← Nat.shiftLeft_add_eq_or_of_lt h3, ← Nat.shiftLeft_add_eq_or_of_lt (BitVec.isLt _)]
  simp [Nat.shiftLeft_eq]; omega

end Sys2Proof
end

