-- ==== Sys2Proof/Laws/Flags.lean ====
section
/-! SUPPORT. Laws of the read-outs STATUS, WSTATE and RSTATE, bit by bit. -/

namespace Sys2Proof.Machine
open Sys2Proof

@[simp] theorem getLsbD_flagBit (b : Bool) (i : Nat) : (flagBit b).getLsbD i = (decide (i = 0) && b) := by
  cases b <;> cases i <;> simp [flagBit]

theorem getLsbD_statusWord (s : State) (i : Nat) : (statusWord s).getLsbD i =
    if i < 8 then s.err.getLsbD i else if i = 8 then s.fault else if i = 9 then s.tv else if i = 10 then s.eod
    else if i = 11 then s.syn else if i < 16 then false else s.talg.getLsbD (i - 16) := by
  have h : statusWord s = (((0 : BitVec 8) ++ s.talg ++ (0 : BitVec 4) ++ flagBit s.syn ++ flagBit s.eod ++ flagBit s.tv
    ++ flagBit s.fault ++ s.err : BitVec (8 + 8 + 4 + 1 + 1 + 1 + 1 + 8))) := rfl
  rw [h]
  have hz : ∀ k, 8 ≤ k → s.talg.getLsbD k = false := fun k hk => BitVec.getLsbD_of_ge _ _ hk
  show BitVec.getLsbD (w := 8 + 8 + 4 + 1 + 1 + 1 + 1 + 8) _ _ = _
  simp only [BitVec.getLsbD_append, getLsbD_flagBit]
  simp only [BitVec.ofNat_eq_ofNat, BitVec.getLsbD_zero, Nat.sub_sub]
  repeat' split
  all_goals first | rfl | (exfalso; omega) | skip
  all_goals (try (subst_vars; simp; done))
  all_goals (try (symm; apply hz; omega))

theorem getLsbD_wstateWord (s : State) (i : Nat) : (wstateWord s).getLsbD i =
    if i < 8 then s.wacc.getLsbD i else s.wcnt.getLsbD (i - 8) := by
  show BitVec.getLsbD (w := 4 + 4 + 8) _ _ = _
  simp only [wstateWord]
  show BitVec.getLsbD (w := 4 + 4 + 8) ((0 : BitVec 4) ++ s.wcnt ++ s.wacc) _ = _
  simp only [BitVec.getLsbD_append]
  have hz : ∀ k, 4 ≤ k → s.wcnt.getLsbD k = false := fun k hk => BitVec.getLsbD_of_ge _ _ hk
  repeat' split
  all_goals first | rfl | (symm; simp; apply hz; omega)

theorem getLsbD_rstateWord (s : State) (i : Nat) : (rstateWord s).getLsbD i =
    if i < 8 then s.racc.getLsbD i else s.rcnt.getLsbD (i - 8) := by
  show BitVec.getLsbD (w := 4 + 4 + 8) ((0 : BitVec 4) ++ s.rcnt ++ s.racc) _ = _
  simp only [BitVec.getLsbD_append]
  have hz : ∀ k, 4 ≤ k → s.rcnt.getLsbD k = false := fun k hk => BitVec.getLsbD_of_ge _ _ hk
  repeat' split
  all_goals first | rfl | (symm; simp; apply hz; omega)

end Sys2Proof.Machine
end

