-- ==== Sys2Proof/Laws/Quant.lean ====
section
/-! SUPPORT. Laws of the quantiser. -/

namespace Sys2Proof.Machine
open Sys2Proof

theorem tableGet_foldl_notMem : ∀ (l : List Weighted) (t : Table) {s : Byte}, s ∉ l.map (·.sym) →
    tableGet (l.foldl (fun t x => tableSet t x.sym (BitVec.ofNat 64 x.weight)) t) s = tableGet t s
  | [], _, _, _ => rfl
  | x :: l, t, s, h => by
    simp only [List.map_cons, List.mem_cons, not_or] at h
    rw [List.foldl_cons, tableGet_foldl_notMem l _ h.2, tableGet_tableSet_ne _ _ h.1]

theorem tableGet_foldl_mem : ∀ (l : List Weighted) (t : Table) {x : Weighted}, (l.map (·.sym)).Nodup → x ∈ l →
    tableGet (l.foldl (fun t x => tableSet t x.sym (BitVec.ofNat 64 x.weight)) t) x.sym = BitVec.ofNat 64 x.weight
  | [], _, _, _, h => by simp at h
  | y :: l, t, x, hn, h => by
    simp only [List.map_cons, List.nodup_cons] at hn
    rw [List.foldl_cons]
    rcases List.mem_cons.1 h with rfl | h
    · rw [tableGet_foldl_notMem _ _ hn.1]; simp
    · exact tableGet_foldl_mem l _ hn.2 h

theorem tableOf_notMem {l : List Weighted} {s : Byte} (h : s ∉ l.map (·.sym)) : tableGet (tableOf l) s = 0 := by
  rw [tableOf, tableGet_foldl_notMem _ _ h]; simp

theorem tableOf_mem {l : List Weighted} {x : Weighted} (hn : (l.map (·.sym)).Nodup) (h : x ∈ l) :
    tableGet (tableOf l) x.sym = BitVec.ofNat 64 x.weight := tableGet_foldl_mem _ _ hn h

theorem shiftUnit_cases (b q : Nat) (r : Int) :
    (0 < r ∧ q < b ∧ shiftUnit b q r = (q + 1, r - 1, true)) ∨ (r < 0 ∧ 1 < q ∧ shiftUnit b q r = (q - 1, r + 1, true)) ∨
    ((r = 0 ∨ 0 < r ∧ b ≤ q ∨ r < 0 ∧ q ≤ 1) ∧ shiftUnit b q r = (q, r, false)) := by
  unfold shiftUnit
  split
  · simp_all
  · split
    · simp_all
    · right; right; refine ⟨by omega, rfl⟩

theorem redistPass_spec (b : Nat) : ∀ (l : List Weighted) (r : Int), (∀ x ∈ l, 1 ≤ x.weight ∧ x.weight ≤ b) →
    (redistPass b l r).1.map (·.sym) = l.map (·.sym) ∧ (∀ x ∈ (redistPass b l r).1, 1 ≤ x.weight ∧ x.weight ≤ b) ∧
    ((totalWeight (redistPass b l r).1 : Int) + (redistPass b l r).2.1 = totalWeight l + r) ∧
    (0 ≤ r → 0 ≤ (redistPass b l r).2.1 ∧ (redistPass b l r).2.1 ≤ r) ∧ (r ≤ 0 → (redistPass b l r).2.1 ≤ 0 ∧ r ≤ (redistPass b l r).2.1) ∧
    ((redistPass b l r).2.2 = true → (redistPass b l r).2.1 ≠ r) ∧
    ((redistPass b l r).2.2 = false → (redistPass b l r).2.1 = r ∧ (0 < r → ∀ x ∈ l, x.weight = b) ∧ (r < 0 → ∀ x ∈ l, x.weight = 1))
  | [], r, _ => by simp [redistPass, totalWeight]
  | x :: l, r, h => by
    have hx := h x (by simp)
    have hl := fun y hy => h y (List.mem_cons_of_mem x hy)
    rcases shiftUnit_cases b x.weight r with ⟨h1, h2, h3⟩ | ⟨h1, h2, h3⟩ | ⟨h1, h3⟩
    · have ih := redistPass_spec b l (r - 1) hl
      rcases hp : redistPass b l (r - 1) with ⟨l', r', m⟩
      rw [hp] at ih
      simp only [redistPass, h3, hp]
      obtain ⟨a1, a2, a3, a5, a6, a7, a8⟩ := ih
      simp only at a1 a2 a3 a5 a6 a7 a8
      have a5 := a5 (by omega)
      refine ⟨by simp [a1], ?_, ?_, by omega, by omega, fun _ => by omega, by simp⟩
      · intro y hy; rcases List.mem_cons.1 hy with rfl | hy
        · simp; omega
        · exact a2 y hy
      · simp only [totalWeight, List.map_cons, List.sum_cons] at a3 ⊢; omega
    · have ih := redistPass_spec b l (r + 1) hl
      rcases hp : redistPass b l (r + 1) with ⟨l', r', m⟩
      rw [hp] at ih
      simp only [redistPass, h3, hp]
      obtain ⟨a1, a2, a3, a5, a6, a7, a8⟩ := ih
      simp only at a1 a2 a3 a5 a6 a7 a8
      have a6 := a6 (by omega)
      refine ⟨by simp [a1], ?_, ?_, by omega, by omega, fun _ => by omega, by simp⟩
      · intro y hy; rcases List.mem_cons.1 hy with rfl | hy
        · simp; omega
        · exact a2 y hy
      · simp only [totalWeight, List.map_cons, List.sum_cons] at a3 ⊢; omega
    · have ih := redistPass_spec b l r hl
      rcases hp : redistPass b l r with ⟨l', r', m⟩
      rw [hp] at ih
      simp only [redistPass, h3, hp]
      obtain ⟨a1, a2, a3, a5, a6, a7, a8⟩ := ih
      simp only at a1 a2 a3 a5 a6 a7 a8
      refine ⟨by simp [a1], ?_, ?_, a5, a6, by simpa using a7, ?_⟩
      · intro y hy; rcases List.mem_cons.1 hy with rfl | hy
        · exact hx
        · exact a2 y hy
      · simp only [totalWeight, List.map_cons, List.sum_cons] at a3 ⊢; omega
      · intro hm
        have := a8 (by simpa using hm)
        refine ⟨this.1, fun hr y hy => ?_, fun hr y hy => ?_⟩
        · rcases List.mem_cons.1 hy with rfl | hy
          · omega
          · exact this.2.1 hr y hy
        · rcases List.mem_cons.1 hy with rfl | hy
          · omega
          · exact this.2.2 hr y hy

theorem totalWeight_const {l : List Weighted} {c : Nat} (h : ∀ x ∈ l, x.weight = c) : totalWeight l = l.length * c := by
  induction l with
  | nil => simp [totalWeight]
  | cons x l ih =>
    have := ih (fun y hy => h y (by simp [hy]))
    simp [totalWeight] at this ⊢
    rw [this, h x (by simp)]; ring

theorem redistLoop_spec (b : Nat) : ∀ (fuel : Nat) (l : List Weighted) (r : Int), (∀ x ∈ l, 1 ≤ x.weight ∧ x.weight ≤ b) →
    r.natAbs ≤ fuel →
    (redistLoop b fuel l r).map (·.sym) = l.map (·.sym) ∧ (∀ x ∈ redistLoop b fuel l r, 1 ≤ x.weight ∧ x.weight ≤ b) ∧
    ((totalWeight l : Int) + r = b → 1 ≤ l.length → l.length ≤ b → totalWeight (redistLoop b fuel l r) = b)
  | 0, l, r, h, hf => by
    have : r = 0 := by omega
    subst this
    refine ⟨rfl, h, ?_⟩
    intro h _ _; simp [redistLoop]; omega
  | fuel + 1, l, r, h, hf => by
    have ih := redistPass_spec b l r h
    rcases hp : redistPass b l r with ⟨l', r', m⟩
    rw [hp] at ih
    obtain ⟨a1, a2, a3, a5, a6, a7, a8⟩ := ih
    simp only at a1 a2 a3 a5 a6 a7 a8
    simp only [redistLoop, hp]
    split
    · next hc =>
      refine ⟨a1, a2, ?_⟩
      intro hb hl hlb
      rcases hc with hc | hc
      · omega
      · obtain ⟨e1, e2, e3⟩ := a8 hc
        rcases lt_trichotomy r 0 with hr | hr | hr
        · have := totalWeight_const (e3 hr); omega
        · omega
        · have := totalWeight_const (e2 hr)
          have : b ≤ l.length * b := Nat.le_mul_of_pos_left b hl
          omega
    · next hc =>
      simp only [not_or, Bool.not_eq_false] at hc
      have hlen : l'.length = l.length := by simpa using congrArg List.length a1
      obtain ⟨b1, b2, b3⟩ := redistLoop_spec b fuel l' r' a2 (by have := a7 hc.2; omega)
      exact ⟨b1.trans a1, b2, fun hb hl hlb => b3 (by omega) (by omega) (by omega)⟩

theorem scaleOne_bound {b : Nat} (hb : 1 ≤ b) (d : Nat) (x : Weighted) : 1 ≤ (scaleOne b d x).weight ∧ (scaleOne b d x).weight ≤ b := by
  simp [scaleOne, clamp]; omega

theorem scaledValues_spec {l : List Weighted} {w : Nat} (hw : 1 ≤ w) :
    ((scaledValues l w).map (·.sym)).Perm (l.map (·.sym)) ∧ (∀ x ∈ scaledValues l w, 1 ≤ x.weight ∧ x.weight ≤ bound w) ∧
    (w < 8 → 1 ≤ l.length → l.length ≤ bound w → totalWeight (scaledValues l w) = bound w) := by
  have hb : 1 ≤ bound w := by
    have : 2 ^ 1 ≤ 2 ^ w := Nat.pow_le_pow_right (by omega) hw
    simp [bound]; omega
  have hq : ∀ x ∈ (ranked l).map (scaleOne (bound w) (divisor l (bound w))), 1 ≤ x.weight ∧ x.weight ≤ bound w := by
    intro x hx
    simp only [List.mem_map] at hx
    obtain ⟨y, _, rfl⟩ := hx
    exact scaleOne_bound hb _ _
  have hs : (((ranked l).map (scaleOne (bound w) (divisor l (bound w)))).map (·.sym)).Perm (l.map (·.sym)) := by
    rw [List.map_map]; exact (ranked_perm l).map _
  have hlen : ((ranked l).map (scaleOne (bound w) (divisor l (bound w)))).length = l.length := by
    simpa using (ranked_perm l).length_eq
  unfold scaledValues
  simp only
  split
  · next hc =>
    obtain ⟨a1, a2, a3⟩ := redistLoop_spec (bound w) _ _ _ hq (le_refl ((bound w : Int) - (totalWeight ((ranked l).map (scaleOne (bound w) (divisor l (bound w)))) : Int)).natAbs)
    exact ⟨by rw [redistribute, a1]; exact hs, a2, fun _ h1 h2 => a3 (by omega) (by omega) (by omega)⟩
  · next hc => exact ⟨hs, hq, fun h1 _ h2 => absurd ⟨h1, h2⟩ hc⟩

theorem bound_lt {w : Nat} (h : w ≤ 64) : bound w < 2 ^ 64 := by
  have := Nat.pow_le_pow_right (n := 2) (by omega) h
  have : 0 < 2 ^ w := by positivity
  simp only [bound]; omega

theorem le_foldl_max (l : List Nat) (a : Nat) : a ≤ l.foldl max a ∧ ∀ x ∈ l, x ≤ l.foldl max a := by
  induction l generalizing a with
  | nil => simp
  | cons y l ih =>
    have := ih (max a y)
    refine ⟨by simp; omega, ?_⟩
    intro x hx; rcases List.mem_cons.1 hx with rfl | hx
    · simp; omega
    · exact this.2 x hx

theorem foldl_max_le (l : List Nat) (a c : Nat) (ha : a ≤ c) (h : ∀ x ∈ l, x ≤ c) : l.foldl max a ≤ c := by
  induction l generalizing a with
  | nil => simpa
  | cons y l ih => exact ih _ (by have := h y (by simp); omega) (fun x hx => h x (by simp [hx]))

theorem maxWeight_le_iff {l : List Weighted} {c : Nat} : maxWeight l ≤ c ↔ ∀ x ∈ l, x.weight ≤ c := by
  constructor
  · intro h x hx
    exact le_trans ((le_foldl_max (l.map (fun x : Weighted => x.weight)) 0).2 x.weight (List.mem_map.2 ⟨x, hx, rfl⟩)) h
  · intro h
    exact foldl_max_le _ _ _ (by omega) (by simpa using h)

theorem maxWeight_present_le {f : Table} {c : Nat} : maxWeight (presentSymbols f) ≤ c ↔ ∀ s, (tableGet f s).toNat ≤ c := by
  rw [maxWeight_le_iff]
  constructor
  · intro h s
    rcases Nat.eq_zero_or_pos (tableGet f s).toNat with h0 | h0
    · omega
    · exact h ⟨s, (tableGet f s).toNat⟩ (mem_presentSymbols.2 ⟨rfl, h0⟩)
  · intro h x hx
    rw [(mem_presentSymbols.1 hx).1]; exact h _

theorem sum_map_allSymbols_perm {l : List Weighted} (hn : (l.map (·.sym)).Nodup) (hb : ∀ x ∈ l, x.weight < 2^64) :
    (allSymbols.map fun s => (tableGet (tableOf l) s).toNat).sum = totalWeight l := by
  have h1 : (allSymbols.map fun s => (tableGet (tableOf l) s).toNat).sum =
      ∑ s : Byte, (tableGet (tableOf l) s).toNat := by
    rw [← List.sum_toFinset _ nodup_allSymbols, Finset.eq_univ_of_forall (s := allSymbols.toFinset) (by simp)]
  have h2 : totalWeight l = ((l.map (·.sym)).map fun s => (tableGet (tableOf l) s).toNat).sum := by
    rw [List.map_map, totalWeight]
    refine congrArg List.sum (List.map_congr_left ?_)
    intro x hx
    simp only [Function.comp]
    rw [tableOf_mem hn hx, BitVec.toNat_ofNat, Nat.mod_eq_of_lt (hb x hx)]
  rw [h1, h2, ← List.sum_toFinset _ hn]
  symm
  apply Finset.sum_subset (Finset.subset_univ _)
  intro s _ hs
  rw [tableOf_notMem (by simpa using hs)]; simp

/-- What one walk takes: one unit from each of the first `k` values, never below 1. -/
theorem redistPass_down (b : Nat) : ∀ (l : List Weighted) (r : Int), r ≤ 0 → (∀ x ∈ l, 1 ≤ x.weight) →
    ∃ k, (redistPass b l r).1 = l.mapIdx (fun j x => ⟨x.sym, max 1 (x.weight - if j < k then 1 else 0)⟩) ∧
      (r = 0 → k = 0 ∧ (redistPass b l r).2.1 = 0) ∧ ((redistPass b l r).2.1 = 0 ∨ l.length ≤ k)
  | [], r, _, _ => ⟨0, by simp [redistPass]⟩
  | x :: l, r, hr, h => by
    have hx := h x (by simp)
    have hl := fun y hy => h y (List.mem_cons_of_mem x hy)
    have key : ∀ (q : Nat) (r1 : Int) (m : Bool), shiftUnit b x.weight r = (q, r1, m) → r1 ≤ 0 → (r = 0 → r1 = 0) →
        (r = 0 → q = x.weight) → (r ≠ 0 → q = max 1 (x.weight - 1)) →
        ∃ k, (redistPass b (x :: l) r).1 = (x :: l).mapIdx (fun j x => ⟨x.sym, max 1 (x.weight - if j < k then 1 else 0)⟩) ∧
          (r = 0 → k = 0 ∧ (redistPass b (x :: l) r).2.1 = 0) ∧ ((redistPass b (x :: l) r).2.1 = 0 ∨ (x :: l).length ≤ k) := by
      intro q r1 m e h1 h2 h3 h4
      obtain ⟨k, a1, a2, a3⟩ := redistPass_down b l r1 h1 hl
      rcases hp : redistPass b l r1 with ⟨l', r', m'⟩
      rw [hp] at a1 a2 a3
      simp only at a1 a2 a3
      by_cases h0 : r = 0
      · obtain ⟨hk, hz⟩ := a2 (h2 h0)
        subst hk
        have hz' : (redistPass b (x :: l) r).2.1 = 0 := by simp only [redistPass, e, hp]; exact hz
        refine ⟨0, ?_, fun _ => ⟨rfl, hz'⟩, .inl hz'⟩
        simp [redistPass, e, hp, a1, List.mapIdx_cons, h3 h0]; omega
      · refine ⟨k + 1, ?_, fun h => absurd h h0, ?_⟩
        · simp [redistPass, e, hp, a1, List.mapIdx_cons, h4 h0]
        · simp only [redistPass, e, hp, List.length_cons]; omega
    rcases shiftUnit_cases b x.weight r with ⟨h1, h2, h3⟩ | ⟨h1, h2, h3⟩ | ⟨h1, h3⟩
    · omega
    · exact key _ _ _ h3 (by omega) (by omega) (by omega) (by omega)
    · exact key _ _ _ h3 hr id (fun _ => rfl) (by omega)

/-- What one walk gives: one unit to each of the first `k` values, never above the bound. -/
theorem redistPass_up (b : Nat) : ∀ (l : List Weighted) (r : Int), 0 ≤ r → (∀ x ∈ l, x.weight ≤ b) →
    ∃ k, (redistPass b l r).1 = l.mapIdx (fun j x => ⟨x.sym, min b (x.weight + if j < k then 1 else 0)⟩) ∧
      (r = 0 → k = 0 ∧ (redistPass b l r).2.1 = 0) ∧ ((redistPass b l r).2.1 = 0 ∨ l.length ≤ k)
  | [], r, _, _ => ⟨0, by simp [redistPass]⟩
  | x :: l, r, hr, h => by
    have hx := h x (by simp)
    have hl := fun y hy => h y (List.mem_cons_of_mem x hy)
    have key : ∀ (q : Nat) (r1 : Int) (m : Bool), shiftUnit b x.weight r = (q, r1, m) → 0 ≤ r1 → (r = 0 → r1 = 0) →
        (r = 0 → q = x.weight) → (r ≠ 0 → q = min b (x.weight + 1)) →
        ∃ k, (redistPass b (x :: l) r).1 = (x :: l).mapIdx (fun j x => ⟨x.sym, min b (x.weight + if j < k then 1 else 0)⟩) ∧
          (r = 0 → k = 0 ∧ (redistPass b (x :: l) r).2.1 = 0) ∧ ((redistPass b (x :: l) r).2.1 = 0 ∨ (x :: l).length ≤ k) := by
      intro q r1 m e h1 h2 h3 h4
      obtain ⟨k, a1, a2, a3⟩ := redistPass_up b l r1 h1 hl
      rcases hp : redistPass b l r1 with ⟨l', r', m'⟩
      rw [hp] at a1 a2 a3
      simp only at a1 a2 a3
      by_cases h0 : r = 0
      · obtain ⟨hk, hz⟩ := a2 (h2 h0)
        subst hk
        have hz' : (redistPass b (x :: l) r).2.1 = 0 := by simp only [redistPass, e, hp]; exact hz
        refine ⟨0, ?_, fun _ => ⟨rfl, hz'⟩, .inl hz'⟩
        simp [redistPass, e, hp, a1, List.mapIdx_cons, h3 h0]; omega
      · refine ⟨k + 1, ?_, fun h => absurd h h0, ?_⟩
        · simp [redistPass, e, hp, a1, List.mapIdx_cons, h4 h0]
        · simp only [redistPass, e, hp, List.length_cons]; omega
    rcases shiftUnit_cases b x.weight r with ⟨h1, h2, h3⟩ | ⟨h1, h2, h3⟩ | ⟨h1, h3⟩
    · exact key _ _ _ h3 (by omega) (by omega) (by omega) (by omega)
    · omega
    · exact key _ _ _ h3 hr id (fun _ => rfl) (by omega)

end Sys2Proof.Machine
end

