-- ==== Sys2Proof/Laws/Serial.lean ====
section
/-! SUPPORT. Laws of the serial form and its parser. -/

namespace Sys2Proof.Machine
open Sys2Proof

/-- The number of internal nodes. -/
def internals : CodeTree → Nat
  | .leaf _ => 0
  | .node l r => internals l + internals r + 1

theorem internals_add_one (t : CodeTree) : internals t + 1 = (syms t).length := by
  induction t with
  | leaf => rfl
  | node l r h1 h2 => simp [internals, syms]; omega

theorem serial_length (t : CodeTree) : (serial t).length + 1 = 3 * (syms t).length := by
  induction t with
  | leaf => rfl
  | node l r h1 h2 => simp [serial, syms]; omega

theorem parse_serial : ∀ (t : CodeTree) (fuel : Nat) (ld : Loader) (rest : List Byte),
    ld.src = serial t ++ rest → (syms t).Nodup → (∀ s ∈ syms t, s ∉ ld.seen) → ld.internals + internals t ≤ 255 →
    (serial t).length ≤ fuel →
    parse fuel ld = .tree t ⟨rest, (syms t).reverse ++ ld.seen, ld.internals + internals t, ld.consumed + (serial t).length⟩
  | .leaf s, fuel, ld, rest, h, _, hs, hi, hf => by
    obtain ⟨fuel, rfl⟩ : ∃ k, fuel = k + 1 := ⟨fuel - 1, by simp [serial] at hf; omega⟩
    have := hs s (by simp [syms])
    simp [parse, h, serial, parseLeaf, consume, this, syms, internals]
  | .node l r, fuel, ld, rest, h, hp, hs, hi, hf => by
    obtain ⟨fuel, rfl⟩ : ∃ k, fuel = k + 1 := ⟨fuel - 1, by simp [serial] at hf; omega⟩
    simp only [syms, List.nodup_append] at hp
    simp only [syms, List.mem_append] at hs
    simp only [internals] at hi
    simp only [serial, List.length_append, List.length_cons, List.length_nil] at hf
    have h1 := parse_serial l fuel ⟨serial l ++ (serial r ++ rest), ld.seen, ld.internals + 1, ld.consumed + 1⟩ (serial r ++ rest) rfl hp.1
      (fun s hs' => hs s (.inl hs')) (by simp; omega) (by omega)
    have h2 := parse_serial r fuel ⟨serial r ++ rest, (syms l).reverse ++ ld.seen, ld.internals + 1 + internals l, ld.consumed + 1 + (serial l).length⟩ rest rfl hp.2.1
      (fun s hs' => by
        simp only [List.mem_append, List.mem_reverse, not_or]
        exact ⟨fun hl => hp.2.2 s hl s hs' rfl, hs s (.inr hs')⟩) (by simp; omega) (by omega)
    have hni : ¬ 255 < ld.internals + 1 := by omega
    simp only [parse, h, serial, List.append_assoc, List.cons_append, List.nil_append, consume, hni, if_false, h1, h2]
    simp [syms, internals]
    omega

theorem parseSource_serial {t : CodeTree} (hp : Proper t) (rest : List Byte) :
    parseSource (serial t ++ rest) = .tree t ⟨rest, (syms t).reverse, internals t, (serial t).length⟩ := by
  have h1 := internals_add_one t
  have h2 := length_syms_le hp
  have := parse_serial t ((serial t ++ rest).length + 1) ⟨serial t ++ rest, [], 0, 0⟩ rest rfl hp (by simp) (by simp; omega) (by simp; omega)
  simpa [parseSource] using this

theorem parseLeaf_nil {ld : Loader} (h : ld.src = []) : parseLeaf ld = parseTruncated ld := by simp [parseLeaf, h]

theorem parseLeaf_seen {ld : Loader} {s : Byte} {rest : List Byte} (h : ld.src = s :: rest) (hs : s ∈ ld.seen) :
    parseLeaf ld = .failed .invalidTree 2 (ld.consumed + 1) (consume rest ld) := by simp [parseLeaf, h, hs]

theorem parseLeaf_new {ld : Loader} {s : Byte} {rest : List Byte} (h : ld.src = s :: rest) (hs : s ∉ ld.seen) :
    parseLeaf ld = .tree (.leaf s) { consume rest ld with seen := s :: ld.seen } := by simp [parseLeaf, h, hs]

/-- Everything the parser can end in: the tree whose serial form it consumed, or the bytes consumed before a fault. -/
theorem parse_sound : ∀ (fuel : Nat) (ld : Loader),
    match parse fuel ld with
    | .tree t ld' => ld.src = serial t ++ ld'.src ∧ (ld.seen.Nodup → ld'.seen.Nodup) ∧ ld'.seen = (syms t).reverse ++ ld.seen ∧
        ld'.internals = ld.internals + internals t ∧ ld'.consumed = ld.consumed + (serial t).length ∧ (internals t = 0 ∨ ld'.internals ≤ 255)
    | .failed k e0 e1 ld' => (∃ gone, ld.src = gone ++ ld'.src ∧ ld'.consumed = ld.consumed + gone.length ∧
         gone.length + ld.internals + 2 * ld.seen.length ≤ ld'.internals + 2 * ld'.seen.length + 2) ∧ e1 = ld'.consumed ∧
        (ld.internals ≤ 255 → ld'.internals ≤ 256) ∧ (ld.seen.Nodup → ld'.seen.Nodup) ∧
        ((k = .truncatedInput ∧ e0 = 0 ∧ (ld.src.length < fuel → ld'.src = [])) ∨ (k = .invalidTree ∧ (e0 = 1 ∨ e0 = 2 ∨ e0 = 3)))
  | 0, ld => by simp [parse, parseTruncated]; omega
  | fuel + 1, ld => by
    unfold parse
    cases hsrc : ld.src with
    | nil => simp [parseTruncated, hsrc]; omega
    | cons m rest =>
      simp only
      by_cases h1 : m = 1
      · subst h1
        simp only [if_true]
        cases rest with
        | nil =>
          rw [parseLeaf_nil rfl]
          exact ⟨⟨[1], by simp [consume], by simp [consume], by simp [consume]; omega⟩, rfl, by simp [consume]; omega, by simp [consume],
            .inl ⟨rfl, rfl, fun _ => rfl⟩⟩
        | cons s rest =>
          by_cases hs : s ∈ ld.seen
          · rw [parseLeaf_seen (ld := consume (s :: rest) ld) (rest := rest) rfl hs]
            exact ⟨⟨[1, s], by simp [consume], by simp [consume], by simp [consume]; omega⟩, rfl, by simp [consume]; omega, by simp [consume],
              .inr ⟨rfl, by simp⟩⟩
          · rw [parseLeaf_new (ld := consume (s :: rest) ld) (rest := rest) rfl hs]
            simp [consume, hs, serial, syms, internals]
      · rw [if_neg h1]
        by_cases h0 : m = 0
        · subst h0
          simp only [if_true, consume]
          by_cases hi : 255 < ld.internals + 1
          · simp only [hi, if_true]
            refine ⟨⟨[0], by simp, by simp, by simp; omega⟩, by simp, by simp; omega, by simp, by simp⟩
          · simp only [hi, if_false]
            have ih1 := parse_sound fuel ⟨rest, ld.seen, ld.internals + 1, ld.consumed + 1⟩
            cases hp1 : parse fuel ⟨rest, ld.seen, ld.internals + 1, ld.consumed + 1⟩ with
            | failed k e0 e1 ld1 =>
              rw [hp1] at ih1
              obtain ⟨⟨gone, g1, g2, g3⟩, h2, h3, h4, h5⟩ := ih1
              refine ⟨⟨0 :: gone, by simpa using g1, by simp [g2]; omega, by simp at g3 ⊢; omega⟩, h2, fun _ => h3 (by simp; omega), h4, ?_⟩
              rcases h5 with ⟨a, b, c⟩ | h5
              · exact .inl ⟨a, b, fun h => c (by simp at h ⊢; omega)⟩
              · exact .inr h5
            | tree l ld1 =>
              rw [hp1] at ih1
              simp only at ih1 ⊢
              obtain ⟨a1, a2, a3, a4, a5, a6⟩ := ih1
              have ih2 := parse_sound fuel ld1
              have hl := internals_add_one l
              have hl2 := serial_length l
              have hseen : ld1.seen.length = (syms l).length + ld.seen.length := by rw [a3]; simp
              cases hp2 : parse fuel ld1 with
              | failed k e0 e1 ld2 =>
                rw [hp2] at ih2
                obtain ⟨⟨gone, g1, g2, g3⟩, h2, h3, h4, h5⟩ := ih2
                simp only at *
                refine ⟨⟨0 :: (serial l ++ gone), by rw [a1, g1]; simp, by simp; omega, by simp at g3 ⊢; omega⟩, h2, fun _ => h3 (by omega), fun h => h4 (a2 h), ?_⟩
                rcases h5 with ⟨a, b, c⟩ | h5
                · refine .inl ⟨a, b, fun h => c ?_⟩
                  have := congrArg List.length a1; simp at this h; omega
                · exact .inr h5
              | tree r ld2 =>
                rw [hp2] at ih2
                obtain ⟨b1, b2, b3, b4, b5, b6⟩ := ih2
                simp only at *
                refine ⟨by rw [a1, b1]; simp [serial], fun h => b2 (a2 h), by rw [b3, a3]; simp [syms], by simp [internals]; omega, by simp [serial]; omega, .inr (by omega)⟩
        · rw [if_neg h0]
          exact ⟨⟨[m], by simp [consume], by simp [consume], by simp [consume]; omega⟩, rfl, by simp [consume]; omega, by simp [consume], .inr ⟨rfl, by simp⟩⟩

theorem parse_proper {src : List Byte} {t : CodeTree} {ld : Loader} (h : parseSource src = .tree t ld) :
    Proper t ∧ src = serial t ++ ld.src := by
  have hs := parse_sound (src.length + 1) ⟨src, [], 0, 0⟩
  rw [parseSource] at h
  rw [h] at hs
  obtain ⟨a1, a2, a3, _⟩ := hs
  refine ⟨?_, a1⟩
  have := a2 (by simp)
  rw [a3] at this
  simpa using this

theorem prefix_append_cases {α : Type} {q a b : List α} (h : q <+: a ++ b) : q <+: a ∨ ∃ w, q = a ++ w ∧ w <+: b := by
  rcases Nat.le_total q.length a.length with hl | hl
  · exact .inl (List.prefix_of_prefix_length_le h (List.prefix_append _ _) hl)
  · obtain ⟨w, rfl⟩ := List.prefix_of_prefix_length_le (List.prefix_append a b) h hl
    exact .inr ⟨w, rfl, (List.prefix_append_right_inj _).1 h⟩

/-- The markers of a whole tree. -/
def markers : CodeTree → List (Option Byte)
  | .leaf x => [some x]
  | .node l r => none :: (markers l ++ markers r)

theorem markerBytes_cons (m : Option Byte) (p : List (Option Byte)) :
    markerBytes (m :: p) = m.elim [0] (fun x => [1, x]) ++ markerBytes p := rfl

theorem markerBytes_append (p q : List (Option Byte)) : markerBytes (p ++ q) = markerBytes p ++ markerBytes q := by
  simp [markerBytes]

theorem markerBytes_markers (t : CodeTree) : markerBytes (markers t) = serial t := by
  induction t with
  | leaf => rfl
  | node l r h1 h2 => simp [markers, markerBytes_cons, markerBytes_append, serial, h1, h2]

theorem markers_syms (t : CodeTree) : (markers t).reduceOption = syms t := by
  induction t with
  | leaf => rfl
  | node l r h1 h2 => simp [markers, syms, h1, h2, List.reduceOption_append]

theorem markers_count (t : CodeTree) : (markers t).count none = internals t := by
  induction t with
  | leaf => rfl
  | node l r h1 h2 => simp [markers, internals, h1, h2]

/-- No beginning of the markers is a whole tree. -/
def Open (p : List (Option Byte)) : Prop := ∀ q, q <+: p → q.reduceOption.length ≤ q.count none

theorem open_nil : Open [] := fun q h => by simp [List.prefix_nil.1 h]

theorem Open.node {p : List (Option Byte)} (h : Open p) : Open (none :: p) := by
  intro q hq
  cases q with
  | nil => simp
  | cons m q =>
    obtain ⟨rfl, hq'⟩ := List.cons_prefix_cons.1 hq
    have := h q hq'
    simp; omega

theorem le_of_prefix_markers : ∀ (t : CodeTree) (q : List (Option Byte)), q <+: markers t →
    q.reduceOption.length ≤ q.count none + 1
  | .leaf x, q, h => by
    simp only [markers] at h
    have := h.length_le
    match q with
    | [] => simp
    | [m] => cases m <;> simp [List.reduceOption]
    | _ :: _ :: _ => simp at this
  | .node l r, [], h => by simp
  | .node l r, m :: q, h => by
    obtain ⟨rfl, hq⟩ := List.cons_prefix_cons.1 h
    simp only [List.reduceOption_cons_of_none, List.count_cons_self]
    rcases prefix_append_cases hq with h1 | ⟨w, rfl, hw⟩
    · have := le_of_prefix_markers l q h1; omega
    · have h1 := internals_add_one l
      have := le_of_prefix_markers r w hw
      simp only [List.reduceOption_append, List.length_append, List.count_append, markers_syms, markers_count]; omega

theorem Open.right {p : List (Option Byte)} (h : Open p) (l : CodeTree) : Open (none :: (markers l ++ p)) := by
  intro q hq
  cases q with
  | nil => simp
  | cons m q =>
    obtain ⟨rfl, hq'⟩ := List.cons_prefix_cons.1 hq
    simp only [List.reduceOption_cons_of_none, List.count_cons_self]
    rcases prefix_append_cases hq' with h1 | ⟨w, rfl, hw⟩
    · exact le_of_prefix_markers l q h1
    · have h1 := internals_add_one l
      have := h w hw
      simp only [List.reduceOption_append, List.length_append, List.count_append, markers_syms, markers_count]; omega

/-- Everything a parse can fault on: the markers it read, whole by none of their beginnings, and what came after them. -/
def FaultsAt (ld : Loader) (k : FaultKind) (e0 : Nat) (ld' : Loader) (p : List (Option Byte)) (gone : List Byte) : Prop :=
  Open p ∧ (p.reduceOption ++ ld.seen).Nodup ∧ ld.internals + p.count none ≤ 255 ∧
  ((k = .truncatedInput ∧ e0 = 0 ∧ ld'.src = [] ∧ (gone = markerBytes p ∨ gone = markerBytes p ++ [1])) ∨
   (k = .invalidTree ∧ e0 = 1 ∧ ∃ m, m ≠ 0 ∧ m ≠ 1 ∧ gone = markerBytes p ++ [m]) ∨
   (k = .invalidTree ∧ e0 = 2 ∧ ∃ x, (x ∈ ld.seen ∨ some x ∈ p) ∧ gone = markerBytes p ++ [1, x]) ∨
   (k = .invalidTree ∧ e0 = 3 ∧ ld.internals + p.count none = 255 ∧ gone = markerBytes p ++ [0]))

theorem parse_faults : ∀ (fuel : Nat) (ld ld' : Loader) (k : FaultKind) (e0 e1 : Nat), ld.src.length < fuel → ld.seen.Nodup →
    ld.internals ≤ 255 → parse fuel ld = .failed k e0 e1 ld' → ∃ p gone, ld.src = gone ++ ld'.src ∧ FaultsAt ld k e0 ld' p gone
  | 0, _, _, _, _, _, h, _, _, _ => by omega
  | fuel + 1, ld, ld', k, e0, e1, hf, hn, hi, h => by
    unfold parse at h
    cases hsrc : ld.src with
    | nil =>
      rw [hsrc] at h
      simp only [parseTruncated, Parsed.failed.injEq] at h
      obtain ⟨rfl, rfl, rfl, rfl⟩ := h
      exact ⟨[], [], by simp [hsrc], open_nil, by simpa, by simpa, .inl ⟨rfl, rfl, hsrc, .inl rfl⟩⟩
    | cons m rest =>
      rw [hsrc] at h
      simp only at h
      by_cases h1 : m = 1
      · subst h1
        simp only [if_true] at h
        cases rest with
        | nil =>
          rw [parseLeaf_nil rfl] at h
          simp only [parseTruncated, Parsed.failed.injEq] at h
          obtain ⟨rfl, rfl, rfl, rfl⟩ := h
          exact ⟨[], [1], by simp [consume], open_nil, by simpa, by simpa, .inl ⟨rfl, rfl, rfl, .inr rfl⟩⟩
        | cons s rest =>
          by_cases hs : s ∈ ld.seen
          · rw [parseLeaf_seen (ld := consume (s :: rest) ld) (rest := rest) rfl hs] at h
            simp only [Parsed.failed.injEq] at h
            obtain ⟨rfl, rfl, rfl, rfl⟩ := h
            exact ⟨[], [1, s], by simp [consume], open_nil, by simpa, by simpa, .inr (.inr (.inl ⟨rfl, rfl, s, .inl hs, rfl⟩))⟩
          · rw [parseLeaf_new (ld := consume (s :: rest) ld) (rest := rest) rfl hs] at h
            cases h
      · rw [if_neg h1] at h
        by_cases h0 : m = 0
        · subst h0
          simp only [if_true, consume] at h
          by_cases hi2 : 255 < ld.internals + 1
          · simp only [hi2, if_true, Parsed.failed.injEq] at h
            obtain ⟨rfl, rfl, rfl, rfl⟩ := h
            exact ⟨[], [0], by simp, open_nil, by simpa, by simpa, .inr (.inr (.inr ⟨rfl, rfl, by simp; omega, rfl⟩))⟩
          · simp only [hi2, if_false] at h
            have hs1 := parse_sound fuel ⟨rest, ld.seen, ld.internals + 1, ld.consumed + 1⟩
            have hlen : rest.length < fuel := by rw [hsrc] at hf; simpa using hf
            cases hp1 : parse fuel ⟨rest, ld.seen, ld.internals + 1, ld.consumed + 1⟩ with
            | failed k1 a0 a1 ld1 =>
              rw [hp1] at h
              simp only [Parsed.failed.injEq] at h
              obtain ⟨rfl, rfl, rfl, rfl⟩ := h
              obtain ⟨p, gone, g1, g2, g3, g4, g5⟩ := parse_faults fuel ⟨rest, ld.seen, ld.internals + 1, ld.consumed + 1⟩ _ _ _ _ hlen hn (by simp only; omega) hp1
              simp only at g1 g3 g4 g5
              refine ⟨none :: p, 0 :: gone, by rw [g1]; rfl, g2.node, by simpa using g3, by simp; omega, ?_⟩
              rcases g5 with ⟨a, b, c, d⟩ | ⟨a, b, m, c, d, e⟩ | ⟨a, b, x, c, d⟩ | ⟨a, b, c, d⟩
              · exact .inl ⟨a, b, c, by rcases d with rfl | rfl <;> simp [markerBytes_cons]⟩
              · exact .inr (.inl ⟨a, b, m, c, d, by simp [markerBytes_cons, e]⟩)
              · exact .inr (.inr (.inl ⟨a, b, x, by simpa using c, by simp [markerBytes_cons, d]⟩))
              · exact .inr (.inr (.inr ⟨a, b, by simp; omega, by simp [markerBytes_cons, d]⟩))
            | tree l ld1 =>
              rw [hp1] at h hs1
              simp only at h hs1
              obtain ⟨a1, a2, a3, a4, a5, a6⟩ := hs1
              have hl1 : ld1.src.length < fuel := by have := congrArg List.length a1; simp at this; omega
              cases hp2 : parse fuel ld1 with
              | tree r ld2 => rw [hp2] at h; cases h
              | failed k1 b0 b1 ld2 =>
                rw [hp2] at h
                simp only [Parsed.failed.injEq] at h
                obtain ⟨rfl, rfl, rfl, rfl⟩ := h
                obtain ⟨p, gone, g1, g2, g3, g4, g5⟩ := parse_faults fuel _ _ _ _ _ hl1 (a2 hn) (by omega) hp2
                have hr : (none :: (markers l ++ p)).reduceOption = syms l ++ p.reduceOption := by
                  simp [List.reduceOption_append, markers_syms]
                have hb : markerBytes (none :: (markers l ++ p)) = 0 :: (serial l ++ markerBytes p) := by
                  simp [markerBytes_cons, markerBytes_append, markerBytes_markers]
                have hc : (none :: (markers l ++ p)).count none = internals l + p.count none + 1 := by simp [markers_count]
                refine ⟨none :: (markers l ++ p), 0 :: (serial l ++ gone), by rw [a1, g1]; simp, g2.right l, ?_, by omega, ?_⟩
                · rw [a3] at g3; rw [hr]
                  refine (List.Perm.nodup_iff ?_).1 g3
                  refine (List.Perm.append_left _ ((List.reverse_perm _).append_right _)).trans ?_
                  rw [← List.append_assoc]; exact List.perm_append_comm.append_right _
                · rcases g5 with ⟨a, b, c, d⟩ | ⟨a, b, m, c, d, e⟩ | ⟨a, b, x, c, d⟩ | ⟨a, b, c, d⟩
                  · exact .inl ⟨a, b, c, by rcases d with rfl | rfl <;> simp [hb]⟩
                  · exact .inr (.inl ⟨a, b, m, c, d, by simp [hb, e]⟩)
                  · refine .inr (.inr (.inl ⟨a, b, x, ?_, by simp [hb, d]⟩))
                    rcases c with c | c
                    · rw [a3] at c
                      rcases List.mem_append.1 c with c | c
                      · right
                        have : x ∈ syms l := by simpa using c
                        rw [← markers_syms, List.reduceOption_mem_iff] at this
                        simp [this]
                      · exact .inl c
                    · right; simp [c]
                  · exact .inr (.inr (.inr ⟨a, b, by omega, by simp [hb, d]⟩))
        · rw [if_neg h0] at h
          simp only [Parsed.failed.injEq] at h
          obtain ⟨rfl, rfl, rfl, rfl⟩ := h
          exact ⟨[], [m], by simp [consume], open_nil, by simpa, by simpa, .inr (.inl ⟨rfl, rfl, m, h0, h1, rfl⟩)⟩

end Sys2Proof.Machine
end

