-- ==== Sys2Proof/Laws/Machine.lean ====
section
/-! SUPPORT. Laws of the commands and of a step: what each can change, and that each completes. -/

namespace Sys2Proof.Machine
open Sys2Proof

theorem withTree_valid {s : State} (h : s.tv = true) (go : State → Outcome) : withTree s go = go s := by
  simp [withTree, h]

theorem withTree_none {s : State} (h : s.tv = false) (go : State → Outcome) :
    withTree s go = .next (raise .noTree 0 0 s) := by
  simp [withTree, h]

/-- The fault record after a command that is neither CLRF nor SRST: as it was, or that of a fault of the command. -/
def FaultRecord (s t : State) : Prop :=
  (t.err = s.err ∧ t.fault = s.fault ∧ t.errinfo0 = s.errinfo0 ∧ t.errinfo1 = s.errinfo1) ∨
  (t.fault = true ∧ 2 ≤ t.err.toNat ∧ t.err.toNat ≤ 9) ∨
  (t.fault = true ∧ t.err = 10 ∧ SinkFullAt t ∧ t.errinfo0 = countWord t.snk.length)

theorem faultRecord_same {s t : State} (h1 : t.err = s.err) (h2 : t.fault = s.fault) (h3 : t.errinfo0 = s.errinfo0)
    (h4 : t.errinfo1 = s.errinfo1) : FaultRecord s t := .inl ⟨h1, h2, h3, h4⟩

/-- The fields a command may change, beside the fault record. -/
def Changes (i : Instr) (s t : State) : Prop :=
  match i with
  | .nop => t = s
  | .clrf => t = { s with err := t.err, fault := t.fault, errinfo0 := t.errinfo0, errinfo1 := t.errinfo1 }
  | .srst => t = softReset s
  | .fclr => t = { s with ft := t.ft, len := t.len }
  | .fscan => t = { s with ft := t.ft, len := t.len, src := [] }
  | .fset _ => t = { s with ft := t.ft }
  | .fget _ | .qget _ => t = { s with arg0 := t.arg0 }
  | .quant _ => t = { s with qt := t.qt, err := t.err, fault := t.fault, errinfo0 := t.errinfo0, errinfo1 := t.errinfo1 }
  | .qset _ => t = { s with qt := t.qt }
  | .hbuild _ => t = { s with tree := t.tree, ct := t.ct, tv := true, talg := 1, syn := t.syn }
  | .sbuild _ => t = { s with tree := t.tree, ct := t.ct, tv := true, talg := 3, syn := t.syn }
  | .clen _ | .cbits _ _ => t = { s with
      arg0 := t.arg0, err := t.err, fault := t.fault, errinfo0 := t.errinfo0, errinfo1 := t.errinfo1 }
  | .tser => t = { s with
      snk := t.snk, err := t.err, fault := t.fault, errinfo0 := t.errinfo0, errinfo1 := t.errinfo1 }
  | .tload => t = { s with
      src := t.src, tree := t.tree, ct := t.ct, tv := t.tv, talg := t.talg, syn := false, freeCount := t.freeCount,
      err := t.err, fault := t.fault, errinfo0 := t.errinfo0, errinfo1 := t.errinfo1 }
  | .tdrop => t = { s with tree := t.tree, ct := t.ct, tv := false, talg := 0, syn := false, freeCount := t.freeCount }
  | .wrst => t = { s with wacc := 0, wcnt := 0, wtotal := 0 }
  | .wbit _ => t = { s with
      wacc := t.wacc, wcnt := t.wcnt, wtotal := t.wtotal, snk := t.snk,
      err := t.err, fault := t.fault, errinfo0 := t.errinfo0, errinfo1 := t.errinfo1 }
  | .wflush => t = { s with
      wacc := t.wacc, wcnt := t.wcnt, snk := t.snk,
      err := t.err, fault := t.fault, errinfo0 := t.errinfo0, errinfo1 := t.errinfo1 }
  | .rrst => t = { s with racc := 0, rcnt := 0, eod := false }
  | .rbit => t = { s with arg0 := t.arg0, racc := t.racc, rcnt := t.rcnt, src := t.src, eod := t.eod }
  | .encode => t = { s with
      src := t.src, wacc := t.wacc, wcnt := t.wcnt, wtotal := t.wtotal, snk := t.snk,
      err := t.err, fault := t.fault, errinfo0 := t.errinfo0, errinfo1 := t.errinfo1 }
  | .decode => t = { s with
      src := t.src, racc := t.racc, rcnt := t.rcnt, eod := t.eod, snk := t.snk,
      err := t.err, fault := t.fault, errinfo0 := t.errinfo0, errinfo1 := t.errinfo1 }
  | .srcclr => t = { s with src := [] }
  | .snkclr => t = { s with snk := [] }

/-- Everything a command can do, in the frame: it completes, and changes the fields of `Changes` only. -/
theorem exec_spec (i : Instr) (s : State) : ∃ t, exec i s = .next t ∧ Changes i s t ∧
    (i ≠ .clrf → i ≠ .srst → FaultRecord s t) := by
  have nt : ∀ go : State → Outcome, s.tv = false → withTree s go = .next (raise .noTree 0 0 s) := by
    intro go h; simp [withTree, h]
  have yt : ∀ go : State → Outcome, s.tv = true → withTree s go = go s := by
    intro go h; simp [withTree, h]
  have ntr : FaultRecord s (raise .noTree 0 0 s) := .inr (.inl ⟨rfl, by simp [faultCode], by simp [faultCode]⟩)
  have same : FaultRecord s s := faultRecord_same rfl rfl rfl rfl
  cases i
  case nop => exact ⟨s, rfl, rfl, fun _ _ => same⟩
  case clrf => exact ⟨_, rfl, rfl, fun h => absurd rfl h⟩
  case srst => exact ⟨_, rfl, rfl, fun _ h => absurd rfl h⟩
  case fscan =>
    refine ⟨_, rfl, ?_, fun _ _ => ?_⟩
    · simp only [Changes]; rw [foldl_countByte_frame]; rfl
    · rw [foldl_countByte_frame]; exact faultRecord_same rfl rfl rfl rfl
  case quant w =>
    by_cases h : w.toNat < 1 ∨ 64 < w.toNat
    · exact ⟨_, if_pos h, rfl, fun _ _ => .inr (.inl ⟨rfl, by simp [faultCode], by simp [faultCode]⟩)⟩
    · exact ⟨_, if_neg h, rfl, fun _ _ => faultRecord_same rfl rfl rfl rfl⟩
  case clen x =>
    cases h : s.tv
    · exact ⟨_, nt (fun s => .next { s with arg0 := countWord (codeOf s.ct x).length }) h, rfl, fun _ _ => ntr⟩
    · exact ⟨_, yt (fun s => .next { s with arg0 := countWord (codeOf s.ct x).length }) h, rfl, fun _ _ => faultRecord_same rfl rfl rfl rfl⟩
  case cbits x k =>
    cases h : s.tv
    · exact ⟨_, nt (fun s => .next { s with arg0 := codeChunk (codeOf s.ct x) k.toNat }) h, rfl, fun _ _ => ntr⟩
    · exact ⟨_, yt (fun s => .next { s with arg0 := codeChunk (codeOf s.ct x) k.toNat }) h, rfl, fun _ _ => faultRecord_same rfl rfl rfl rfl⟩
  case tser =>
    cases h : s.tv
    · exact ⟨_, nt (fun s => endCommand (snkPushAll (serial s.tree) s)) h, rfl, fun _ _ => ntr⟩
    · refine ⟨_, (yt (fun s => endCommand (snkPushAll (serial s.tree) s)) h).trans (endCommand_eq _), ?_⟩
      have hs := snkPushAll_spec (serial s.tree) s
      cases hr : snkPushAll (serial s.tree) s with
      | ok t => rw [hr] at hs; simp only [settled_ok]; rw [hs.1]; exact ⟨rfl, fun _ _ => faultRecord_same rfl rfl rfl rfl⟩
      | error t =>
        rw [hr] at hs
        obtain ⟨sent, b, more, _, h2, h3, _⟩ := hs
        simp only [settled_error]; rw [h3]
        exact ⟨rfl, fun _ _ => .inr (.inr ⟨rfl, rfl, h2, rfl⟩)⟩
  case tload =>
    simp only [exec, execTload]
    have hs := parse_sound (s.src.length + 1) ⟨s.src, [], 0, 0⟩
    simp only [parseSource]
    cases hp : parse (s.src.length + 1) ⟨s.src, [], 0, 0⟩ with
    | tree t ld => exact ⟨_, rfl, rfl, fun _ _ => faultRecord_same rfl rfl rfl rfl⟩
    | failed k e0 e1 ld =>
      rw [hp] at hs
      refine ⟨_, rfl, rfl, fun _ _ => .inr (.inl ⟨rfl, ?_⟩)⟩
      rcases hs.2.2.2.2 with ⟨rfl, _⟩ | ⟨rfl, _⟩ <;> simp [faultCode]
  case wbit b =>
    refine ⟨_, endCommand_eq _, ?_⟩
    have hs := writeBit_spec (b.getLsbD 0) s
    cases hr : writeBit (b.getLsbD 0) s with
    | ok t => rw [hr] at hs; simp only [settled_ok]; rw [hs.1]; exact ⟨rfl, fun _ _ => faultRecord_same rfl rfl rfl rfl⟩
    | error t =>
      rw [hr] at hs; simp only [settled_error]
      refine ⟨?_, fun _ _ => .inr (.inr ⟨by rw [hs.1], by rw [hs.1], hs.2, ?_⟩)⟩
      · simp only [Changes]; rw [hs.1]
      · conv_lhs => rw [hs.1]
  case wflush =>
    refine ⟨_, endCommand_eq _, ?_⟩
    have hs := flushWriter_spec s
    cases hr : flushWriter s with
    | ok t => rw [hr] at hs; simp only [settled_ok]; rw [hs.1]; exact ⟨rfl, fun _ _ => faultRecord_same rfl rfl rfl rfl⟩
    | error t =>
      rw [hr] at hs; simp only [settled_error]
      refine ⟨?_, fun _ _ => .inr (.inr ⟨by rw [hs.1], by rw [hs.1], hs.2, ?_⟩)⟩
      · simp only [Changes]; rw [hs.1]
      · conv_lhs => rw [hs.1]
  case rbit =>
    have hs := (readBit_spec s).1
    rcases hr : readBit s with ⟨b, t⟩
    rw [hr] at hs
    simp only at hs
    rcases b with _ | b
    · refine ⟨{ t with arg0 := 0 }, by simp [exec, execRbit, hr], ?_, fun _ _ => ?_⟩
      · simp only [Changes]; rw [hs]
      · rw [hs]; exact faultRecord_same rfl rfl rfl rfl
    · refine ⟨{ t with arg0 := (bitByte b).setWidth 64 }, by simp [exec, execRbit, hr], ?_, fun _ _ => ?_⟩
      · simp only [Changes]; rw [hs]
      · rw [hs]; exact faultRecord_same rfl rfl rfl rfl
  case encode =>
    cases h : s.tv
    · exact ⟨_, nt (fun s => endCommand (encodeLoop s.src 0 s)) h, rfl, fun _ _ => ntr⟩
    · refine ⟨_, (yt (fun s => endCommand (encodeLoop s.src 0 s)) h).trans (endCommand_eq _), ?_⟩
      have hs := encodeLoop_spec s.src 0 s rfl
      cases hr : encodeLoop s.src 0 s with
      | ok t => rw [hr] at hs; simp only [settled_ok]; rw [hs.1]; exact ⟨rfl, fun _ _ => faultRecord_same rfl rfl rfl rfl⟩
      | error t =>
        rw [hr] at hs
        obtain ⟨h1, h2, _⟩ := hs
        simp only [settled_error]
        refine ⟨by simp only [Changes]; rw [h1], fun _ _ => ?_⟩
        have hf : t.fault = true := by rw [h1]
        rcases h2 with h2 | ⟨h2, h3, h4⟩
        · exact .inr (.inl ⟨hf, by rw [h2]; simp, by rw [h2]; simp⟩)
        · exact .inr (.inr ⟨hf, h2, h3, h4⟩)
  case decode =>
    cases h : s.tv
    · exact ⟨_, nt (fun s => endCommand (decodeLoop s.arg0.toNat s.arg0.toNat s)) h, rfl, fun _ _ => ntr⟩
    · refine ⟨_, (yt (fun s => endCommand (decodeLoop s.arg0.toNat s.arg0.toNat s)) h).trans (endCommand_eq _), ?_⟩
      have hs := decodeLoop_spec s.arg0.toNat s.arg0.toNat s
      cases hr : decodeLoop s.arg0.toNat s.arg0.toNat s with
      | ok t => rw [hr] at hs; simp only [settled_ok]; rw [hs.1]; exact ⟨rfl, fun _ _ => faultRecord_same rfl rfl rfl rfl⟩
      | error t =>
        rw [hr] at hs
        obtain ⟨h1, h2, _⟩ := hs
        simp only [settled_error]
        refine ⟨by simp only [Changes]; rw [h1], fun _ _ => ?_⟩
        have hf : t.fault = true := by rw [h1]
        rcases h2 with h2 | h2 | ⟨h2, h3, h4⟩
        · exact .inr (.inl ⟨hf, by rw [h2]; simp, by rw [h2]; simp⟩)
        · exact .inr (.inl ⟨hf, by rw [h2]; simp, by rw [h2]; simp⟩)
        · exact .inr (.inr ⟨hf, h2, h3, h4⟩)
  all_goals exact ⟨_, rfl, rfl, fun _ _ => faultRecord_same rfl rfl rfl rfl⟩

/-- Everything a word written to CMD can do. -/
theorem run_spec (c : CommandWord) (s : State) :
    (gated c s = true ∧ runCommand c s = .next s) ∨
    (gated c s = false ∧ ∃ i, decode c = .instr i ∧ runCommand c s = exec i s) ∨
    (gated c s = false ∧ (∀ i, decode c ≠ .instr i) ∧ ∃ k e0, runCommand c s = .next (raise k e0 0 s) ∧ (k = .illegalCommand ∨ k = .unsupportedVersionOrAlgorithm)) := by
  unfold runCommand
  cases hg : gated c s
  · right
    simp only [Bool.false_eq_true, if_false, true_and]
    cases hd : decode c with
    | instr i => exact .inl ⟨i, rfl, rfl⟩
    | unsupportedBuild a b => exact .inr ⟨by simp, _, _, rfl, .inr rfl⟩
    | illegal w => exact .inr ⟨by simp, _, _, rfl, .inl rfl⟩
  · simp

theorem gated_false {c : CommandWord} {s : State} (h : gated c s = false) (hf : s.fault = true) : c = clrfWord ∨ c = srstWord := by
  simp [gated, hf] at h; by_cases c = clrfWord <;> simp_all

theorem decode_clrf : decode clrfWord = .instr .clrf := by decide

theorem decode_srst : decode srstWord = .instr .srst := by decide

/-- Everything a step can do: nothing with no move left, else the next move. -/
theorem step_cases (s t : State) (h : step s = .next t) :
    (s.moves = [] ∧ t = s) ∨ ∃ m rest, s.moves = m :: rest ∧ hostMove m { s with moves := rest } = .next t := by
  unfold step nextMove at h
  cases hm : s.moves with
  | nil => simp [hm] at h; exact .inl ⟨rfl, h.symm⟩
  | cons m rest => simp only [hm] at h; exact .inr ⟨m, rest, rfl, h⟩

/-- Everything a host move that completes can do. -/
theorem hostMove_cases (m : HostMove) (s t : State) (h : hostMove m s = .next t) :
    (∃ i, m = .read i ∧ i < 16 ∧ t = { s with returned := s.returned ++ [registerValue i s], snk := if i = 10 then s.snk.tail else s.snk }) ∨
    (∃ v, m = .write 0 v ∧ runCommand (v.setWidth 32) s = .next t) ∨
    (∃ i v, m = .write i v ∧ i ≠ 0 ∧ (t = { s with arg0 := v } ∨ t = { s with arg1 := v } ∨ t = srcPush (v.setWidth 8) s ∨ t = s)) := by
  cases m with
  | read i =>
    simp only [hostMove, hostRead] at h
    split at h
    · next hi =>
      cases h
      refine .inl ⟨i, rfl, hi, ?_⟩
      simp only [afterRead]; split <;> rfl
    · cases h
  | write i v =>
    simp only [hostMove, hostWrite] at h
    split at h
    · split at h
      · exact .inr (.inl ⟨v, rfl, h⟩)
      · cases h; exact .inr (.inr ⟨_, v, rfl, by decide, .inl rfl⟩)
      · cases h; exact .inr (.inr ⟨_, v, rfl, by decide, .inr (.inl rfl)⟩)
      · cases h; exact .inr (.inr ⟨_, v, rfl, by decide, .inr (.inr (.inl rfl))⟩)
      · cases h; exact .inr (.inr ⟨_, v, rfl, by assumption, .inr (.inr (.inr rfl))⟩)
    · cases h

theorem srcPush_frame (b : Byte) (s : State) : srcPush b s = { s with src := (srcPush b s).src } := by
  unfold srcPush; split <;> rfl

end Sys2Proof.Machine
end

