-- ==== Sys2Proof/Laws/PerInstr.lean ====
section
/-! SUPPORT. Statements about every command, one lemma for each constructor. -/

namespace Sys2Proof.Laws

/-- Fields OP, A and B of a command's word (30_encoding.md R93). -/
def wordFields : Instr → Byte × Byte × Byte
  | .nop => (0x00, 0, 0)
  | .clrf => (0x01, 0, 0)
  | .srst => (0x02, 0, 0)
  | .fclr => (0x10, 0, 0)
  | .fscan => (0x11, 0, 0)
  | .fset sym => (0x12, sym, 0)
  | .fget sym => (0x13, sym, 0)
  | .quant w => (0x18, w, 0)
  | .qset sym => (0x19, sym, 0)
  | .qget sym => (0x1A, sym, 0)
  | .hbuild tsel => (0x20, 1, tsel)
  | .sbuild tsel => (0x20, 3, tsel)
  | .clen sym => (0x21, sym, 0)
  | .cbits sym k => (0x22, sym, k)
  | .tser => (0x23, 0, 0)
  | .tload => (0x24, 0, 0)
  | .tdrop => (0x25, 0, 0)
  | .wrst => (0x30, 0, 0)
  | .wbit b => (0x31, b, 0)
  | .wflush => (0x32, 0, 0)
  | .rrst => (0x38, 0, 0)
  | .rbit => (0x39, 0, 0)
  | .encode => (0x40, 0, 0)
  | .decode => (0x41, 0, 0)
  | .srcclr => (0x50, 0, 0)
  | .snkclr => (0x51, 0, 0)

end Sys2Proof.Laws

namespace Sys2Proof.Laws.EncodeFields

/-- The word of a command has the fields of its row and Z = 0 (30_encoding.md R90, R93). -/
def Statement (i : Instr) : Prop :=
  fieldOP (Sys2Proof.encode i) = (wordFields i).1 ∧ fieldA (Sys2Proof.encode i) = (wordFields i).2.1 ∧
    fieldB (Sys2Proof.encode i) = (wordFields i).2.2 ∧ fieldZ (Sys2Proof.encode i) = 0

theorem of_commandWord {i : Instr} {op a b : Byte} (h : Sys2Proof.encode i = commandWord op a b)
    (h' : wordFields i = (op, a, b)) : Statement i := by
  unfold Statement
  rw [h, h', commandWord_eq]
  simp

theorem nop : Statement Instr.nop := of_commandWord rfl rfl
theorem clrf : Statement Instr.clrf := of_commandWord rfl rfl
theorem srst : Statement Instr.srst := of_commandWord rfl rfl
theorem fclr : Statement Instr.fclr := of_commandWord rfl rfl
theorem fscan : Statement Instr.fscan := of_commandWord rfl rfl
theorem fset (sym : Byte) : Statement (Instr.fset sym) := of_commandWord rfl rfl
theorem fget (sym : Byte) : Statement (Instr.fget sym) := of_commandWord rfl rfl
theorem quant (w : Byte) : Statement (Instr.quant w) := of_commandWord rfl rfl
theorem qset (sym : Byte) : Statement (Instr.qset sym) := of_commandWord rfl rfl
theorem qget (sym : Byte) : Statement (Instr.qget sym) := of_commandWord rfl rfl
theorem hbuild (tsel : Byte) : Statement (Instr.hbuild tsel) := of_commandWord rfl rfl
theorem sbuild (tsel : Byte) : Statement (Instr.sbuild tsel) := of_commandWord rfl rfl
theorem clen (sym : Byte) : Statement (Instr.clen sym) := of_commandWord rfl rfl
theorem cbits (sym : Byte) (k : Byte) : Statement (Instr.cbits sym k) := of_commandWord rfl rfl
theorem tser : Statement Instr.tser := of_commandWord rfl rfl
theorem tload : Statement Instr.tload := of_commandWord rfl rfl
theorem tdrop : Statement Instr.tdrop := of_commandWord rfl rfl
theorem wrst : Statement Instr.wrst := of_commandWord rfl rfl
theorem wbit (b : Byte) : Statement (Instr.wbit b) := of_commandWord rfl rfl
theorem wflush : Statement Instr.wflush := of_commandWord rfl rfl
theorem rrst : Statement Instr.rrst := of_commandWord rfl rfl
theorem rbit : Statement Instr.rbit := of_commandWord rfl rfl
theorem encode : Statement Instr.encode := of_commandWord rfl rfl
theorem decode : Statement Instr.decode := of_commandWord rfl rfl
theorem srcclr : Statement Instr.srcclr := of_commandWord rfl rfl
theorem snkclr : Statement Instr.snkclr := of_commandWord rfl rfl

end Sys2Proof.Laws.EncodeFields
end

