-- ==== Sys2Proof/Tests/Slice0.lean ====
section
/-! SUPPORT. The model's own tests. Expected values are those of spec/95_test_vectors.md (the vector's name stands in the
comment) or worked out from the rule named; the witnesses at the end show that the hypotheses of each statement can be
met together. -/

set_option Elab.async false

namespace Sys2Proof.Tests
open Sys2Proof Sys2Proof.Machine

/-! ### Helpers -/

/-- The state a command leaves; its start state if it stopped. -/
def ran (i : Instr) (s : State) : State :=
  match exec i s with
  | .next t => t
  | .fault _ => s
  | .refused _ => s

/-- The state one step leaves; its start state if it stopped. -/
def stepped (s : State) : State :=
  match step s with
  | .next t => t
  | .fault _ => s
  | .refused _ => s

/-- Reset, with one move to make. -/
def withMove (m : HostMove) : State := { State.reset with moves := [m] }

/-- A step from reset with the word `w` as the next command. -/
def fed (w : Nat) : State := stepped (State.reset.withFetchWord 32 w)

/-- A table with two entries. -/
def tab2 (x : Byte) (v : Word) (y : Byte) (w : Word) : Table := tableSet (tableSet zeroTable x v) y w

/-- The tree of vector H1. -/
def treeH1 : CodeTree := .node (.leaf 0x42) (.leaf 0x41)

/-- Reset, with a valid tree. -/
def holding (t : CodeTree) : State := { State.reset with tree := t, ct := codes t, tv := true, talg := 1 }

/-- A faulted engine after vector K4, with one move to make. -/
def faulted (m : HostMove) : State :=
  { holding treeH1 with err := 4, fault := true, eod := true, errinfo0 := 4, moves := [m] }

/-! ### Well-formedness: one ill-formed term for each check (30_encoding.md R91) -/

theorem test_wellFormed_chunk : (Instr.cbits 0x41 4).wellFormed = false ∧ (Instr.cbits 0x41 3).wellFormed = true := by
  decide
theorem test_wellFormed_hbuild : (Instr.hbuild 2).wellFormed = false ∧ (Instr.hbuild 1).wellFormed = true := by decide
theorem test_wellFormed_sbuild : (Instr.sbuild 2).wellFormed = false ∧ (Instr.sbuild 1).wellFormed = true := by decide
theorem test_wellFormed_bit : (Instr.wbit 2).wellFormed = false ∧ (Instr.wbit 1).wellFormed = true := by decide

/-! ### Decoding: words of the spec's listings, or written from the fields of 30_encoding.md R90 and R93 -/

theorem test_decode_system : decode 0x00000000 = .instr .nop ∧ decode 0x01000000 = .instr .clrf ∧
    decode 0x02000000 = .instr .srst ∧ decode 0x50000000 = .instr .srcclr ∧ decode 0x51000000 = .instr .snkclr := by
  decide
theorem test_decode_freq : decode 0x10000000 = .instr .fclr ∧ decode 0x11000000 = .instr .fscan ∧
    decode 0x12FF0000 = .instr (.fset 0xFF) ∧ decode 0x13410000 = .instr (.fget 0x41) := by decide
theorem test_decode_quant : decode 0x18040000 = .instr (.quant 4) ∧ decode 0x19410000 = .instr (.qset 0x41) ∧
    decode 0x1A420000 = .instr (.qget 0x42) := by decide
theorem test_decode_build : decode 0x20010000 = .instr (.hbuild 0) ∧ decode 0x20030100 = .instr (.sbuild 1) ∧
    decode 0x21460000 = .instr (.clen 0x46) ∧ decode 0x22450300 = .instr (.cbits 0x45 3) ∧
    decode 0x25000000 = .instr .tdrop := by decide
theorem test_decode_serial : decode 0x23000000 = .instr .tser ∧ decode 0x24000000 = .instr .tload := by decide
theorem test_decode_bits : decode 0x30000000 = .instr .wrst ∧ decode 0x31010000 = .instr (.wbit 1) ∧
    decode 0x32000000 = .instr .wflush ∧ decode 0x38000000 = .instr .rrst ∧ decode 0x39000000 = .instr .rbit := by decide
theorem test_decode_codec : decode 0x40000000 = .instr .encode ∧ decode 0x41000000 = .instr .decode := by decide

/-- X1 to X5, H16, H19, B12. -/
theorem test_decode_illegal : decode 0x03000000 = .illegal .undefinedOpcode ∧ decode 0x00000001 = .illegal .nonzeroZ ∧
    decode 0x00010000 = .illegal .nonzeroUnusedField ∧ decode 0x12410100 = .illegal .nonzeroUnusedField ∧
    decode 0x20020500 = .illegal .tableSelectOutOfRange ∧ decode 0x22410400 = .illegal .chunkOutOfRange ∧
    decode 0x31020000 = .illegal .bitOutOfRange := by decide
/-- H14, H15. -/
theorem test_decode_build_other : decode 0x20020000 = .unsupportedBuild 2 0 ∧ decode 0x20000000 = .unsupportedBuild 0 0 := by
  decide

theorem test_rows_disjoint : opcodeRows.Pairwise fun r r' => r.pattern &&& r'.mask ≠ r'.pattern &&& r.mask := by
  decide +kernel
theorem test_rows_patterns : opcodeRows.all (fun r => r.selects r.pattern) = true ∧ opcodeRows.length = 26 := by decide
theorem test_table_word : decodeTableWord 32 0x22FF0300 = some (.cbits 0xFF 3) ∧ decodeTableWord 32 0x31020000 = none := by
  decide

/-! ### One step from reset for a word of each family (R95; the results as the vectors of the command say) -/

theorem test_step_fscan : (fed 0x11000000).len = 0 ∧ (fed 0x11000000).moves = [] := by decide +kernel
/-- Q27, Q28 at reset: STATUS without TALG and TV. -/
theorem test_step_quant : statusWord (fed 0x18410000) = 0x00000103 ∧ (fed 0x18410000).errinfo0 = 65 := by decide +kernel
/-- H13. -/
theorem test_step_hbuild : statusWord (fed 0x20010000) = 0x00010A00 ∧ (fed 0x20010000).tree = .leaf 0 := by decide +kernel
/-- T9. -/
theorem test_step_tload : statusWord (fed 0x24000000) = 0x00000104 ∧ (fed 0x24000000).errinfo1 = 0 := by decide +kernel
/-- B1, its first bit. -/
theorem test_step_wbit : wstateWord (fed 0x31010000) = 0x0101 ∧ (fed 0x31010000).wtotal = 1 := by decide +kernel
/-- K14. -/
theorem test_step_decode : statusWord (fed 0x41000000) = 0x00000107 ∧ statusWord (fed 0x40000000) = 0x00000107 := by
  decide +kernel
/-- X1. -/
theorem test_step_illegal : statusWord (fed 0x03000000) = 0x00000109 ∧ (fed 0x03000000).errinfo0 = 0x03000000 := by
  decide +kernel
/-- H15. -/
theorem test_step_build_other : statusWord (fed 0x20000000) = 0x00000102 ∧ (fed 0x20000000).errinfo0 = 0 := by
  decide +kernel

/-! ### The commands, at most two for each -/

/-- X8. -/
theorem test_clrf : statusWord (ran .clrf (faulted (.read 0))) = 0x00010600 ∧
    (ran .clrf (faulted (.read 0))).errinfo0 = 0 := by decide +kernel
/-- Y2. -/
theorem test_srst : statusWord (ran .srst (faulted (.read 0))) = 0 ∧
    (ran .srst { State.reset with snk := [1], arg1 := 7 }).arg1 = 0 := by decide +kernel
/-- M5. -/
theorem test_fclr : tableGet (ran .fclr { State.reset with ft := tab2 0x41 3 0x42 1, len := 4 }).ft 0x41 = 0 ∧
    (ran .fclr { State.reset with len := 4 }).len = 0 := by decide +kernel
/-- M1, M3. -/
theorem test_fscan :
    tableGet (ran .fscan { State.reset with src := [0x41, 0x41, 0x41, 0x42] }).ft 0x41 = 3 ∧
    (ran .fscan { State.reset with src := [0x42], len := 4 }).len = 1 := by decide +kernel
/-- M4. -/
theorem test_fset_fget :
    (ran (.fget 0xFF) { ran (.fset 0xFF) { State.reset with arg0 := 0xFFFFFFFFFFFFFFFF } with arg0 := 0 }).arg0 =
      0xFFFFFFFFFFFFFFFF := by decide +kernel
/-- Q3, Q4 (a rank inversion). -/
theorem test_quant : scaledValues [⟨0x41, 100⟩, ⟨0x42, 50⟩] 4 = [⟨0x41, 11⟩, ⟨0x42, 4⟩] ∧
    scaledValues [⟨0x41, 1000⟩, ⟨0x42, 990⟩] 4 = [⟨0x41, 7⟩, ⟨0x42, 8⟩] := by decide +kernel
/-- Q11 (the total divides), Q12b (halves go up). -/
theorem test_quant_scaling :
    scaledValues [⟨0, 100⟩, ⟨1, 50⟩, ⟨2, 25⟩, ⟨3, 12⟩, ⟨4, 6⟩, ⟨5, 3⟩, ⟨6, 2⟩, ⟨7, 1⟩] 3 =
      [⟨0, 4⟩, ⟨1, 2⟩, ⟨2, 1⟩, ⟨3, 1⟩, ⟨4, 1⟩, ⟨5, 1⟩, ⟨6, 1⟩, ⟨7, 1⟩] ∧
    scaledValues [⟨0, 510⟩, ⟨1, 3⟩] 8 = [⟨0, 255⟩, ⟨1, 2⟩] := by decide +kernel
/-- Q29. -/
theorem test_qset_qget : (ran (.qget 0x41) { ran (.qset 0x41) { State.reset with arg0 := 11 } with arg0 := 0 }).arg0 = 11 := by
  decide +kernel
/-- H12. -/
theorem test_hbuild : (ran (.hbuild 1) { State.reset with qt := tab2 0x41 3 0x42 1 }).tree = treeH1 := by decide +kernel
/-- H2: ties go to the lower minimum symbol. -/
theorem test_hbuild_ties : mergeLoop 5 (leafQueue [⟨0x61, 5⟩, ⟨0x62, 2⟩, ⟨0x63, 1⟩, ⟨0x64, 1⟩, ⟨0x65, 1⟩]) =
    .node (.leaf 0x61) (.node (.node (.leaf 0x63) (.leaf 0x64)) (.node (.leaf 0x65) (.leaf 0x62))) := by decide +kernel
/-- F1. -/
theorem test_sbuild : part 2 (ranked [⟨0x41, 3⟩, ⟨0x42, 1⟩]) = .node (.leaf 0x41) (.leaf 0x42) := by decide +kernel
/-- F3: an equal difference continues the scan. -/
theorem test_sbuild_ties : part 5 (ranked [⟨0, 3⟩, ⟨1, 2⟩, ⟨2, 1⟩, ⟨3, 1⟩, ⟨4, 1⟩]) =
    .node (.node (.leaf 0) (.leaf 1)) (.node (.node (.leaf 2) (.leaf 3)) (.leaf 4)) := by decide +kernel
/-- H11. -/
theorem test_clen : (ran (.clen 0x41) (holding treeH1)).arg0 = 1 ∧ (ran (.clen 0x43) (holding treeH1)).arg0 = 0 := by
  decide +kernel
/-- H11. -/
theorem test_cbits : (ran (.cbits 0x41 0) (holding treeH1)).arg0 = 0x8000000000000000 ∧
    (ran (.cbits 0x42 0) (holding treeH1)).arg0 = 0 := by decide +kernel
/-- H10, `CBITS 1, 1`: the code of symbol 1 is 67 ones, a 0 and a 1. -/
theorem test_cbits_chunk : codeChunk (List.replicate 67 true ++ [false, true]) 1 = 0xE800000000000000 := by decide +kernel
/-- T1. -/
theorem test_tser : (ran .tser (holding treeH1)).snk = [0x00, 0x01, 0x42, 0x01, 0x41] := by decide +kernel
/-- T6. -/
theorem test_tload : (ran .tload { State.reset with src := [0, 1, 0x42, 1, 0x41, 0xE0] }).tree = treeH1 ∧
    (ran .tload { State.reset with src := [0, 1, 0x42, 1, 0x41, 0xE0] }).src = [0xE0] := by decide +kernel
/-- T11, T13. -/
theorem test_tload_faults : (ran .tload { State.reset with src := [0, 1, 0x42, 1, 0x42] }).errinfo0 = 2 ∧
    (ran .tload { State.reset with src := [0, 1, 0x42, 5, 0x41] }).errinfo1 = 4 := by decide +kernel
/-- H17. -/
theorem test_tdrop : statusWord (ran .tdrop (holding treeH1)) = 0 := by decide +kernel
/-- B5. -/
theorem test_wrst : wstateWord (ran .wrst { State.reset with wacc := 0x0E, wcnt := 4, wtotal := 4 }) = 0 := by
  decide +kernel
/-- B3, its eighth bit. -/
theorem test_wbit : (ran (.wbit 1) { State.reset with wacc := 0x52, wcnt := 7 }).snk = [0xA5] ∧
    wstateWord (ran (.wbit 1) { State.reset with wacc := 0x52, wcnt := 7 }) = 0 := by decide +kernel
/-- B13, the second FF: the byte is lost. -/
theorem test_wbit_full :
    (ran (.wbit 1) { State.reset with wacc := 0x7F, wcnt := 7, snk := [0xFF], cfg := ⟨none, some 1⟩ }).errinfo1 = 0xFF ∧
    (ran (.wbit 1) { State.reset with wacc := 0x7F, wcnt := 7, snk := [0xFF], cfg := ⟨none, some 1⟩ }).err = 10 := by
  decide +kernel
/-- B2. -/
theorem test_wflush : (ran .wflush { State.reset with wacc := 0x0E, wcnt := 4 }).snk = [0xE0] := by decide +kernel
/-- B11. -/
theorem test_rrst : rstateWord (ran .rrst { State.reset with racc := 0xC0, rcnt := 7, eod := true }) = 0 := by
  decide +kernel
/-- B7. -/
theorem test_rbit : (ran .rbit { State.reset with src := [0xA5] }).arg0 = 1 ∧
    rstateWord (ran .rbit { State.reset with src := [0xA5] }) = 0x074A := by decide +kernel
/-- B8, the ninth bit. -/
theorem test_rbit_end : statusWord (ran .rbit State.reset) = 0x00000400 := by decide +kernel
/-- B13's start: seventeen codes `1` and a sink of one byte. -/
def fullSink : State :=
  { holding (.node (.leaf 0x41) (.leaf 0x42)) with src := List.replicate 17 0x42, cfg := ⟨none, some 1⟩ }

/-- K1; B13. -/
theorem test_encode :
    wstateWord (ran .encode { holding treeH1 with src := [0x41, 0x41, 0x41, 0x42] }) = 0x040E ∧
    statusWord (ran .encode fullSink) = 0x0001030A ∧ (ran .encode fullSink).errinfo0 = 1 ∧
    (ran .encode fullSink).errinfo1 = 0xFF ∧ (ran .encode fullSink).wtotal = 16 ∧
    wstateWord (ran .encode fullSink) = 0 ∧ (ran .encode fullSink).snk = [0xFF] ∧
    (ran .encode fullSink).src = [0x42] := by decide +kernel
/-- K10. -/
theorem test_encode_absent :
    (ran .encode { holding treeH1 with src := [0x41, 0x42, 0x43, 0x41] }).errinfo1 = 2 ∧
    (ran .encode { holding treeH1 with src := [0x41, 0x42, 0x43, 0x41] }).src = [0x41] := by decide +kernel
/-- K5. -/
theorem test_decode :
    (ran .decode { holding treeH1 with src := [0xE0], arg0 := 4 }).snk = [0x41, 0x41, 0x41, 0x42] := by decide +kernel
/-- K6, with a count no data can meet: the run ends at the end of the data. -/
theorem test_decode_truncated :
    (ran .decode { holding treeH1 with src := [0xE0], arg0 := 0xFFFFFFFFFFFFFFFF }).errinfo1 = 8 ∧
    statusWord (ran .decode { holding treeH1 with src := [0xE0], arg0 := 9 }) = 0x00010704 := by decide +kernel
/-- D4. -/
theorem test_decode_offTree : statusWord (ran .decode { holding (.leaf 0x5A) with src := [0x04], arg0 := 7 }) = 0x00010305 ∧
    (ran .decode { holding (.leaf 0x5A) with src := [0x04], arg0 := 7 }).errinfo0 = 5 := by decide +kernel
/-- Y3, Y4. -/
theorem test_srcclr_snkclr : (ran .srcclr { State.reset with src := [1, 2] }).src = [] ∧
    (ran .snkclr { State.reset with snk := [0x41, 0x41] }).snk = [] := by decide +kernel
/-- Y5, Y7, Y9. -/
theorem test_host_moves : statusWord (stepped (withMove (.write 1 0xFFFFFFFF))) = 0 ∧
    (stepped (withMove (.write 8 0x1FF))).src = [0xFF] ∧ (stepped (withMove (.read 14))).returned = [0] := by
  decide +kernel

/-! ### Witnesses: for each statement with hypotheses a state and operands that meet all of them -/

/-- DecodeOfEncode, EncodeOfDecode: the largest operands. -/
theorem test_witness_encoding : (Instr.cbits 0xFF 3).wellFormed = true ∧ decode 0x22FF0300 = .instr (.cbits 0xFF 3) := by
  decide

/-- OpcodeMapSelects: a word that selects a row. -/
theorem test_witness_rows : (⟨"HBUILD", 0x20010000, 0xFFFFFEFF⟩ : OpRow) ∈ opcodeRows ∧
    (0x20010100 : CommandWord) &&& 0xFFFFFEFF = 0x20010000 := by decide

/-- EveryWordIsClassified, IllegalWordFaults: an illegal word and a legal one. -/
theorem test_witness_illegal : IllegalWord (0x31020000 : CommandWord) ∧ ¬ IllegalWord (0x20020000 : CommandWord) ∧
    ¬ IllegalWord (0x31010000 : CommandWord) := by
  unfold IllegalWord; decide

/-- StepRunsDecodedCommand: fault-free, and faulted with CLRF. -/
theorem test_witness_step :
    ((withMove (.write 0 0x12410000)).moves = [.write 0 0x12410000] ∧ (withMove (.write 0 0x12410000)).fault = false ∧
      decode ((0x12410000 : Word).setWidth 32) = .instr (.fset 0x41)) ∧
    ((faulted (.write 0 0x01000000)).fault = true ∧ (0x01000000 : Word).setWidth 32 = 0x01000000#32 ∧
      decode ((0x01000000 : Word).setWidth 32) = .instr .clrf) ∧ State.reset.moves = [] := by decide

/-- IllegalWordFaults. -/
theorem test_witness_illegal_step : (withMove (.write 0 0x31020000)).fault = false ∧
    (withMove (.write 0 0x31020000)).moves = .write 0 0x31020000 :: [] ∧
    IllegalWord ((0x31020000 : Word).setWidth 32) := by
  refine ⟨rfl, rfl, ?_⟩; unfold IllegalWord; decide

/-- FaultedEngineGate, each clause; FirstFaultIsKept. -/
theorem test_witness_gate : (faulted (.write 0 0x39000000)).fault = true ∧
    (0x39000000 : Word).setWidth 32 ≠ 0x01000000#32 ∧ (0x39000000 : Word).setWidth 32 ≠ 0x02000000#32 ∧
    (faulted (.write 0 0x02000000)).moves = .write 0 0x02000000 :: [] ∧
    (0x02000000 : Word).setWidth 32 = 0x02000000#32 ∧ (faulted (.read 15)).moves = .read 15 :: [] ∧
    (faulted (.write 8 0x1FF)).moves = .write 8 0x1FF :: [] ∧ (∀ c, (faulted (.write 8 0x1FF)).cfg.srcCap = some c →
      (faulted (.write 8 0x1FF)).src.length < c) ∧
    (∃ t, step (faulted (.write 0 0x39000000)) = .next t) := by
  refine ⟨rfl, by decide, by decide, rfl, by decide, rfl, rfl, fun c h => (by cases h), _, rfl⟩

/-- EveryMoveCompletes, at the last index, read and written. -/
theorem test_witness_moves : (withMove (.read 15)).moves = .read 15 :: [] ∧ (∀ i, HostMove.read 15 = .read i → i < 16) ∧
    (∀ i v, HostMove.read 15 = .write i v → i < 16) ∧ (∀ i v, HostMove.write 15 7 = .write i v → i < 16) := by
  refine ⟨rfl, fun i h => by cases h; decide, fun i v h => (by cases h), fun i v h => by cases h; decide⟩

/-- FaultCodesStayLegal: a step that raises the fault with the highest code it can from here. -/
theorem test_witness_codes : (State.reset.fault = false → State.reset.err = 0) ∧
    (∃ t, step (withMove (.write 0 0x03000000)) = .next t) := ⟨fun _ => rfl, _, rfl⟩

/-- HostReadsFollowTheMap: each index with a clause of its own, the queues empty and not. -/
theorem test_witness_reads : (∀ i, i < 16 → (withMove (.read i)).moves = .read i :: []) ∧ State.reset.snk = [] ∧
    ({ State.reset with snk := [7, 8] } : State).snk = 7 :: [8] ∧ State.reset.src.length < 2 ^ 64 ∧
    State.reset.snk.length < 2 ^ 64 := by
  refine ⟨fun _ _ => rfl, rfl, rfl, by decide, by decide⟩

/-- HostWritesFollowTheMap, UndefinedAccesses: SRC with one byte of room and full, and indices that ignore a write. -/
theorem test_witness_writes :
    (∀ c, ({ withMove (.write 8 1) with cfg := ⟨some 1, none⟩ } : State).cfg.srcCap = some c →
      ({ withMove (.write 8 1) with cfg := ⟨some 1, none⟩ } : State).src.length < c) ∧
    (∃ c, ({ withMove (.write 8 1) with cfg := ⟨some 0, none⟩ } : State).cfg.srcCap = some c ∧
      c ≤ ({ withMove (.write 8 1) with cfg := ⟨some 0, none⟩ } : State).src.length) ∧
    (withMove (.write 15 1)).moves = .write 15 1 :: [] ∧ (withMove (.write 16 1)).moves = .write 16 1 :: [] ∧
    (withMove (.read 16)).moves = .read 16 :: [] ∧ (withMove (.read 8)).moves = .read 8 :: [] := by
  refine ⟨fun c h => by cases h; decide, ⟨0, rfl, by decide⟩, rfl, rfl, rfl, rfl⟩

/-- FscanCountsTheSource. -/
theorem test_witness_fscan : ({ State.reset with src := [1, 1] } : State).src.length < 2 ^ 64 := by decide

/-- TableEntryCommands: an entry that is not written. -/
theorem test_witness_entry : (0xFF : Byte) ≠ 0x00 := by decide

/-- QuantCommand: the widths at the ends of the two ranges. -/
theorem test_witness_quant : 1 ≤ (1 : Byte).toNat ∧ (64 : Byte).toNat ≤ 64 ∧ (0 : Byte).toNat = 0 ∧
    65 ≤ (65 : Byte).toNat := by decide

/-- QuantKeepsTheSourcesBounds: Q3's table at W = 4 for the last clause, a table within the bound for the copy, the zero
table. -/
theorem test_witness_quant_bounds : tableGet (tab2 0x41 100 0x42 50) 0 = 0 ∧ tableGet (tab2 0x41 100 0x42 50) 0x41 ≠ 0 ∧
    2 ^ 4 - 1 < (tableGet (tab2 0x41 100 0x42 50) 0x41).toNat ∧ presentCount (tab2 0x41 100 0x42 50) ≤ 2 ^ 4 - 1 ∧
    (∀ x, tableGet zeroTable x = 0) ∧ (∀ x, (tableGet zeroTable x).toNat ≤ 2 ^ 1 - 1) := by
  refine ⟨by decide +kernel, by decide +kernel, by decide +kernel, by decide +kernel, by simp, by simp⟩

/-- QuantScalesAndRounds: Q9's table at W = 1 (more symbols than the bound) and at W = 8. -/
theorem test_witness_quant_scale :
    (∃ x, (tableGet (tab2 0 1000 1 10) x).toNat = 1000) ∧ (∀ x, (tableGet (tab2 0 1000 1 10) x).toNat ≤ 1000) ∧
    2 ^ 8 - 1 < 1000 ∧ 2 ^ 1 - 1 < presentCount (tab2 0 1000 1 10) ∧ tableGet (tab2 0 1000 1 10) 1 ≠ 0 := by
  refine ⟨⟨0, by decide +kernel⟩, fun x => ?_, by decide, by decide +kernel, by decide +kernel⟩
  simp only [tab2, tableGet_tableSet]
  split <;> [decide; split <;> [decide; simp]]

/-- RedistributionTakesTurns: both directions, up to the limits of what can be moved. -/
theorem test_witness_turns : (∀ x ∈ [(⟨0, 3⟩ : Weighted), ⟨1, 1⟩], 1 ≤ x.weight ∧ x.weight ≤ 3) ∧
    (2 : Int) ≤ totalWeight [⟨0, 3⟩, ⟨1, 1⟩] + (-2) ∧ (totalWeight [⟨0, 3⟩, ⟨1, 1⟩] : Int) + 2 ≤ 2 * 3 := by decide

/-- RedistributionTakesTurns, the clause on QUANT: Q4's table, its rank order, a table with equal counts and its order. -/
theorem test_witness_rank : (∀ x, x ∈ [(0x41 : Byte), 0x42] ↔ tableGet (tab2 0x41 1000 0x42 990) x ≠ 0) ∧
    (∀ x, (tableGet (tab2 0x41 1000 0x42 990) x).toNat ≤ 1000) ∧
    presentCount (tab2 0x41 1000 0x42 990) ≤ 2 ^ 4 - 1 ∧
    ([(0x41 : Byte), 0x42].Pairwise fun x y =>
      (tableGet (tab2 0x41 1000 0x42 990) y).toNat < (tableGet (tab2 0x41 1000 0x42 990) x).toNat ∨
      (tableGet (tab2 0x41 1000 0x42 990) x = tableGet (tab2 0x41 1000 0x42 990) y ∧ x.toNat < y.toNat)) ∧
    ([(0x41 : Byte), 0x42].Pairwise fun x y =>
      (tableGet (tab2 0x41 1000 0x42 1000) y).toNat < (tableGet (tab2 0x41 1000 0x42 1000) x).toNat ∨
      (tableGet (tab2 0x41 1000 0x42 1000) x = tableGet (tab2 0x41 1000 0x42 1000) y ∧ x.toNat < y.toNat)) := by
  refine ⟨fun x => ?_, fun x => ?_, by decide +kernel, by decide +kernel, by decide +kernel⟩ <;>
    · simp only [tab2, tableGet_tableSet, tableGet_zeroTable]; split <;> (try split) <;> simp_all

/-- BuildCommands: the highest table select, and BUILD 2. -/
theorem test_witness_build : (1 : Byte).toNat ≤ 1 ∧ fieldOP (0x20020100 : CommandWord) = 0x20 ∧
    fieldA (0x20020100 : CommandWord) = 2 ∧ (fieldB (0x20020100 : CommandWord)).toNat ≤ 1 ∧
    fieldZ (0x20020100 : CommandWord) = 0 ∧ (2 : Byte) ≠ 1 ∧ (2 : Byte) ≠ 3 ∧
    (withMove (.write 0 0x20020100)).fault = false := by decide

/-- BuildersCoverThePresentSymbols. -/
theorem test_witness_cover : ∃ tab t, t = hBuild tab ∨ t = sBuild tab := ⟨zeroTable, _, .inl rfl⟩

/-- TwoSymbolTrees: the lighter first, and equal weights. -/
theorem test_witness_two : (∀ z, tableGet (tab2 7 5 3 9) z ≠ 0 ↔ z = 7 ∨ z = 3) ∧
    (tableGet (tab2 7 5 3 9) 7).toNat < (tableGet (tab2 7 5 3 9) 3).toNat ∧
    (∀ z, tableGet (tab2 3 5 7 5) z ≠ 0 ↔ z = 3 ∨ z = 7) ∧ tableGet (tab2 3 5 7 5) 3 = tableGet (tab2 3 5 7 5) 7 ∧
    (3 : Byte).toNat < (7 : Byte).toNat := by
  refine ⟨fun z => ?_, by decide +kernel, fun z => ?_, by decide +kernel, by decide⟩ <;>
    · simp only [tab2, tableGet_tableSet, tableGet_zeroTable]; split <;> (try split) <;> simp_all

/-- SplitIsTheLastMinimum: F4's list, with a tie. -/
theorem test_witness_split : 2 ≤ [(⟨0, 1⟩ : Weighted), ⟨1, 1⟩, ⟨2, 1⟩].length ∧
    (∀ x ∈ [(⟨0, 1⟩ : Weighted), ⟨1, 1⟩, ⟨2, 1⟩], 0 < x.weight) ∧
    ∃ d : Nat → Nat, ∀ i, d i =
      (2 * (rangeSum ([(⟨0, 1⟩ : Weighted), ⟨1, 1⟩, ⟨2, 1⟩].take (i + 1)) : Int) -
        rangeSum [(⟨0, 1⟩ : Weighted), ⟨1, 1⟩, ⟨2, 1⟩]).natAbs :=
  ⟨by decide, by decide, _, fun _ => rfl⟩

/-- ShannonFanoFirstSplit. -/
theorem test_witness_first : 2 ≤ presentCount (tab2 0x41 3 0x42 1) := by decide +kernel

/-- CodesAreLeafPaths, CodesArePrefixFree, SerialForm: a node, a leaf, a symbol at a leaf and one at none. -/
theorem test_witness_codes_tree : Proper treeH1 ∧ 0x41 ∈ syms treeH1 ∧ 0x42 ∈ syms treeH1 ∧ (0x41 : Byte) ≠ 0x42 ∧
    0x43 ∉ syms treeH1 ∧ (∃ l r, treeH1 = .node l r) ∧ Proper (.leaf 0x5A) ∧
    serial treeH1 ++ [0xE0] = [0x00, 0x01, 0x42] ++ serial (.leaf 0x41) ++ [0xE0] := by
  refine ⟨by decide, by decide, by decide, by decide, by decide, ⟨_, _, rfl⟩, by decide, by decide⟩

/-- ClenReadsTheLength, CbitsReadsAChunk, NoTreeComesFirst, TdropDropsTheTree: TV = 1 with a code, none, and TV = 0. -/
theorem test_witness_tree_reads : (holding treeH1).tv = true ∧ (codeOf (holding treeH1).ct 0x41).length ≤ 255 ∧
    (codeOf (holding treeH1).ct 0x41).getD 0 false = true ∧ State.reset.tv = false ∧ State.reset.talg = 0 ∧
    State.reset.syn = false := by decide +kernel

/-- TserAppendsTheSerialForm: room for the whole form, and a sink that takes none, or all but the last byte. -/
theorem test_witness_tser : (holding treeH1).tv = true ∧ SinkRoom (holding treeH1) (serial treeH1).length ∧
    serial treeH1 = [] ++ 0x00 :: [0x01, 0x42, 0x01, 0x41] ∧ serial treeH1 = [0x00, 0x01, 0x42, 0x01] ++ 0x41 :: [] ∧
    ({ holding treeH1 with cfg := ⟨none, some 4⟩ } : State).cfg.snkCap = some (0 + 4) := by
  refine ⟨rfl, fun c h => (by cases h), by decide, by decide, rfl⟩

/-- TloadReadsASerialTree. -/
theorem test_witness_tload : Proper treeH1 ∧
    ({ State.reset with src := [0, 1, 0x42, 1, 0x41, 0xE0] } : State).src = serial treeH1 ++ [0xE0] := by
  refine ⟨by decide, by decide⟩

/-- WbitWritesOneBit: the seventh and the eighth bit of a byte, with room and without. -/
theorem test_witness_wbit : (1 : Byte).toNat ≤ 1 ∧ ({ State.reset with wcnt := 6 } : State).wcnt ≠ 7 ∧
    ({ State.reset with wcnt := 7, wacc := 0x7F } : State).wcnt = 7 ∧ (0xFF : Byte).toNat = (0x7F * 2 + 1) % 256 ∧
    SinkRoom { State.reset with cfg := ⟨none, some 1⟩ } 1 ∧
    ({ State.reset with cfg := ⟨none, some 0⟩ } : State).cfg.snkCap = some State.reset.snk.length := by
  refine ⟨by decide, by decide, rfl, by decide, fun c h => by cases h; decide, rfl⟩

/-- WflushPadsAndEmits: no pending bit, one, seven. -/
theorem test_witness_wflush : State.reset.wcnt = 0 ∧ 1 ≤ (1 : BitVec 4).toNat ∧ (7 : BitVec 4).toNat ≤ 7 ∧
    (0x80 : Byte).toNat = ((1 : BitVec 8).toNat * 2 ^ (8 - (1 : BitVec 4).toNat)) % 256 ∧
    (0xFE : Byte).toNat = ((0x7F : BitVec 8).toNat * 2 ^ (8 - (7 : BitVec 4).toNat)) % 256 := by decide

/-- RbitReadsOneBit: nothing left, a byte to load, one bit buffered. -/
theorem test_witness_rbit : State.reset.rcnt = 0 ∧ State.reset.src = [] ∧
    ({ State.reset with src := [0xA5] } : State).src = 0xA5 :: [] ∧ ({ State.reset with rcnt := 1 } : State).rcnt ≠ 0 := by
  decide

/-- BitCommandsAreStreams. -/
theorem test_witness_streams : WriterOk { State.reset with wacc := 0x7F, wcnt := 7 } ∧
    SinkRoom { State.reset with wacc := 0x7F, wcnt := 7 } 1 ∧ ReaderOk { State.reset with racc := 0x80, rcnt := 1 } ∧
    sourceBits { State.reset with racc := 0x80, rcnt := 1 } = true :: [] := by
  refine ⟨⟨by decide, by decide⟩, fun c h => (by cases h), ⟨by decide, by decide⟩, by decide⟩

/-- WriterReaderPair: nine bits, a sink with room for just two bytes, and a reader. -/
theorem test_witness_pair : ({ State.reset with cfg := ⟨none, some 2⟩ } : State).wcnt = 0 ∧
    ({ State.reset with cfg := ⟨none, some 2⟩ } : State).wacc = 0 ∧
    SinkRoom { State.reset with cfg := ⟨none, some 2⟩ } ((9 + 7) / 8) ∧
    ({ State.reset with src := [0xA5, 0x80] } : State).rcnt = 0 ∧ State.reset.racc = 0 := by
  refine ⟨rfl, rfl, fun c h => by cases h; decide, rfl, rfl⟩

/-- EncodeWritesTheCodes: K2's start, one bit pending. -/
theorem test_witness_encode : (holding treeH1).tv = true ∧ WriterOk { holding treeH1 with wacc := 1, wcnt := 1 } ∧
    (∀ x ∈ [(0x41 : Byte), 0x41, 0x41, 0x42], codeOf (holding treeH1).ct x ≠ []) ∧
    SinkRoom { holding treeH1 with wacc := 1, wcnt := 1 } ((1 + 4) / 8) := by
  refine ⟨rfl, ⟨by decide, by decide⟩, by decide +kernel, fun c h => (by cases h)⟩

/-- EncodeFaultsOnAbsentSymbol: K10's start. -/
theorem test_witness_absent : WriterOk (holding treeH1) ∧
    [(0x41 : Byte), 0x42, 0x43, 0x41] = [0x41, 0x42] ++ 0x43 :: [0x41] ∧
    (∀ y ∈ [(0x41 : Byte), 0x42], codeOf (holding treeH1).ct y ≠ []) ∧ codeOf (holding treeH1).ct 0x43 = [] ∧
    [(0x41 : Byte), 0x42].length < 2 ^ 64 := by
  refine ⟨⟨by decide, by decide⟩, rfl, by decide +kernel, by decide +kernel, by decide⟩

/-- DecodeReadsTheCodes: K5's start, and ARG0 = 0. -/
theorem test_witness_decode : Proper (holding treeH1).tree ∧ ReaderOk (holding treeH1) ∧
    (∀ x ∈ [(0x41 : Byte), 0x41, 0x41, 0x42], x ∈ syms treeH1) ∧
    sourceBits { holding treeH1 with src := [0xE0] } =
      codeBits (codes treeH1) [0x41, 0x41, 0x41, 0x42] ++ [false, false, false, false] ∧
    (4 : Word).toNat = [(0x41 : Byte), 0x41, 0x41, 0x42].length ∧ (0 : Word).toNat = ([] : List Byte).length ∧
    SinkRoom (holding treeH1) 4 := by
  refine ⟨by decide, ⟨by decide, by decide⟩, by decide, by decide +kernel, by decide, by decide, fun c h => (by cases h)⟩

/-- DecodeFaultsOnTruncatedInput: K4's start, a symbol cut after a bit, and D6's start. -/
theorem test_witness_truncated : sourceBits (holding treeH1) = codeBits (codes treeH1) [] ++ [] ∧
    (∀ x ∈ syms treeH1, ¬ codeOf (codes treeH1) x <+: []) ∧ ([] : List Byte).length < (4 : Word).toNat ∧
    (∀ x ∈ syms (.node (.leaf 1) (.node (.leaf 2) (.leaf 3))),
      ¬ codeOf (codes (.node (.leaf 1) (.node (.leaf 2) (.leaf 3)))) x <+: [true]) ∧
    sourceBits (holding (.leaf 0x5A)) = codeBits (codes (.leaf 0x5A)) [] ++ [] := by
  refine ⟨by decide, by decide +kernel, by decide, by decide +kernel, by decide⟩

/-- DecodeFaultsOnInvalidCode: D4's start. -/
theorem test_witness_invalid : ReaderOk (holding (.leaf 0x5A)) ∧
    sourceBits { holding (.leaf 0x5A) with src := [0x04] } = List.replicate 5 false ++ true :: [false, false] ∧
    5 < (7 : Word).toNat ∧ SinkRoom (holding (.leaf 0x5A)) 5 := by
  refine ⟨⟨by decide, by decide⟩, by decide, by decide, fun c h => (by cases h)⟩

/-- RoundTrip, TruncationIsDetected: the table of P1, its tree, its bytes, a sink with room for just the payload, and a
payload cut to nothing. -/
theorem test_witness_round : (∀ x ∈ [(0x41 : Byte), 0x41, 0x41, 0x42], tableGet (tab2 0x41 3 0x42 1) x ≠ 0) ∧
    (∃ s : State, s.tv = true ∧ s.tree = hBuild (tab2 0x41 3 0x42 1) ∧ s.ct = codes (hBuild (tab2 0x41 3 0x42 1)) ∧
      s.fault = false ∧ s.wcnt = 0 ∧ s.wacc = 0 ∧ s.src = [0x41, 0x41, 0x41, 0x42] ∧ s.cfg.snkCap = some 1 ∧
      SinkRoom s (((codeBits (codes (hBuild (tab2 0x41 3 0x42 1))) [0x41, 0x41, 0x41, 0x42]).length + 7) / 8)) ∧
    (holding treeH1).rcnt = 0 ∧ (holding treeH1).racc = 0 ∧ SinkRoom (holding treeH1) 4 ∧
    (4 : Word).toNat = [(0x41 : Byte), 0x41, 0x41, 0x42].length ∧ ([] : List Byte) <+: [0xE0] ∧
    ([] : List Byte) ≠ [0xE0] := by
  have hbits : ((codeBits (codes (hBuild (tab2 0x41 3 0x42 1))) [0x41, 0x41, 0x41, 0x42]).length + 7) / 8 = 1 := by
    decide +kernel
  refine ⟨by decide +kernel, ⟨{ holding (hBuild (tab2 0x41 3 0x42 1)) with
      src := [0x41, 0x41, 0x41, 0x42], cfg := ⟨none, some 1⟩ }, rfl, rfl, rfl, rfl, rfl, rfl, rfl, rfl, fun c h => ?_⟩,
    rfl, rfl, fun c h => (by cases h), by decide, by decide, by decide⟩
  cases h; rw [hbits]; decide

/-- StepKeepsTheInvariants: an invariant state with a tree, a pending bit and a full sink, and a step. -/
theorem test_witness_inv : Inv { holding treeH1 with wacc := 1, wcnt := 1, snk := [7], cfg := ⟨some 0, some 1⟩ } ∧
    ∃ t, step { withMove (.write 0 0x41000000) with cfg := ⟨some 0, some 1⟩ } = .next t := by
  refine ⟨⟨⟨by decide, by decide⟩, ⟨by decide, by decide⟩, fun _ => ⟨rfl, rfl, rfl⟩, fun h => (by cases h),
    fun _ => ⟨.inl rfl, by decide, rfl⟩, fun c h => by cases h; decide, fun c h => by cases h; decide⟩, _, rfl⟩

/-- RegistersAndTablesWriters, TreeLifetime, StreamWriters: commands that change what they may change. -/
theorem test_witness_writers : (∃ t, exec (.fget 0x41) { State.reset with ft := tab2 0x41 3 0x42 1 } = .next t ∧
      t.arg0 ≠ State.reset.arg0) ∧
    (∃ t, exec .snkclr { State.reset with snk := [1] } = .next t ∧ t.snk ≠ [1]) ∧ Instr.fget 0x41 ≠ .srst := by
  refine ⟨⟨_, rfl, by decide +kernel⟩, ⟨_, rfl, by decide⟩, by decide⟩

/-- SinkFullMeansFull, the clauses on ENCODE and DECODE: B13's start, whose sixteenth code completes the second byte, and
K5's start with room for three symbols of the four. -/
theorem test_witness_full_codec :
    WriterOk (holding treeH1) ∧ List.replicate 17 (0x41 : Byte) = List.replicate 15 0x41 ++ 0x41 :: [0x41] ∧
    (∀ y ∈ List.replicate 15 (0x41 : Byte), codeOf (holding treeH1).ct y ≠ []) ∧
    ({ holding treeH1 with cfg := ⟨none, some 1⟩ } : State).cfg.snkCap = some (0 + 1) ∧
    0 + (codeBits (holding treeH1).ct (List.replicate 15 0x41)).length < 8 * (1 + 1) ∧
    8 * (1 + 1) ≤ 0 + (codeBits (holding treeH1).ct (List.replicate 15 0x41 ++ [0x41])).length ∧
    Proper treeH1 ∧ ReaderOk (holding treeH1) ∧ (∀ y ∈ [(0x41 : Byte), 0x41, 0x41], y ∈ syms treeH1) ∧ 0x42 ∈ syms treeH1 ∧
    sourceBits { holding treeH1 with src := [0xE0] } =
      codeBits (codes treeH1) ([0x41, 0x41, 0x41] ++ [0x42]) ++ [false, false, false, false] ∧
    ({ holding treeH1 with cfg := ⟨none, some 3⟩ } : State).cfg.snkCap = some (0 + [(0x41 : Byte), 0x41, 0x41].length) := by
  refine ⟨⟨by decide, by decide⟩, by decide, by decide +kernel, rfl, by decide +kernel, by decide +kernel, by decide,
    ⟨by decide, by decide⟩, by decide, by decide, by decide +kernel, rfl⟩

/-- SinkFullMeansFull: WBIT with the sink full. -/
theorem test_witness_full :
    ∃ t, exec (.wbit 1) { State.reset with wacc := 0x7F, wcnt := 7, cfg := ⟨none, some 0⟩ } = .next t ∧
      State.reset.fault = false ∧ t.fault = true ∧ t.err = 10 := ⟨_, rfl, rfl, rfl, rfl⟩

end Sys2Proof.Tests
end

section
/-! SUPPORT. R38: what reset and SRST leave. R39: each invariant between commands is kept by every command, and from that
by every step. -/

namespace Sys2Proof.Machine
open Sys2Proof

/-! ### Reset and soft reset -/

theorem hasResetValues_softReset (s : State) : HasResetValues (softReset s) where
  args := ⟨rfl, rfl⟩
  status := ⟨rfl, rfl, rfl, rfl, rfl, rfl⟩
  errinfo := ⟨rfl, rfl⟩
  counts := ⟨rfl, rfl⟩
  accumulators := ⟨rfl, rfl, rfl, rfl⟩
  tables := fun x => ⟨tableGet_zeroTable x, tableGet_zeroTable x⟩
  queues := ⟨rfl, rfl⟩

/-- Settles O1: the reset state is the soft reset of itself, so one list of values serves both. -/
theorem resetAndSoftResetValues : Obligations.ResetAndSoftResetValues :=
  ⟨by decide, hasResetValues_softReset State.reset, fun s => ⟨softReset s, rfl, hasResetValues_softReset s⟩⟩

/-! ### The parts of the invariant

Each part looks at a few fields only, so it passes to any state in which these fields are the same. -/

theorem WriterOk.congr {s t : State} (h : WriterOk s) (hacc : t.wacc = s.wacc) (hcnt : t.wcnt = s.wcnt) : WriterOk t :=
  ⟨hcnt ▸ h.count, by rw [hacc, hcnt]; exact h.small⟩

theorem ReaderOk.congr {s t : State} (h : ReaderOk s) (hacc : t.racc = s.racc) (hcnt : t.rcnt = s.rcnt) : ReaderOk t :=
  ⟨hcnt ▸ h.count, by rw [hacc, hcnt]; exact h.aligned⟩

/-- FAULT = 0 leaves no fault record (10_state.md R39). -/
def FaultOk (s : State) : Prop := s.fault = false → s.err = 0 ∧ s.errinfo0 = 0 ∧ s.errinfo1 = 0

/-- The flags of the tree, and TREE and CT behind TV = 1 (10_state.md R39). -/
structure TreeOk (s : State) : Prop where
  absent : s.tv = false → s.talg = 0 ∧ s.syn = false
  present : s.tv = true → (s.talg = 1 ∨ s.talg = 3) ∧ Proper s.tree ∧ s.ct = codes s.tree

/-- SRC is within its capacity. -/
def SourceCapOk (s : State) : Prop := ∀ c, s.cfg.srcCap = some c → s.src.length ≤ c

theorem inv_iff (s : State) :
    Inv s ↔ WriterOk s ∧ ReaderOk s ∧ FaultOk s ∧ TreeOk s ∧ SourceCapOk s ∧ SinkCapOk s :=
  ⟨fun h => ⟨h.writer, h.reader, h.noFault, ⟨h.noTree, h.tree⟩, h.srcCap, h.snkCap⟩,
    fun ⟨hw, hr, hf, ht, hsrc, hsnk⟩ => ⟨hw, hr, hf, ht.absent, ht.present, hsrc, hsnk⟩⟩

theorem FaultOk.of_faultRecord {s t : State} (h : FaultOk s) (hr : FaultRecord s t) : FaultOk t := by
  intro hgood
  rcases hr with ⟨herr, hfault, h0, h1⟩ | ⟨hfault, _⟩ | ⟨hfault, _⟩
  · rw [herr, h0, h1]; exact h (hfault ▸ hgood)
  · rw [hfault] at hgood; cases hgood
  · rw [hfault] at hgood; cases hgood

theorem TreeOk.congr {s t : State} (h : TreeOk s) (htv : t.tv = s.tv) (htalg : t.talg = s.talg) (hsyn : t.syn = s.syn)
    (htree : t.tree = s.tree) (hct : t.ct = s.ct) : TreeOk t :=
  ⟨by rw [htv, htalg, hsyn]; exact h.absent, by rw [htv, htalg, htree, hct]; exact h.present⟩

theorem TreeOk.of_tv_false {s : State} (htv : s.tv = false) (htalg : s.talg = 0) (hsyn : s.syn = false) : TreeOk s :=
  ⟨fun _ => ⟨htalg, hsyn⟩, fun h => by rw [htv] at h; cases h⟩

theorem treeOk_installTree {t : CodeTree} {alg : BitVec 8} (hp : Proper t) (halg : alg = 1 ∨ alg = 3) (syn : Bool)
    (s : State) : TreeOk (installTree t alg syn s) :=
  ⟨fun h => (by cases h), fun _ => ⟨halg, hp, rfl⟩⟩

theorem SourceCapOk.of_le {s t : State} (h : SourceCapOk s) (hcfg : t.cfg = s.cfg) (hle : t.src.length ≤ s.src.length) :
    SourceCapOk t :=
  fun c hc => le_trans hle (h c (hcfg ▸ hc))

theorem SinkCapOk.of_le {s t : State} (h : SinkCapOk s) (hcfg : t.cfg = s.cfg) (hle : t.snk.length ≤ s.snk.length) :
    SinkCapOk t :=
  fun c hc => le_trans hle (h c (hcfg ▸ hc))

theorem sourceCapOk_srcPush (b : Byte) {s : State} (h : SourceCapOk s) : SourceCapOk (srcPush b s) := by
  unfold srcPush
  split
  · next hroom =>
    intro c hc
    have := (hasRoom_of _ _).1 hroom c hc
    simpa using this
  · exact h

/-! ### The shared operations -/

/-- What WBIT's operation keeps, with or without a fault. -/
theorem writeBit_keeps (b : Bit) (s : State) :
    (WriterOk s → WriterOk (settled (writeBit b s))) ∧ (SinkCapOk s → SinkCapOk (settled (writeBit b s))) := by
  have hs := writeBit_spec b s
  cases hr : writeBit b s with
  | ok t => rw [hr] at hs; exact hs.2
  | error t =>
    rw [hr] at hs
    rw [settled_error, hs.1]
    exact ⟨fun _ => writerOk_zero rfl rfl, id⟩

/-- What WFLUSH's operation keeps, with or without a fault. -/
theorem flushWriter_keeps (s : State) :
    (WriterOk s → WriterOk (settled (flushWriter s))) ∧ (SinkCapOk s → SinkCapOk (settled (flushWriter s))) := by
  have hs := flushWriter_spec s
  cases hr : flushWriter s with
  | ok t => rw [hr] at hs; exact hs.2
  | error t =>
    rw [hr] at hs
    rw [settled_error, hs.1]
    exact ⟨fun _ => writerOk_zero rfl rfl, id⟩

theorem sinkCapOk_snkPushAll (l : List Byte) {s : State} (h : SinkCapOk s) : SinkCapOk (settled (snkPushAll l s)) := by
  have hs := snkPushAll_spec l s
  cases hr : snkPushAll l s with
  | ok t => rw [hr] at hs; exact hs.2 h
  | error t =>
    rw [hr] at hs
    obtain ⟨_, _, _, _, _, _, hcap⟩ := hs
    exact hcap h

/-- What ENCODE's loop keeps, with or without a fault. -/
theorem encodeLoop_keeps (s : State) :
    (WriterOk s → WriterOk (settled (encodeLoop s.src 0 s))) ∧
    (SinkCapOk s → SinkCapOk (settled (encodeLoop s.src 0 s))) ∧
    (settled (encodeLoop s.src 0 s)).src.length ≤ s.src.length := by
  have hs := encodeLoop_spec s.src 0 s rfl
  cases hr : encodeLoop s.src 0 s with
  | ok t =>
    rw [hr] at hs
    obtain ⟨hframe, hw, hcap⟩ := hs
    exact ⟨hw, hcap, by rw [settled_ok, hframe]; simp⟩
  | error t =>
    rw [hr] at hs
    obtain ⟨_, _, hsrc, hw, hcap⟩ := hs
    exact ⟨hw, hcap, hsrc⟩

/-- What DECODE's loop keeps, with or without a fault. -/
theorem decodeLoop_keeps (n left : Nat) (s : State) :
    (ReaderOk s → ReaderOk (settled (decodeLoop n left s))) ∧
    (SinkCapOk s → SinkCapOk (settled (decodeLoop n left s))) ∧
    (settled (decodeLoop n left s)).src.length ≤ s.src.length := by
  have hs := decodeLoop_spec n left s
  cases hr : decodeLoop n left s with
  | ok t =>
    rw [hr] at hs
    obtain ⟨_, hsrc, hrd, hcap⟩ := hs
    exact ⟨hrd, hcap, hsrc⟩
  | error t =>
    rw [hr] at hs
    obtain ⟨_, _, hsrc, hrd, hcap⟩ := hs
    exact ⟨hrd, hcap, hsrc⟩

/-- TLOAD takes bytes from the front of SRC only. -/
theorem parseSource_src_length_le (src : List Byte) :
    match parseSource src with
    | .tree _ ld => ld.src.length ≤ src.length
    | .failed _ _ _ ld => ld.src.length ≤ src.length := by
  have hs := parse_sound (src.length + 1) ⟨src, [], 0, 0⟩
  unfold parseSource
  cases hp : parse (src.length + 1) ⟨src, [], 0, 0⟩ with
  | tree t ld =>
    rw [hp] at hs
    have := congrArg List.length hs.1
    simp at this ⊢; omega
  | failed k e0 e1 ld =>
    rw [hp] at hs
    obtain ⟨⟨gone, hgone, _⟩, _⟩ := hs
    have := congrArg List.length hgone
    simp at this ⊢; omega

/-! ### The commands -/

theorem changes_of_exec {i : Instr} {s t : State} (h : exec i s = .next t) : Changes i s t := by
  obtain ⟨u, hu, hc, _⟩ := exec_spec i s
  rw [hu] at h; cases h; exact hc

theorem faultRecord_of_exec {i : Instr} {s t : State} (h : exec i s = .next t) (hclrf : i ≠ .clrf) (hsrst : i ≠ .srst) :
    FaultRecord s t := by
  obtain ⟨u, hu, _, hf⟩ := exec_spec i s
  rw [hu] at h; cases h; exact hf hclrf hsrst

theorem eq_of_next {s t : State} (h : (.next s : Outcome) = .next t) : t = s := by cases h; rfl

theorem eq_settled_of_endCommand {r : Except State State} {t : State} (h : endCommand r = .next t) : t = settled r :=
  eq_of_next (endCommand_eq r ▸ h)

/-- A command that needs a tree and ends in `op` faults at once or settles `op`. -/
theorem withTree_endCommand {op : State → Except State State} {s t : State}
    (h : withTree s (fun s => endCommand (op s)) = .next t) : t = raise .noTree 0 0 s ∨ t = settled (op s) := by
  cases htv : s.tv with
  | false => rw [withTree_none htv] at h; exact .inl (eq_of_next h)
  | true => rw [withTree_valid htv] at h; exact .inr (eq_settled_of_endCommand h)

theorem execTser_cases {s t : State} (h : execTser s = .next t) :
    t = raise .noTree 0 0 s ∨ t = settled (snkPushAll (serial s.tree) s) :=
  withTree_endCommand (op := fun s => snkPushAll (serial s.tree) s) h

theorem execEncode_cases {s t : State} (h : execEncode s = .next t) :
    t = raise .noTree 0 0 s ∨ t = settled (encodeLoop s.src 0 s) :=
  withTree_endCommand (op := fun s => encodeLoop s.src 0 s) h

theorem execDecode_cases {s t : State} (h : execDecode s = .next t) :
    t = raise .noTree 0 0 s ∨ t = settled (decodeLoop s.arg0.toNat s.arg0.toNat s) :=
  withTree_endCommand (op := fun s => decodeLoop s.arg0.toNat s.arg0.toNat s) h

theorem execRbit_spec {s t : State} (h : execRbit s = .next t) : ∃ v, t = { (readBit s).2 with arg0 := v } := by
  unfold execRbit at h
  split at h <;> next heq => exact ⟨_, by rw [eq_of_next h, heq]⟩

theorem execTload_cases {s t : State} (h : execTload s = .next t) :
    (∃ tree ld, parseSource s.src = .tree tree ld ∧ t = installTree tree 1 false { dropTree s with src := ld.src }) ∨
    ∃ k e0 e1 ld, parseSource s.src = .failed k e0 e1 ld ∧
      t = raise k (countWord e0) (countWord e1) { dropTree s with src := ld.src } := by
  unfold execTload at h
  split at h
  · next tree ld heq => exact .inl ⟨tree, ld, heq, eq_of_next h⟩
  · next k e0 e1 ld heq => exact .inr ⟨k, e0, e1, ld, heq, eq_of_next h⟩

theorem exec_keeps_writerOk {i : Instr} {s t : State} (h : exec i s = .next t) (hs : WriterOk s) : WriterOk t := by
  have hc := changes_of_exec h
  cases i
  case srst => rw [show t = _ from hc]; exact writerOk_zero rfl rfl
  case wrst => rw [show t = _ from hc]; exact writerOk_zero rfl rfl
  case wbit b => rw [eq_settled_of_endCommand h]; exact (writeBit_keeps _ s).1 hs
  case wflush => rw [eq_settled_of_endCommand h]; exact (flushWriter_keeps s).1 hs
  case encode =>
    rcases execEncode_cases h with rfl | rfl
    · exact hs.congr rfl rfl
    · exact (encodeLoop_keeps s).1 hs
  all_goals rw [show t = _ from hc]; exact hs.congr rfl rfl

theorem exec_keeps_readerOk {i : Instr} {s t : State} (h : exec i s = .next t) (hs : ReaderOk s) : ReaderOk t := by
  have hc := changes_of_exec h
  cases i
  case srst => rw [show t = _ from hc]; exact readerOk_zero rfl rfl
  case rrst => rw [show t = _ from hc]; exact readerOk_zero rfl rfl
  case rbit =>
    obtain ⟨v, rfl⟩ := execRbit_spec h
    exact ((readFrom_readBit s).reader hs).congr rfl rfl
  case decode =>
    rcases execDecode_cases h with rfl | rfl
    · exact hs.congr rfl rfl
    · exact (decodeLoop_keeps _ _ s).1 hs
  all_goals rw [show t = _ from hc]; exact hs.congr rfl rfl

theorem exec_keeps_faultOk {i : Instr} {s t : State} (h : exec i s = .next t) (hs : FaultOk s) : FaultOk t := by
  by_cases hclrf : i = .clrf
  · subst hclrf; rw [eq_of_next h]; exact fun _ => ⟨rfl, rfl, rfl⟩
  by_cases hsrst : i = .srst
  · subst hsrst; rw [eq_of_next h]; exact fun _ => ⟨rfl, rfl, rfl⟩
  exact hs.of_faultRecord (faultRecord_of_exec h hclrf hsrst)

theorem exec_keeps_treeOk {i : Instr} {s t : State} (h : exec i s = .next t) (hs : TreeOk s) : TreeOk t := by
  have hc := changes_of_exec h
  cases i
  case srst => rw [show t = _ from hc]; exact .of_tv_false rfl rfl rfl
  case tdrop => rw [show t = _ from hc]; exact .of_tv_false rfl rfl rfl
  case hbuild => rw [eq_of_next h]; exact treeOk_installTree (hBuild_proper _) (.inl rfl) _ s
  case sbuild => rw [eq_of_next h]; exact treeOk_installTree (sBuild_proper _) (.inr rfl) _ s
  case tload =>
    rcases execTload_cases h with ⟨tree, ld, hp, rfl⟩ | ⟨k, e0, e1, ld, _, rfl⟩
    · exact treeOk_installTree (parse_proper hp).1 (.inl rfl) _ _
    · exact .of_tv_false rfl rfl rfl
  all_goals rw [show t = _ from hc]; exact hs.congr rfl rfl rfl rfl rfl

/-- No command changes the capacities. -/
theorem exec_cfg {i : Instr} {s t : State} (h : exec i s = .next t) : t.cfg = s.cfg := by
  have hc := changes_of_exec h
  cases i
  case srst => rw [show t = _ from hc]; rfl
  all_goals rw [show t = _ from hc]

/-- No command puts a byte into SRC. -/
theorem exec_src_length_le {i : Instr} {s t : State} (h : exec i s = .next t) : t.src.length ≤ s.src.length := by
  have hc := changes_of_exec h
  cases i
  case srst => rw [show t = _ from hc]; exact Nat.zero_le _
  case fscan => rw [show t = _ from hc]; exact Nat.zero_le _
  case srcclr => rw [show t = _ from hc]; exact Nat.zero_le _
  case tload =>
    have hle := parseSource_src_length_le s.src
    rcases execTload_cases h with ⟨tree, ld, hp, rfl⟩ | ⟨k, e0, e1, ld, hp, rfl⟩
    · rw [hp] at hle; exact hle
    · rw [hp] at hle; exact hle
  case rbit =>
    obtain ⟨v, rfl⟩ := execRbit_spec h
    exact (readFrom_readBit s).shorter
  case encode =>
    rcases execEncode_cases h with rfl | rfl
    · exact le_rfl
    · exact (encodeLoop_keeps s).2.2
  case decode =>
    rcases execDecode_cases h with rfl | rfl
    · exact le_rfl
    · exact (decodeLoop_keeps _ _ s).2.2
  all_goals rw [show t = _ from hc]

theorem exec_keeps_sinkCapOk {i : Instr} {s t : State} (h : exec i s = .next t) (hs : SinkCapOk s) : SinkCapOk t := by
  have hc := changes_of_exec h
  cases i
  case srst => rw [show t = _ from hc]; exact hs.of_le rfl (Nat.zero_le _)
  case snkclr => rw [show t = _ from hc]; exact hs.of_le rfl (Nat.zero_le _)
  case wbit b => rw [eq_settled_of_endCommand h]; exact (writeBit_keeps _ s).2 hs
  case wflush => rw [eq_settled_of_endCommand h]; exact (flushWriter_keeps s).2 hs
  case tser =>
    rcases execTser_cases h with rfl | rfl
    · exact hs
    · exact sinkCapOk_snkPushAll _ hs
  case encode =>
    rcases execEncode_cases h with rfl | rfl
    · exact hs
    · exact (encodeLoop_keeps s).2.1 hs
  case decode =>
    rcases execDecode_cases h with rfl | rfl
    · exact hs
    · exact (decodeLoop_keeps _ _ s).2.1 hs
  all_goals rw [show t = _ from hc]; exact hs

/-! ### The step -/

theorem exec_keeps_inv {i : Instr} {s t : State} (h : exec i s = .next t) (hs : Inv s) : Inv t := by
  obtain ⟨hw, hr, hf, ht, hsrc, hsnk⟩ := (inv_iff s).1 hs
  exact (inv_iff t).2 ⟨exec_keeps_writerOk h hw, exec_keeps_readerOk h hr, exec_keeps_faultOk h hf,
    exec_keeps_treeOk h ht, hsrc.of_le (exec_cfg h) (exec_src_length_le h), exec_keeps_sinkCapOk h hsnk⟩

theorem inv_raise {s : State} (k : FaultKind) (e0 e1 : Word) (hs : Inv s) : Inv (raise k e0 e1 s) := by
  obtain ⟨hw, hr, _, ht, hsrc, hsnk⟩ := (inv_iff s).1 hs
  exact (inv_iff _).2 ⟨hw.congr rfl rfl, hr.congr rfl rfl, fun h => (by cases h), ht.congr rfl rfl rfl rfl rfl,
    hsrc, hsnk⟩

theorem runCommand_keeps_inv {c : CommandWord} {s t : State} (h : runCommand c s = .next t) (hs : Inv s) : Inv t := by
  rcases run_spec c s with ⟨_, hrun⟩ | ⟨_, i, _, hrun⟩ | ⟨_, _, k, e0, hrun, _⟩ <;> rw [hrun] at h
  · rw [eq_of_next h]; exact hs
  · exact exec_keeps_inv h hs
  · rw [eq_of_next h]; exact inv_raise k e0 0 hs

/-- A change of ARG0, ARG1, the queues and the model's own records, as a host move makes it that runs no command, can
break the invariant only at a queue's capacity. -/
theorem Inv.of_queues {s t : State} (hs : Inv s) (hsrc : SourceCapOk t) (hsnk : SinkCapOk t)
    (hframe : t = { s with
      arg0 := t.arg0, arg1 := t.arg1, src := t.src, snk := t.snk, moves := t.moves, returned := t.returned }) : Inv t := by
  obtain ⟨hw, hr, hf, ht, _, _⟩ := (inv_iff s).1 hs
  refine (inv_iff t).2 ⟨?_, ?_, ?_, ?_, hsrc, hsnk⟩ <;> rw [hframe]
  · exact hw.congr rfl rfl
  · exact hr.congr rfl rfl
  · exact hf
  · exact ht.congr rfl rfl rfl rfl rfl

theorem hostMove_keeps_inv {m : HostMove} {s t : State} (h : hostMove m s = .next t) (hs : Inv s) : Inv t := by
  rcases hostMove_cases m s t h with ⟨i, _, _, rfl⟩ | ⟨v, _, hrun⟩ | ⟨i, v, _, _, rfl | rfl | rfl | rfl⟩
  · refine hs.of_queues hs.srcCap (SinkCapOk.of_le hs.snkCap rfl ?_) rfl
    dsimp only
    split <;> simp
  · exact runCommand_keeps_inv hrun hs
  · exact hs.of_queues hs.srcCap hs.snkCap rfl
  · exact hs.of_queues hs.srcCap hs.snkCap rfl
  · exact hs.of_queues (sourceCapOk_srcPush _ hs.srcCap) (by rw [srcPush_frame]; exact hs.snkCap) (by rw [srcPush_frame])
  · exact hs

theorem step_keeps_inv {s t : State} (h : step s = .next t) (hs : Inv s) : Inv t := by
  rcases step_cases s t h with ⟨_, rfl⟩ | ⟨m, rest, _, hmove⟩
  · exact hs
  · exact hostMove_keeps_inv hmove (hs.of_queues hs.srcCap hs.snkCap rfl)

/-- Settles O56, by the invariant's parts: each command keeps each part, and what a host move does besides running a
command touches the queues only. -/
theorem stepKeepsTheInvariants : Obligations.StepKeepsTheInvariants :=
  fun _ _ hs h => step_keeps_inv h hs

end Sys2Proof.Machine
end

section
/-! SUPPORT. R75: what a move at an index does that the register map does not define, or defines for the other
direction only. -/

namespace Sys2Proof.Machine
open Sys2Proof

theorem step_of_moves_eq_cons {s : State} {m : HostMove} {rest : List HostMove} (h : s.moves = m :: rest) :
    step s = hostMove m { s with moves := rest } := by
  simp only [step, nextMove, h]

/-- CMD and SRCDATA are write-only, 14 and 15 are reserved (R62, R65). -/
theorem registerValue_of_not_readable {i : Nat} (hi : i = 0 ∨ i = 8 ∨ i = 14 ∨ i = 15) (s : State) :
    registerValue i s = 0 := by
  rcases hi with rfl | rfl | rfl | rfl <;> rfl

theorem afterRead_of_ne {i : Nat} (hi : i ≠ 10) (s : State) : afterRead i s = s := if_neg hi

theorem hostRead_of_lt {i : Nat} (hi : i < 16) (s : State) :
    hostRead i s = .next { afterRead i s with returned := s.returned ++ [registerValue i s] } := if_pos hi

theorem hostRead_of_not_readable {i : Nat} (hi : i = 0 ∨ i = 8 ∨ i = 14 ∨ i = 15) (s : State) :
    hostRead i s = .next { s with returned := s.returned ++ [0] } := by
  rw [hostRead_of_lt (by omega), registerValue_of_not_readable hi, afterRead_of_ne (by omega)]

theorem hostRead_of_le {i : Nat} (hi : 16 ≤ i) (s : State) : hostRead i s = .refused (.noSuchRegister i) :=
  if_neg (Nat.not_lt.mpr hi)

/-- CMD, ARG0, ARG1 and SRCDATA are the only registers that take a write. -/
theorem hostWrite_of_not_writable {i : Nat} (hi : i < 16) (h0 : i ≠ 0) (h2 : i ≠ 2) (h3 : i ≠ 3) (h8 : i ≠ 8)
    (v : Word) (s : State) : hostWrite i v s = .next s := by
  unfold hostWrite
  rw [if_pos hi]
  split
  · exact absurd rfl h0
  · exact absurd rfl h2
  · exact absurd rfl h3
  · exact absurd rfl h8
  · rfl

theorem hostWrite_of_le {i : Nat} (hi : 16 ≤ i) (v : Word) (s : State) :
    hostWrite i v s = .refused (.noSuchRegister i) :=
  if_neg (Nat.not_lt.mpr hi)

/-- Settles O16, by what a read and a write do at each kind of undefined index. -/
theorem undefinedAccesses : Obligations.UndefinedAccesses := by
  intro s i rest
  refine ⟨fun v h hi => ?_, fun h hi => ?_, fun h hi => ?_, fun v h hi => ?_⟩ <;> rw [step_of_moves_eq_cons h]
  · exact hostWrite_of_not_writable (by omega) (by omega) (by omega) (by omega) (by omega) v _
  · exact hostRead_of_not_readable hi _
  · exact hostRead_of_le hi _
  · exact hostWrite_of_le hi v _

end Sys2Proof.Machine
end

section
/-! SUPPORT. R93: the rows of the opcode map are what the decoder checks and assembles, written as match and mask. -/

namespace Sys2Proof

/-! ### A row in terms of its format -/

/-- The bits of field A that the mask of a row keeps: those no legal operand sets, and in format G the algorithm
(30_encoding.md R91, R93). -/
def Format.maskA : Format → Byte
  | .N | .G => 0xFF
  | .S | .SK | .W => 0x00
  | .I => 0xFE

/-- The bits of field B that the mask of a row keeps: those no legal operand sets (30_encoding.md R91, R93). -/
def Format.maskB : Format → Byte
  | .N | .S | .W | .I => 0xFF
  | .SK => 0xFC
  | .G => 0xFE

theorem not_rejects_iff_masked (f : Format) (a b z : Byte) :
    ¬ f.rejects a b z ↔ (f ≠ .G → a &&& f.maskA = 0) ∧ b &&& f.maskB = 0 ∧ z = 0 := by
  cases f <;>
    simp only [Format.rejects, Format.usesA, Format.usesB, Format.maskA, Format.maskB, byte_and_ff, byte_and_00,
      byte_and_fe, byte_and_fc] <;>
    simp [and_comm, and_left_comm, and_assoc]

theorem formatOf_row : ∀ r ∈ opcodeRows, (formatOf (fieldOP r.pattern)).isSome := by decide

theorem row_by_format : ∀ r ∈ opcodeRows, ∀ f ∈ formatOf (fieldOP r.pattern),
    r.mask = joinBytes 0xFF f.maskA f.maskB 0xFF ∧ fieldB r.pattern = 0 ∧ fieldZ r.pattern = 0 ∧
      (f = .G → fieldA r.pattern = 1 ∨ fieldA r.pattern = 3) ∧ (f ≠ .G → fieldA r.pattern = 0) := by decide

/-- A word selects a row when it has the row's opcode, passes the checks of the opcode's format and, for BUILD, has the
row's algorithm. -/
theorem selects_iff {r : OpRow} (hr : r ∈ opcodeRows) {f : Format} (hf : formatOf (fieldOP r.pattern) = some f)
    (c : CommandWord) : c &&& r.mask = r.pattern ↔ fieldOP c = fieldOP r.pattern ∧
      ¬ f.rejects (fieldA c) (fieldB c) (fieldZ c) ∧ (f = .G → fieldA c = fieldA r.pattern) := by
  obtain ⟨hmask, hB, hZ, _, hA⟩ := row_by_format r hr f hf
  rw [word_and_eq, hmask, not_rejects_iff_masked, hB, hZ, fieldOP_joinBytes, fieldA_joinBytes, fieldB_joinBytes,
    fieldZ_joinBytes, byte_and_ff, byte_and_ff]
  by_cases hG : f = .G
  · rw [hG, show fieldA c &&& Format.maskA .G = fieldA c from byte_and_ff _]
    simp [and_comm]
  · simp [hG, hA hG]

/-! ### A command in terms of its row -/

theorem eq_ofNat_of_toNat_eq {op : Byte} {n : Nat} (h : op.toNat = n) : op = BitVec.ofNat 8 n := by
  rw [← h, BitVec.ofNat_toNat, BitVec.setWidth_eq]

/-- The map lists its rows in the order of the commands' constructors. -/
theorem row_of_assemble {op a b : Byte} {i : Instr} (h : assemble op a b = .instr i) :
    ∃ r, opcodeRows[i.ctorIdx]? = some r ∧ r.mnemonic = mnemonicOf i ∧ fieldOP r.pattern = op ∧
      (formatOf op = some .G → fieldA r.pattern = a) := by
  unfold assemble at h
  split at h
  case h_26 => cases h
  case h_11 hop =>
    obtain rfl := eq_ofNat_of_toNat_eq hop
    split_ifs at h with h1 h3 <;> cases h
    · exact ⟨_, rfl, rfl, rfl, fun _ => h1.symm⟩
    · exact ⟨_, rfl, rfl, rfl, fun _ => h3.symm⟩
  all_goals
    rename_i hop
    obtain rfl := eq_ofNat_of_toNat_eq hop
    cases h
    exact ⟨_, rfl, rfl, rfl, fun hG => nomatch hG⟩

theorem assemble_eq_unsupportedBuild {op a b a' b' : Byte} (h : assemble op a b = .unsupportedBuild a' b') :
    op = 0x20 ∧ a ≠ 1 ∧ a ≠ 3 := by
  unfold assemble at h
  split at h
  case h_11 hop =>
    split_ifs at h with h1 h3
    exact ⟨eq_ofNat_of_toNat_eq hop, h1, h3⟩
  all_goals cases h

theorem row_of_decode {c : CommandWord} {i : Instr} (h : decode c = .instr i) :
    ∃ r ∈ opcodeRows, r.mnemonic = mnemonicOf i ∧ c &&& r.mask = r.pattern := by
  have hlegal : ¬ ∃ why, decode c = .illegal why := by simp [h]
  cases hf : formatOf (fieldOP c) with
  | none => exact absurd ⟨_, decode_undefined hf⟩ hlegal
  | some f =>
    obtain ⟨hreject, haccept⟩ := decode_format hf
    obtain ⟨r, hrow, hname, hop, halg⟩ := row_of_assemble ((haccept hlegal).symm.trans h)
    have hr := List.mem_of_getElem? hrow
    exact ⟨r, hr, hname, (selects_iff hr (hop ▸ hf) c).2
      ⟨hop.symm, mt hreject.2 hlegal, fun hG => (halg (hG ▸ hf)).symm⟩⟩

theorem exists_decode_of_selects {r : OpRow} (hr : r ∈ opcodeRows) {c : CommandWord} (h : c &&& r.mask = r.pattern) :
    ∃ i, decode c = .instr i := by
  obtain ⟨f, hf⟩ := Option.isSome_iff_exists.1 (formatOf_row r hr)
  obtain ⟨hop, hok, halg⟩ := (selects_iff hr hf c).1 h
  rw [← hop] at hf
  have hd := decode_accepts hf hok
  cases ha : assemble (fieldOP c) (fieldA c) (fieldB c) with
  | instr i => exact ⟨i, hd.trans ha⟩
  | illegal why => exact absurd ha (assemble_ne_illegal hf _ _ why)
  | unsupportedBuild a' b' =>
    obtain ⟨h20, h1, h3⟩ := assemble_eq_unsupportedBuild ha
    obtain rfl : f = .G := by rw [h20] at hf; cases hf; rfl
    obtain ⟨_, _, _, hbuild, _⟩ := row_by_format r hr .G (hop ▸ hf)
    rw [← halg rfl] at hbuild
    exact (hbuild rfl).elim (absurd · h1) (absurd · h3)

/-! ### The rows are distinct -/

theorem row_of_mnemonic {r r' : OpRow} (hr : r ∈ opcodeRows) (hr' : r' ∈ opcodeRows) (h : r.mnemonic = r'.mnemonic) :
    r = r' :=
  List.inj_on_of_nodup_map (show (opcodeRows.map OpRow.mnemonic).Nodup by simp [opcodeRows]) hr hr' h

theorem row_of_pattern : ∀ r ∈ opcodeRows, ∀ r' ∈ opcodeRows,
    r.pattern &&& r'.mask = r'.pattern &&& r.mask → r = r' := by decide +kernel

/-- Rows that one word selects agree on the bits both masks keep. -/
theorem row_of_selects {r r' : OpRow} (hr : r ∈ opcodeRows) (hr' : r' ∈ opcodeRows) {c : CommandWord}
    (h : c &&& r.mask = r.pattern) (h' : c &&& r'.mask = r'.pattern) : r = r' :=
  row_of_pattern r hr r' hr' (by rw [← h, ← h']; ac_rfl)

/-- Settles O4: a word that selects a row decodes to a command, a word of a command selects the row of the command's
mnemonic, and a row is determined by its mnemonic and by any word that selects it. -/
theorem opcodeMapSelects : Obligations.OpcodeMapSelects := by
  refine ⟨fun r hr c => ⟨fun h => ?_, fun ⟨i, hd, hm⟩ => ?_⟩, fun _ hr _ hr' _ => row_of_selects hr hr'⟩
  · obtain ⟨i, hd⟩ := exists_decode_of_selects hr h
    obtain ⟨r', hr', hname, h'⟩ := row_of_decode hd
    exact ⟨i, hd, row_of_selects hr' hr h' h ▸ hname.symm⟩
  · obtain ⟨r', hr', hname, h'⟩ := row_of_decode hd
    exact row_of_mnemonic hr' hr (hname.trans hm) ▸ h'

end Sys2Proof
end

section
/-! SUPPORT. R120 to R123, R131, R132: the table FCLR and FSCAN make, and the entry FSET, FGET, QSET and QGET move. -/

namespace Sys2Proof.Machine
open Sys2Proof

theorem tableSum_eq_sum (t : Table) : tableSum t = ∑ x : Byte, (tableGet t x).toNat := by
  rw [tableSum, ← List.sum_toFinset _ nodup_allSymbols, Finset.eq_univ_of_forall (s := allSymbols.toFinset) (by simp)]

/-- Every byte is a symbol, so the counts of all symbols make up the length. -/
theorem tableSum_eq_length_of_counts {t : Table} {l : List Byte} (h : ∀ x, (tableGet t x).toNat = l.count x) :
    tableSum t = l.length := by
  rw [tableSum_eq_sum]
  calc ∑ x : Byte, (tableGet t x).toNat = ∑ x : Byte, (l : Multiset Byte).count x :=
        Finset.sum_congr rfl fun x _ => (h x).trans (Multiset.coe_count x l).symm
    _ = l.length := Multiset.sum_count_eq_card fun x _ => Finset.mem_univ x

theorem exec_fscan_ft {s t : State} (h : exec .fscan s = .next t) (x : Byte) :
    tableGet t.ft x = BitVec.ofNat 64 (s.src.count x) := by
  rw [eq_of_next h, (foldl_countByte s.src _).1 x]; simp

theorem exec_fscan_len {s t : State} (h : exec .fscan s = .next t) : t.len = BitVec.ofNat 64 s.src.length := by
  rw [eq_of_next h, (foldl_countByte s.src _).2]; simp

/-- Settles O20: FSCAN counts SRC byte by byte into the cleared table, and below 2^64 bytes no count wraps. -/
theorem fscanCountsTheSource : Obligations.FscanCountsTheSource := by
  refine ⟨by decide, fun s => ?_⟩
  obtain ⟨t, ht, hframe, _⟩ := exec_spec .fscan s
  have hft (x : Byte) : (tableGet t.ft x).toNat = s.src.count x % 2 ^ 64 := by
    rw [exec_fscan_ft ht, BitVec.toNat_ofNat]
  have hlen : t.len.toNat = s.src.length % 2 ^ 64 := by rw [exec_fscan_len ht, BitVec.toNat_ofNat]
  refine ⟨t, ht, hframe, hft, hlen, fun hlt => ?_⟩
  rw [hlen, Nat.mod_eq_of_lt hlt]
  exact tableSum_eq_length_of_counts fun x => (hft x).trans (Nat.mod_eq_of_lt (List.count_le_length.trans_lt hlt))

/-- Settles O19: the cleared table reads 0 everywhere. -/
theorem fclrClearsTheTable : Obligations.FclrClearsTheTable :=
  ⟨by decide, fun s => ⟨clearFreq s, rfl, rfl, tableGet_zeroTable⟩⟩

/-- Settles O21, by the command words' values and what a read of a table returns after a write. -/
theorem tableEntryCommands : Obligations.TableEntryCommands := by
  intro sym s
  have hword (op : Byte) : (commandWord op sym 0).toNat = op.toNat * 2 ^ 24 + sym.toNat * 2 ^ 16 := by
    rw [toNat_commandWord]; simp
  exact ⟨hword 0x12, hword 0x13, hword 0x19, hword 0x1A,
    ⟨_, rfl, rfl, tableGet_tableSet_self .., fun _ hne => tableGet_tableSet_ne _ _ hne⟩,
    ⟨_, rfl, rfl, tableGet_tableSet_self .., fun _ hne => tableGet_tableSet_ne _ _ hne⟩, rfl, rfl⟩

end Sys2Proof.Machine
end

section
/-! SUPPORT. R130, R142: the command QUANT, and the bounds of the source on the quantised table. Either no count is above
the bound and Quant copies the table, or it fills the table with the scaled values. -/

namespace Sys2Proof.Machine
open Sys2Proof

/-! ### The command -/

theorem exec_quant_of_legal {w : Byte} (h1 : 1 ≤ w.toNat) (h64 : w.toNat ≤ 64) (s : State) :
    exec (.quant w) s = .next { s with qt := quant s.ft w.toNat } :=
  if_neg (by omega)

theorem exec_quant_of_illegal {w : Byte} (h : w.toNat = 0 ∨ 65 ≤ w.toNat) (s : State) :
    exec (.quant w) s = .next (raise .unsupportedBitWidth (w.setWidth 64) 0 s) :=
  if_pos (by omega)

/-- Settles O22: the word by its fields, and the two ranges by the check that comes before any work. -/
theorem quantCommand : Obligations.QuantCommand :=
  fun w s => ⟨(toNat_commandWord 0x18 w 0).trans (by simp), fun h1 h64 => exec_quant_of_legal h1 h64 s,
    fun h => exec_quant_of_illegal h s⟩

/-! ### The two paths of Quant -/

theorem mem_map_sym_presentSymbols {f : Table} {x : Byte} :
    x ∈ (presentSymbols f).map (·.sym) ↔ tableGet f x ≠ 0 := by
  simp [map_sym_presentSymbols, Nat.pos_iff_ne_zero, ← BitVec.toNat_inj]

/-- The copy; the zero table is within every bound, and so is every table at the width of a count. -/
theorem quant_eq_self_of_le_bound {f : Table} {w : Nat} (h : ∀ x, (tableGet f x).toNat ≤ bound w) : quant f w = f := by
  unfold quant
  dsimp only
  split_ifs with hnil h64 hmax
  · exact table_ext fun x => (tableGet_zeroTable x).trans (presentSymbols_eq_nil.1 hnil x).symm
  · rfl
  · rfl
  · exact absurd (maxWeight_present_le.2 h) hmax

theorem tableGet_le_bound_64 (f : Table) (x : Byte) : (tableGet f x).toNat ≤ bound 64 :=
  Nat.le_pred_of_lt (tableGet f x).isLt

/-- The scaled path. -/
theorem quant_eq_tableOf {f : Table} {w : Nat} (h : ∃ x, bound w < (tableGet f x).toNat) :
    quant f w = tableOf (scaledValues (presentSymbols f) w) := by
  obtain ⟨x, hx⟩ := h
  have hnil : presentSymbols f ≠ [] := fun e => by simp [presentSymbols_eq_nil.1 e x] at hx
  have h64 : w ≠ 64 := by
    rintro rfl
    exact absurd hx (Nat.not_lt.2 (tableGet_le_bound_64 f x))
  have hmax : ¬ maxWeight (presentSymbols f) ≤ bound w := fun e => absurd hx (Nat.not_lt.2 (maxWeight_present_le.1 e x))
  simp only [quant, if_neg hnil, if_neg h64, if_neg hmax]

theorem le_bound_or_exceeds (f : Table) (w : Nat) :
    (∀ x, (tableGet f x).toNat ≤ bound w) ∨ ∃ x, bound w < (tableGet f x).toNat := by
  simpa only [not_exists, Nat.not_lt] using (em (∃ x, bound w < (tableGet f x).toNat)).symm

/-! ### What the scaled path gives -/

theorem map_sym_scaledValues_perm {w : Nat} (hw : 1 ≤ w) (l : List Weighted) :
    ((scaledValues l w).map (·.sym)).Perm (l.map (·.sym)) := (scaledValues_spec hw).1

theorem nodup_scaledValues {w : Nat} (hw : 1 ≤ w) (f : Table) :
    ((scaledValues (presentSymbols f) w).map (·.sym)).Nodup :=
  (map_sym_scaledValues_perm hw _).nodup_iff.2 (nodup_presentSymbols f)

theorem mem_map_sym_scaledValues {f : Table} {w : Nat} {x : Byte} (hw : 1 ≤ w) :
    x ∈ (scaledValues (presentSymbols f) w).map (·.sym) ↔ tableGet f x ≠ 0 :=
  (map_sym_scaledValues_perm hw _).mem_iff.trans mem_map_sym_presentSymbols

theorem scaledValues_weight_mem {l : List Weighted} {w : Nat} (hw : 1 ≤ w) {x : Weighted} (hx : x ∈ scaledValues l w) :
    1 ≤ x.weight ∧ x.weight ≤ bound w := (scaledValues_spec hw).2.1 x hx

theorem scaledValues_weight_lt {l : List Weighted} {w : Nat} (hw : 1 ≤ w) (h64 : w ≤ 64) {x : Weighted}
    (hx : x ∈ scaledValues l w) : x.weight < 2 ^ 64 :=
  (scaledValues_weight_mem hw hx).2.trans_lt (bound_lt h64)

/-! ### The bounds of the source -/

theorem tableGet_quant_of_eq_zero {f : Table} {w : Nat} (hw : 1 ≤ w) {x : Byte} (hx : tableGet f x = 0) :
    tableGet (quant f w) x = 0 := by
  rcases le_bound_or_exceeds f w with hle | hgt
  · rw [quant_eq_self_of_le_bound hle, hx]
  · rw [quant_eq_tableOf hgt]
    exact tableOf_notMem fun hmem => (mem_map_sym_scaledValues hw).1 hmem hx

theorem tableGet_quant_of_ne_zero {f : Table} {w : Nat} (hw : 1 ≤ w) (h64 : w ≤ 64) {x : Byte} (hx : tableGet f x ≠ 0) :
    1 ≤ (tableGet (quant f w) x).toNat ∧ (tableGet (quant f w) x).toNat ≤ bound w := by
  rcases le_bound_or_exceeds f w with hle | hgt
  · rw [quant_eq_self_of_le_bound hle]
    exact ⟨Nat.one_le_iff_ne_zero.2 fun h0 => hx (BitVec.eq_of_toNat_eq h0), hle x⟩
  · obtain ⟨v, hv, rfl⟩ := List.mem_map.1 ((mem_map_sym_scaledValues hw).2 hx)
    rw [quant_eq_tableOf hgt, tableOf_mem (nodup_scaledValues hw f) hv, BitVec.toNat_ofNat,
      Nat.mod_eq_of_lt (scaledValues_weight_lt hw h64 hv)]
    exact scaledValues_weight_mem hw hv

/-- Below 8 bits redistribution makes the values sum to the bound, if each present symbol can have its unit. -/
theorem tableSum_quant {f : Table} {w : Nat} (hw : 1 ≤ w) (h8 : w < 8) (hgt : ∃ x, bound w < (tableGet f x).toNat)
    (hcount : presentCount f ≤ bound w) : tableSum (quant f w) = bound w := by
  have hlen : 0 < (presentSymbols f).length := by
    obtain ⟨x, hx⟩ := hgt
    have hmem : x ∈ (presentSymbols f).map (·.sym) := mem_map_sym_presentSymbols.2 fun h0 => by simp [h0] at hx
    simpa using List.length_pos_of_mem hmem
  calc tableSum (quant f w) = totalWeight (scaledValues (presentSymbols f) w) := by
        rw [quant_eq_tableOf hgt]
        exact sum_map_allSymbols_perm (nodup_scaledValues hw f) fun _ => scaledValues_weight_lt hw (by omega)
    _ = bound w := (scaledValues_spec hw).2.2 h8 hlen (by rwa [presentCount_eq])

/-- Settles O23: on the copying path the clauses hold of the table itself, on the scaled path of the values listed. -/
theorem quantKeepsTheSourcesBounds : Obligations.QuantKeepsTheSourcesBounds := by
  intro f w hw h64
  refine ⟨fun x => tableGet_quant_of_eq_zero hw, fun x => tableGet_quant_of_ne_zero hw h64, ?_,
    quant_eq_self_of_le_bound, fun hzero x => tableGet_quant_of_eq_zero hw (hzero x), tableSum_quant hw⟩
  rintro rfl
  exact quant_eq_self_of_le_bound (tableGet_le_bound_64 f)

end Sys2Proof.Machine
end

section
/-! SUPPORT. R150 to R153, R170 to R173: the leaves both builders start from, and their trees when two symbols are
present. -/

namespace Sys2Proof.Machine
open Sys2Proof

/-! ### The leaves -/

theorem pairwise_allSymbols : allSymbols.Pairwise fun x y => x.toNat < y.toNat := by
  refine List.pairwise_map.2 (List.pairwise_lt_range.imp_of_mem fun {a b} ha hb hab => ?_)
  rw [List.mem_range] at ha hb
  rwa [BitVec.toNat_ofNat, BitVec.toNat_ofNat, Nat.mod_eq_of_lt ha, Nat.mod_eq_of_lt hb]

theorem pairwise_presentSymbols (t : Table) : (presentSymbols t).Pairwise fun x y => x.sym.toNat < y.sym.toNat :=
  List.Pairwise.filter _ (List.pairwise_map.2 pairwise_allSymbols)

theorem leaves_of_zero {t : Table} (h : ∀ x, tableGet t x = 0) : leaves t = [⟨synSym, 1⟩] := by
  simp only [leaves, presentSymbols_eq_nil.2 h]

theorem leaves_of_present {t : Table} {x : Byte} (h : tableGet t x ≠ 0) : leaves t = presentSymbols t := by
  unfold leaves
  split
  · next hnil => exact absurd (presentSymbols_eq_nil.1 hnil x) h
  · rfl

theorem zero_or_present (t : Table) : (∀ x, tableGet t x = 0) ∨ ∃ x, tableGet t x ≠ 0 :=
  (em _).imp_right not_forall.1

theorem pairwise_leaves (t : Table) : (leaves t).Pairwise fun x y => x.sym.toNat < y.sym.toNat := by
  rcases zero_or_present t with hzero | ⟨x, hx⟩
  · rw [leaves_of_zero hzero]; exact List.pairwise_singleton _ _
  · rw [leaves_of_present hx]; exact pairwise_presentSymbols t

theorem mem_leaves_iff {t : Table} {x : Weighted} : x ∈ leaves t ↔
    (x.weight = (tableGet t x.sym).toNat ∧ 0 < x.weight) ∨ (x = ⟨0, 1⟩ ∧ ∀ y, tableGet t y = 0) := by
  rcases zero_or_present t with hzero | ⟨y, hy⟩
  · simp [leaves_of_zero hzero, synSym, hzero]
  · rw [leaves_of_present hy, mem_presentSymbols]
    exact (or_iff_left fun ⟨_, hzero⟩ => hy (hzero y)).symm

/-! ### The merge loop -/

/-- A leaf as a node of the Huffman builder's queue (43_huffman_builder.md R152). -/
def leafNode (x : Weighted) : QNode := ⟨x.weight, x.sym, .leaf x.sym⟩

theorem mergesTo_hBuild (t : Table) : MergesTo ((leaves t).map leafNode) (hBuild t) := by
  have hp : (leafQueue (leaves t)).Perm ((leaves t).map leafNode) := leafQueue_perm (leaves t)
  have hlen : (leafQueue (leaves t)).length = (leaves t).length := by simpa using hp.length_eq
  have hsyms : (((leaves t).map leafNode).map (·.minSym)).Nodup := by
    rw [List.map_map]; exact nodup_leaves t
  refine (mergesTo_mergeLoop _ _ ?_ (by omega) (leafQueue_pairwise _) ((hp.map _).nodup_iff.2 hsyms)).perm hp.symm
  exact List.ne_nil_of_length_pos (hlen ▸ List.length_pos_of_ne_nil (leaves_ne_nil t))

/-! ### Two symbols -/

/-- The weighted symbol of an entry of the table. -/
def entry (t : Table) (x : Byte) : Weighted := ⟨x, (tableGet t x).toNat⟩

/-- The symbols `x` and `y`, and no others, have nonzero entries. -/
def TwoPresent (t : Table) (x y : Byte) : Prop := x ≠ y ∧ ∀ z, tableGet t z ≠ 0 ↔ z = x ∨ z = y

theorem mem_presentSymbols_iff_entry {t : Table} {w : Weighted} :
    w ∈ presentSymbols t ↔ tableGet t w.sym ≠ 0 ∧ w = entry t w.sym := by
  obtain ⟨z, n⟩ := w
  simp only [mem_presentSymbols, entry, Weighted.mk.injEq, true_and, ne_eq, BitVec.toNat_eq, BitVec.ofNat_eq_ofNat,
    BitVec.toNat_ofNat]
  omega

theorem leaves_perm_pair {t : Table} {x y : Byte} (h : TwoPresent t x y) : (leaves t).Perm [entry t x, entry t y] := by
  obtain ⟨hne, hpresent⟩ := h
  have hx : tableGet t x ≠ 0 := (hpresent x).2 (.inl rfl)
  have hpair : [entry t x, entry t y].Nodup := by simp [entry, hne]
  refine (List.perm_ext_iff_of_nodup (nodup_leaves t).of_map hpair).2 fun w => ?_
  rw [leaves_of_present hx, mem_presentSymbols_iff_entry, hpresent]
  constructor
  · rintro ⟨hw | hw, heq⟩ <;> rw [heq, hw] <;> simp
  · intro hw
    rcases List.mem_pair.1 hw with rfl | rfl
    · exact ⟨.inl rfl, rfl⟩
    · exact ⟨.inr rfl, rfl⟩

/-- A sorted arrangement of two elements has the one first that does not come after the other. -/
theorem eq_pair_of_perm {α : Type} {r : α → α → Prop} {l : List α} {a b : α} (hp : l.Perm [a, b]) (hs : l.Pairwise r)
    (hba : ¬ r b a) : l = [a, b] := by
  rcases List.perm_pair.1 hp with rfl | rfl
  · rfl
  · exact absurd (List.pairwise_pair.1 hs) hba

theorem not_comesBefore_of_priorTo {x y : QNode} (h : PriorTo x y) : ¬ comesBefore y x = true := by
  simp only [comesBefore, Bool.or_eq_true, Bool.and_eq_true, decide_eq_true_eq, beq_iff_eq]
  unfold PriorTo at h; omega

theorem hBuild_pair {t : Table} {x y : Byte} (h : TwoPresent t x y)
    (hlt : PriorTo (leafNode (entry t x)) (leafNode (entry t y))) :
    hBuild t = .node (.leaf x) (.leaf y) := by
  have hp : (leafQueue (leaves t)).Perm [leafNode (entry t x), leafNode (entry t y)] :=
    (leafQueue_perm _).trans ((leaves_perm_pair h).map leafNode)
  rw [hBuild, eq_pair_of_perm hp (leafQueue_pairwise _) (not_comesBefore_of_priorTo hlt), (leaves_perm_pair h).length_eq]
  rfl

theorem not_ranksBefore_of_lt {x y : Weighted}
    (h : y.weight < x.weight ∨ (x.weight = y.weight ∧ x.sym.toNat < y.sym.toNat)) : ¬ ranksBefore y x = true := by
  simp only [ranksBefore, Bool.or_eq_true, Bool.and_eq_true, decide_eq_true_eq, beq_iff_eq]
  omega

theorem sBuild_pair {t : Table} {x y : Byte} (h : TwoPresent t x y)
    (hlt : ¬ ranksBefore (entry t y) (entry t x) = true) : sBuild t = .node (.leaf x) (.leaf y) := by
  have hp : (sortedList t).Perm [entry t x, entry t y] := (ranked_perm _).trans (leaves_perm_pair h)
  rw [sBuild, eq_pair_of_perm hp (ranked_pairwise _) hlt]
  rfl

/-- Settles O28: the leaves are the present symbols as the table lists them, the merge loop runs on their sorted queue,
and two leaves have one sorted arrangement in each builder's order. -/
theorem twoSymbolTrees : Obligations.TwoSymbolTrees := by
  refine ⟨fun t => ⟨pairwise_leaves t, fun _ => mem_leaves_iff, mergesTo_hBuild t⟩, fun t x y hne hpresent => ?_⟩
  have htwo : TwoPresent t x y := ⟨hne, hpresent⟩
  have hweight : tableGet t x = tableGet t y → (tableGet t x).toNat = (tableGet t y).toNat := congrArg _
  exact ⟨fun horder => hBuild_pair htwo (horder.imp_right (And.imp_left hweight)),
    fun horder => sBuild_pair htwo (not_ranksBefore_of_lt (horder.imp_right (And.imp_left hweight)))⟩

end Sys2Proof.Machine
end

section
/-! SUPPORT. R155 to R157: the codes of a proper tree are the paths to its leaves, so none is a prefix of another. -/

namespace Sys2Proof.Machine
open Sys2Proof

theorem codes_leaf (x : Byte) : codeOf (codes (.leaf x)) x = [false] := codeOf_codeSet_self _ _ _

/-- Settles O32, by the laws of `codes` for a symbol at no leaf, for the one leaf, and for a leaf below a node. -/
theorem codesAreLeafPaths : Obligations.CodesAreLeafPaths := by
  refine fun t x hp => ⟨codes_notMem, codes_length hp, ?_, ?_⟩
  · rintro rfl
    exact codes_leaf x
  · rintro ⟨l, r, rfl⟩ hx
    exact codes_node_mem hp hx

/-- A path to a leaf goes no further, so a code that continues another one leads to the same leaf. -/
theorem eq_of_code_prefix {t : CodeTree} {x y : Byte} (hp : Proper t) (hx : x ∈ syms t) (hy : y ∈ syms t)
    (h : codeOf (codes t) x <+: codeOf (codes t) y) : x = y := by
  cases t with
  | leaf z => exact (List.mem_singleton.1 hx).trans (List.mem_singleton.1 hy).symm
  | node l r =>
    obtain ⟨more, hmore⟩ := h
    exact (leafAt_unique _ _ more (codes_node_mem hp hx) (hmore ▸ codes_node_mem hp hy)).2

/-- Settles O33: symbols with comparable codes are one symbol. -/
theorem codesArePrefixFree : Obligations.CodesArePrefixFree :=
  fun _ _ _ hp hx hy hne => ⟨fun h => hne (eq_of_code_prefix hp hx hy h), codes_length hp hx⟩

end Sys2Proof.Machine
end

section
/-! SUPPORT. R158 to R160: the command BUILD for every algorithm, and the commands CLEN and CBITS that read a code out. -/

namespace Sys2Proof.Machine
open Sys2Proof

/-! ### BUILD -/

/-- A well-formed BUILD word of an algorithm that is not implemented (30_encoding.md R94). -/
theorem decode_unsupportedBuild {c : CommandWord} (hop : fieldOP c = 0x20) (hb : (fieldB c).toNat ≤ 1)
    (hz : fieldZ c = 0) (h1 : fieldA c ≠ 1) (h3 : fieldA c ≠ 3) :
    decode c = .unsupportedBuild (fieldA c) (fieldB c) := by
  have hf : formatOf (fieldOP c) = some .G := by rw [hop]; rfl
  have haccept : ¬ Format.G.rejects (fieldA c) (fieldB c) (fieldZ c) := by
    simp [Format.rejects, Format.usesA, Format.usesB, hz, hb]
  rw [decode_accepts hf haccept, hop]
  exact (if_neg h1).trans (if_neg h3)

theorem runCommand_unsupportedBuild {c : CommandWord} {alg tsel : Byte} {s : State}
    (hd : decode c = .unsupportedBuild alg tsel) (hgood : s.fault = false) :
    runCommand c s = .next (buildUnsupported alg s) := by
  simp [runCommand, gated, hd, hgood]

/-- Settles O26: the builder's tree is installed with the flag of its table, and the word of any other algorithm decodes
to the outcome that only raises a fault. -/
theorem buildCommands : Obligations.BuildCommands := by
  refine ⟨fun tsel s _ => ⟨?_, ?_, ?_⟩, ?_⟩
  · exact (toNat_commandWord 0x20 1 tsel).trans (by simp)
  · exact (toNat_commandWord 0x20 3 tsel).trans (by simp)
  · rintro _ rfl
    exact ⟨⟨_, rfl, rfl, rfl, rfl, allZero_iff _⟩, ⟨_, rfl, rfl, rfl, rfl, allZero_iff _⟩⟩
  · rintro s v rest alg hmoves hgood hop rfl hb hz h1 h3
    rw [step_of_moves_eq_cons hmoves]
    exact runCommand_unsupportedBuild (decode_unsupportedBuild hop hb hz h1 h3) hgood

/-! ### CLEN and CBITS -/

theorem exec_clen_of_tree {s : State} (h : s.tv = true) (sym : Byte) :
    exec (.clen sym) s = .next { s with arg0 := countWord (codeOf s.ct sym).length } := by
  rw [exec, execClen, withTree_valid h]

theorem exec_clen_of_noTree {s : State} (h : s.tv = false) (sym : Byte) :
    exec (.clen sym) s = .next (raise .noTree 0 0 s) := by
  rw [exec, execClen, withTree_none h]

theorem exec_cbits_of_tree {s : State} (h : s.tv = true) (sym k : Byte) :
    exec (.cbits sym k) s = .next { s with arg0 := codeChunk (codeOf s.ct sym) k.toNat } := by
  rw [exec, execCbits, withTree_valid h]

theorem exec_cbits_of_noTree {s : State} (h : s.tv = false) (sym k : Byte) :
    exec (.cbits sym k) s = .next (raise .noTree 0 0 s) := by
  rw [exec, execCbits, withTree_none h]

theorem getLsbD_codeChunk (c : Code) (k : Nat) {j : Nat} (hj : j < 64) :
    (codeChunk c k).getLsbD (63 - j) = c.getD (64 * k + j) false := by
  have hbit := testBit_bitsToNat ((List.range 64).map fun j => c.getD (64 * k + j) false) j (by simpa using hj)
  rw [List.length_map, List.length_range] at hbit
  rw [codeChunk, BitVec.getLsbD_ofNat, decide_eq_true (by omega), Bool.true_and, hbit]
  simp [List.getD_eq_getElem?_getD, hj]

/-- Settles O34: a code's length is far below 2^64, so the register shows it. -/
theorem clenReadsTheLength : Obligations.ClenReadsTheLength := by
  refine fun sym s => ⟨(toNat_commandWord 0x21 sym 0).trans (by simp), fun htv hlen => ?_,
    fun htv => exec_clen_of_noTree htv sym⟩
  exact ⟨_, exec_clen_of_tree htv sym, rfl, countWord_toNat (hlen.trans_lt (by decide))⟩

/-- Settles O35: the chunk is the number of 64 code bits, the first bit the most significant. -/
theorem cbitsReadsAChunk : Obligations.CbitsReadsAChunk := by
  refine fun sym k s => ⟨toNat_commandWord 0x22 sym k, fun htv => ?_, fun htv => exec_cbits_of_noTree htv sym k⟩
  exact ⟨_, exec_cbits_of_tree htv sym k, rfl, fun _ => getLsbD_codeChunk _ _⟩

end Sys2Proof.Machine
end

section
/-! SUPPORT. R170 to R172: the order of the Shannon-Fano list, the scan for the split index, and the partition at it. -/

namespace Sys2Proof.Machine
open Sys2Proof

/-! ### The sorted list -/

/-- With distinct symbols the order of the list is the strict order of R170. -/
theorem heavier_or_lower_of_ranksBefore {x y : Weighted} (h : ranksBefore x y = true) (hne : x.sym ≠ y.sym) :
    y.weight < x.weight ∨ (x.weight = y.weight ∧ x.sym.toNat < y.sym.toNat) := by
  have hsym : x.sym.toNat ≠ y.sym.toNat := fun e => hne (BitVec.eq_of_toNat_eq e)
  simp only [ranksBefore, Bool.or_eq_true, Bool.and_eq_true, decide_eq_true_eq, beq_iff_eq] at h
  omega

theorem sortedList_perm (t : Table) : (sortedList t).Perm (leaves t) := ranked_perm _

theorem pairwise_sortedList_sym_ne (t : Table) : (sortedList t).Pairwise fun x y => x.sym ≠ y.sym :=
  List.pairwise_map.1 (((sortedList_perm t).map _).nodup_iff.2 (nodup_leaves t))

/-- Settles O29: the list is the leaves in the order of `ranksBefore`, and no two of them have one symbol. -/
theorem shannonFanoListIsSorted : Obligations.ShannonFanoListIsSorted := fun t =>
  ⟨sortedList_perm t, (ranked_pairwise _).imp₂ (fun _ _ => heavier_or_lower_of_ranksBefore)
    (pairwise_sortedList_sym_ne t)⟩

/-! ### The split index -/

/-- Of the indices below `n`, `k` is the last at which `d` is least (44_shannon_fano.md R171). -/
def IsLastMinimum (d : Nat → Nat) (n k : Nat) : Prop :=
  k < n ∧ ∀ i < n, (i ≤ k → d k ≤ d i) ∧ (k < i → d k < d i)

/-- A first value that is not below the second moves the last minimum of the others one place on. -/
theorem IsLastMinimum.succ {d : Nat → Nat} {n k : Nat} (h : IsLastMinimum (fun i => d (i + 1)) n k)
    (hfirst : d 1 ≤ d 0) : IsLastMinimum d (n + 1) (k + 1) := by
  obtain ⟨hk, hmin⟩ := h
  refine ⟨by omega, fun i hi => ?_⟩
  cases i with
  | zero => exact ⟨fun _ => ((hmin 0 (by omega)).1 (by omega)).trans hfirst, by omega⟩
  | succ i => simpa using hmin i (by omega)

/-- Past an increase the imbalance stays higher, because twice the left sum is above the total there. -/
theorem imbalance_lt_of_increase {total a b c : Nat} (h : imbalance total a < imbalance total b) (hab : a ≤ b)
    (hbc : b ≤ c) : imbalance total a < imbalance total c := by
  unfold imbalance at *; omega

/-- The imbalance `i` elements further on, when the left sum is `left` and the elements `l` follow. -/
def imbalanceAfter (total left : Nat) (l : List Weighted) (i : Nat) : Nat :=
  imbalance total (left + rangeSum (l.take i))

theorem rangeSum_cons (x : Weighted) (l : List Weighted) : rangeSum (x :: l) = x.weight + rangeSum l := by
  simp [rangeSum]

theorem imbalanceAfter_cons_succ (total left : Nat) (x : Weighted) (l : List Weighted) (i : Nat) :
    imbalanceAfter total left (x :: l) (i + 1) = imbalanceAfter total (left + x.weight) l i := by
  simp only [imbalanceAfter, List.take_succ_cons, rangeSum_cons, Nat.add_assoc]

/-- The scan starts with a left part of one element (44_shannon_fano.md R171). -/
theorem imbalanceAfter_first (total : Nat) (x : Weighted) (l : List Weighted) (i : Nat) :
    imbalanceAfter total x.weight l i = imbalance total (rangeSum ((x :: l).take (i + 1))) := by
  rw [imbalanceAfter, List.take_succ_cons, rangeSum_cons]

/-- The scan of R171 runs down to a last minimum: it goes on while the imbalance does not increase, and beyond the first
increase there is none as low. -/
theorem splitScan_isLastMinimum (total : Nat) : ∀ (k left : Nat) (l : List Weighted), l ≠ [] →
    ∃ j, splitScan total k left (imbalance total left) l = k + j ∧
      IsLastMinimum (imbalanceAfter total left l) l.length j
  | _, _, [], hne => absurd rfl hne
  | k, left, [x], _ => ⟨0, rfl, by simp [IsLastMinimum]⟩
  | k, left, x :: y :: rest, _ => by
    simp only [splitScan]
    split
    · next hle =>
      obtain ⟨j, hscan, hlast⟩ := splitScan_isLastMinimum total (k + 1) (left + x.weight) (y :: rest) (by simp)
      refine ⟨j + 1, by omega, IsLastMinimum.succ ?_ hle⟩
      simpa only [imbalanceAfter_cons_succ] using hlast
    · next hgt =>
      refine ⟨0, rfl, by simp, fun i _ => ?_⟩
      cases i with
      | zero => simp
      | succ i =>
        refine ⟨by omega, fun _ => ?_⟩
        rw [imbalanceAfter_cons_succ]
        exact imbalance_lt_of_increase (not_le.1 hgt) (Nat.le_add_right _ _) (Nat.le_add_right _ _)

theorem splitIndex_isLastMinimum {l : List Weighted} (h : 2 ≤ l.length) :
    IsLastMinimum (fun i => imbalance (rangeSum l) (rangeSum (l.take (i + 1)))) (l.length - 1) (splitIndex l) := by
  obtain _ | ⟨x, rest⟩ := l
  · simp at h
  · have hrest : rest ≠ [] := by rintro rfl; simp at h
    obtain ⟨j, hscan, hlast⟩ := splitScan_isLastMinimum (rangeSum (x :: rest)) 0 x.weight rest hrest
    rw [splitIndex, hscan, Nat.zero_add]
    simpa only [← imbalanceAfter_first, List.length_cons, Nat.add_sub_cancel] using hlast

/-- Settles O30: the split index is the last minimum of the imbalance over the indices but the last, with positive
weights or without. -/
theorem splitIsTheLastMinimum : Obligations.SplitIsTheLastMinimum := by
  intro l d hlen _ hd
  have hd' : d = fun i => imbalance (rangeSum l) (rangeSum (l.take (i + 1))) := funext hd
  obtain ⟨hk, hmin⟩ := splitIndex_isLastMinimum hlen
  rw [← hd'] at hmin
  refine ⟨by omega, fun i hi => ?_⟩
  obtain ⟨hle, hlt⟩ := hmin i (by omega)
  rcases le_or_gt i (splitIndex l) with hik | hik
  · exact ⟨hle hik, fun _ => hik⟩
  · exact ⟨(hlt hik).le, fun heq => absurd heq (hlt hik).ne'⟩

/-! ### The partition -/

theorem syms_of_splitsTo {l : List Weighted} {t : CodeTree} (h : SplitsTo l t) : syms t = l.map (·.sym) := by
  induction h with
  | single x => rfl
  | split _ _ _ iha ihb => rw [syms, iha, ihb, ← List.map_append, List.take_append_drop]

theorem sortedList_splitsTo_sBuild (t : Table) : SplitsTo (sortedList t) (sBuild t) :=
  splitsTo_part _ _ (fun hnil => leaves_ne_nil t (List.nil_perm.1 (hnil ▸ sortedList_perm t))) (Nat.le_succ _)

theorem two_le_sortedList_length {t : Table} (h : 2 ≤ presentCount t) : 2 ≤ (sortedList t).length := by
  have hone := leaves_length t
  rw [(sortedList_perm t).length_eq]
  omega

/-- Settles O31: a range of at least two elements is split at its split index, and the partition of a range holds the
range's symbols in order. -/
theorem shannonFanoFirstSplit : Obligations.ShannonFanoFirstSplit := by
  refine ⟨sortedList_splitsTo_sBuild, fun t hcount => ?_⟩
  have hlen := two_le_sortedList_length hcount
  have hsplit := sortedList_splitsTo_sBuild t
  generalize sortedList t = l, sBuild t = tree at hlen hsplit ⊢
  cases hsplit with
  | single x => simp at hlen
  | split _ hleft hright => exact ⟨_, _, rfl, syms_of_splitsTo hleft, syms_of_splitsTo hright⟩

end Sys2Proof.Machine
end

section
/-! SUPPORT. R180, R181: the serial form delimits itself, and what the command TSER does without a tree, with room in SNK
for all of the form, and with room for a part of it. -/

namespace Sys2Proof.Machine
open Sys2Proof

/-! ### The serial form -/

/-- The first byte tells a leaf from a node (45_tree_serial.md R180). A leaf takes one byte more, and of a node the left
form is delimited first, then the right one in what follows it. -/
theorem serial_append_inj : ∀ {t u : CodeTree} {rest rest' : List Byte},
    serial t ++ rest = serial u ++ rest' → t = u ∧ rest = rest'
  | .leaf x, .leaf y, rest, rest', h => by simpa [serial] using h
  | .leaf x, .node l r, rest, rest', h => by simp [serial] at h
  | .node l r, .leaf y, rest, rest', h => by simp [serial] at h
  | .node l r, .node l' r', rest, rest', h => by
    have hforms : serial l ++ (serial r ++ rest) = serial l' ++ (serial r' ++ rest') := by simpa [serial] using h
    obtain ⟨rfl, hright⟩ := serial_append_inj hforms
    obtain ⟨rfl, hrest⟩ := serial_append_inj hright
    exact ⟨rfl, hrest⟩

theorem serial_length_eq (t : CodeTree) : (serial t).length = 3 * (syms t).length - 1 :=
  Nat.eq_sub_of_add_eq (serial_length t)

theorem serial_length_le {t : CodeTree} (hp : Proper t) : (serial t).length ≤ 767 := by
  have hsyms := length_syms_le hp
  have hlen := serial_length_eq t
  omega

/-- Settles O38: the two equations of the form are its definition, and a proper tree has at most 256 leaves. -/
theorem serialForm : Obligations.SerialForm :=
  ⟨fun _ => rfl, fun _ _ => rfl, serial_length_eq, fun _ => serial_length_le, fun _ _ _ _ => serial_append_inj⟩

/-! ### TSER -/

theorem exec_tser_of_noTree {s : State} (h : s.tv = false) : exec .tser s = .next (raise .noTree 0 0 s) := by
  rw [exec, execTser, withTree_none h]

theorem exec_tser_of_tree {s : State} (h : s.tv = true) :
    exec .tser s = .next (settled (snkPushAll (serial s.tree) s)) := by
  rw [exec, execTser, withTree_valid h, endCommand_eq]

theorem exec_tser_of_room {s : State} (h : s.tv = true) (hroom : SinkRoom s (serial s.tree).length) :
    exec .tser s = .next { s with snk := s.snk ++ serial s.tree } := by
  rw [exec_tser_of_tree h, snkPushAll_ok hroom, settled_ok]

theorem exec_tser_of_part {s : State} {sent more : List Byte} {b : Byte} (h : s.tv = true)
    (hform : serial s.tree = sent ++ b :: more) (hcap : s.cfg.snkCap = some (s.snk.length + sent.length)) :
    exec .tser s = .next
      (raise .sinkFull (countWord (s.snk.length + sent.length)) (b.setWidth 64) { s with snk := s.snk ++ sent }) := by
  rw [exec_tser_of_tree h, hform, snkPushAll_stop sent b more s hcap, settled_error]

/-- Settles O39: one case for each of no tree, room for the form, and room for a part of it, whose length the fault shows
as it is below 2^64. -/
theorem tserAppendsTheSerialForm : Obligations.TserAppendsTheSerialForm := by
  refine ⟨by decide, fun s => ⟨exec_tser_of_noTree, exec_tser_of_room, fun sent b more htv hform hcap hlt => ?_⟩⟩
  exact ⟨_, exec_tser_of_part htv hform hcap, countWord_toNat hlt, rfl⟩

end Sys2Proof.Machine
end

section
/-! SUPPORT. R191 to R199: what WRST, WBIT, WFLUSH, RRST and RBIT do in every state, and what a writer and a reader that
start on a byte boundary do together. -/

namespace Sys2Proof.Machine
open Sys2Proof

/-! ### WRST and RRST -/

/-- Settles O42: both next states are the definitions of the commands. -/
theorem writerAndReaderResets : Obligations.WriterAndReaderResets :=
  ⟨by decide, by decide, fun _ => ⟨rfl, rfl⟩⟩

/-! ### WBIT and WFLUSH -/

/-- A command that ends in a push appends its byte to a sink with room, and loses it to a full one
(20_memory.md R66, 60_exceptions.md R239). -/
theorem endCommand_snkPush (v : Byte) (s : State) :
    (SinkRoom s 1 → endCommand (snkPush v s) = .next { s with snk := s.snk ++ [v] }) ∧
    (s.cfg.snkCap = some s.snk.length → s.snk.length < 2 ^ 64 → ∃ t, endCommand (snkPush v s) = .next t ∧
      t.errinfo0.toNat = s.snk.length ∧
      t = { s with err := 10, fault := true, errinfo0 := t.errinfo0, errinfo1 := v.setWidth 64 }) := by
  refine ⟨fun hroom => ?_, fun hcap hlt => ?_⟩
  · rw [snkPush_ok hroom, endCommand]
  · rw [snkPush_full hcap le_rfl, endCommand]
    exact ⟨_, rfl, countWord_toNat hlt, rfl⟩

/-- The operand of WBIT is the bit it writes, as a byte. -/
theorem bitByte_getLsbD_zero {b : Byte} (hb : b.toNat ≤ 1) : bitByte (b.getLsbD 0) = b := by
  rcases bit_of hb with ⟨rfl, _⟩ | ⟨rfl, _⟩ <;> rfl

theorem exec_wbit (b : Byte) (s : State) : exec (.wbit b) s = endCommand (writeBit (b.getLsbD 0) s) := rfl

/-- A bit that does not complete a byte is shifted in and nothing is emitted (46_bitstream.md R191). -/
theorem writeBit_of_ne {s : State} (h : s.wcnt ≠ 7) (b : Bit) : writeBit b s = .ok (shiftIn b s) := by
  have hcount : (shiftIn b s).wcnt ≠ 8 := by
    rw [shiftIn_wcnt]
    bv_omega
  exact if_neg hcount

/-- Settles O43: a bit before the eighth is shifted in; the eighth is pushed with the seven before it. -/
theorem wbitWritesOneBit : Obligations.WbitWritesOneBit := by
  intro b s hb
  refine ⟨(toNat_commandWord 0x31 b 0).trans (by simp), fun hcnt => ?_, fun hcnt v hv => ?_⟩
  · rw [exec_wbit, writeBit_of_ne hcnt]
    refine ⟨_, rfl, ?_, rfl⟩
    rw [shiftIn_wacc, bitByte_getLsbD_zero hb]
    simp
  · obtain rfl : v = s.wacc * 2 + b := BitVec.eq_of_toNat_eq (by simpa using hv)
    rw [exec_wbit, writeBit_emit hcnt, bitByte_getLsbD_zero hb]
    exact endCommand_snkPush _ { s with wacc := 0, wcnt := 0, wtotal := s.wtotal + 1 }

theorem exec_wflush (s : State) : exec .wflush s = endCommand (flushWriter s) := rfl

theorem flushWriter_of_zero {s : State} (h : s.wcnt = 0) : flushWriter s = .ok s := by
  simp [flushWriter, h]

theorem flushWriter_of_pos {s : State} (h : 0 < s.wcnt.toNat) :
    flushWriter s =
      snkPush (BitVec.ofNat 8 (s.wacc.toNat * 2 ^ (8 - s.wcnt.toNat))) { s with wacc := 0, wcnt := 0 } :=
  if_pos h

/-- Settles O44: a flush on a byte boundary is the identity; any other pushes the padded byte. -/
theorem wflushPadsAndEmits : Obligations.WflushPadsAndEmits := by
  refine ⟨by decide, fun s => ⟨fun hcnt => ?_, fun hpos _ v hv => ?_⟩⟩
  · rw [exec_wflush, flushWriter_of_zero hcnt, endCommand]
  · obtain rfl : v = BitVec.ofNat 8 (s.wacc.toNat * 2 ^ (8 - s.wcnt.toNat)) := BitVec.eq_of_toNat_eq hv
    rw [exec_wflush, flushWriter_of_pos hpos]
    exact endCommand_snkPush _ { s with wacc := 0, wcnt := 0 }

/-! ### RBIT -/

/-- A reader with an empty buffer loads the head byte of SRC and delivers its first bit (46_bitstream.md R196). -/
theorem readBit_refill {s : State} {x : Byte} {rest : List Byte} (h : s.rcnt = 0) (hsrc : s.src = x :: rest) :
    readBit s = (some (x.getLsbD 7), { s with racc := x * 2, rcnt := 7, src := rest, eod := false }) := by
  simp [readBit, takeBit, h, hsrc]

theorem readBit_buffered {s : State} (h : s.rcnt ≠ 0) : readBit s = (some (s.racc.getLsbD 7), (takeBit s).2) :=
  if_neg h

theorem exec_rbit_of_none {s t : State} (h : readBit s = (none, t)) : exec .rbit s = .next { t with arg0 := 0 } := by
  rw [exec, execRbit, h]

theorem exec_rbit_of_some {s t : State} {b : Bit} (h : readBit s = (some b, t)) :
    exec .rbit s = .next { t with arg0 := (bitByte b).setWidth 64 } := by
  rw [exec, execRbit, h]

theorem toNat_topBit (a : Byte) : ((bitByte (a.getLsbD 7)).setWidth 64).toNat = a.toNat / 128 := by
  rw [BitVec.toNat_setWidth_of_le (by decide), top_bit]

/-- Settles O45: an ended source, a buffer to refill, and a buffer that holds a bit. -/
theorem rbitReadsOneBit : Obligations.RbitReadsOneBit := by
  refine ⟨by decide, fun s => ⟨fun hcnt hsrc => ?_, fun hcnt x rest hsrc => ?_, fun hcnt => ?_⟩⟩
  · have hbits : sourceBits s = [] := by rw [sourceBits_zero hcnt, hsrc, List.flatMap_nil]
    exact exec_rbit_of_none (readBit_nil hbits).1
  · exact ⟨_, exec_rbit_of_some (readBit_refill hcnt hsrc), toNat_topBit x, by simp, rfl⟩
  · exact ⟨_, exec_rbit_of_some (readBit_buffered hcnt), toNat_topBit _, by simp, rfl⟩

/-! ### The writer and the reader together -/

theorem snk_of_snkPush_ok {b : Byte} {s t : State} (h : snkPush b s = .ok t) : t.snk = s.snk ++ [b] := by
  have hs := snkPush_spec b s
  rw [h] at hs
  rw [hs.1]

theorem flushWriter_prefix {s t : State} (h : flushWriter s = .ok t) : ∃ m, t.snk = s.snk ++ m := by
  rcases Nat.eq_zero_or_pos s.wcnt.toNat with hcnt | hcnt
  · rw [flushWriter_of_zero (BitVec.eq_of_toNat_eq hcnt)] at h
    cases h
    exact ⟨[], (List.append_nil _).symm⟩
  · rw [flushWriter_of_pos hcnt] at h
    have hsnk := snk_of_snkPush_ok h
    exact ⟨_, hsnk⟩

/-- On a byte boundary, bits written and flushed append the fewest bytes that hold them, as a stream the bits and then
zeros (46_bitstream.md R199). -/
theorem writeBits_flush {bits : List Bit} {s : State} (hcnt : s.wcnt = 0) (hacc : s.wacc = 0)
    (hroom : SinkRoom s ((bits.length + 7) / 8)) :
    ∃ t u bytes, writeBits bits s = .ok t ∧ flushWriter t = .ok u ∧ u.snk = s.snk ++ bytes ∧
      bytes.length = (bits.length + 7) / 8 ∧
      bytes.flatMap byteBits = bits ++ List.replicate (8 * bytes.length - bits.length) false := by
  have hzero : s.wcnt.toNat = 0 := by rw [hcnt]; rfl
  obtain ⟨t, hwrite, htOk, htBits, htLen, htEq⟩ := writeBits_ok (l := bits) (writerOk_zero hcnt hacc)
    (fun c hc => by have := hroom c hc; omega)
  have hcfg : t.cfg = s.cfg := by rw [htEq]
  have htcnt := htOk.count
  obtain ⟨u, hflush, -, -, huBits, huLen, -⟩ := flush_ok htOk
    (fun c hc => by have := hroom c (hcfg ▸ hc); omega)
  obtain ⟨written, hwritten⟩ := writeBits_prefix _ _ _ hwrite
  obtain ⟨flushed, hflushed⟩ := flushWriter_prefix hflush
  have hu : u.snk = s.snk ++ (written ++ flushed) := by rw [hflushed, hwritten, List.append_assoc]
  have hlen : (written ++ flushed).length = (bits.length + 7) / 8 := by
    rw [hu, List.length_append] at huLen
    omega
  refine ⟨t, u, written ++ flushed, hwrite, hflush, hu, hlen, ?_⟩
  have hpad : (8 - t.wcnt.toNat) % 8 = 8 * (written ++ flushed).length - bits.length := by omega
  rw [hu, htBits, sinkBits_zero hcnt, List.flatMap_append, List.append_assoc, hpad] at huBits
  exact List.append_cancel_left huBits

/-- Settles O47: the bytes a writer leaves are the stream of the bits and the pad, and a reader delivers the stream of
its bytes, then EOD. -/
theorem writerReaderPair : Obligations.WriterReaderPair := by
  intro bits s hcnt hacc hroom
  obtain ⟨t, u, bytes, hwrite, hflush, hsnk, hlen, hstream⟩ := writeBits_flush hcnt hacc hroom
  refine ⟨t, u, bytes, hwrite, hflush, hsnk, hlen, fun j i hj hi => ?_, fun r hsrc hrcnt hracc => ?_⟩
  · rw [← flatMap_byteBits_getD bytes j i hj hi, hstream]
    rcases lt_or_ge (8 * j + i) bits.length with hin | hout
    · exact List.getD_append _ _ _ _ hin
    · rw [List.getD_append_right _ _ _ _ hout, List.getD_eq_default _ _ hout]
      exact List.getD_replicate _ (by omega)
  · have hread := readMany_bits _ r 1 (readerOk_zero hrcnt hracc) (sourceBits_zero hrcnt)
    rw [hsrc, length_flatMap_byteBits, hstream] at hread
    simpa using hread

end Sys2Proof.Machine
end

section
/-! SUPPORT. R214, R215: ENCODE and WFLUSH leave the codes and a pad of less than a byte; from these bytes DECODE gives
the encoded bytes back, and from fewer of them it runs out of bits inside a symbol. -/

namespace Sys2Proof.Machine
open Sys2Proof

/-! ### The payload -/

/-- Bytes that are, as a stream, the bits and then fewer than eight zeros: what a flushed writer makes of the bits
(46_bitstream.md R192). -/
def Payload (bits : List Bit) (bytes : List Byte) : Prop :=
  ∃ pad < 8, bytes.flatMap byteBits = bits ++ List.replicate pad false

theorem exec_encode_of_tree {s : State} (h : s.tv = true) :
    exec .encode s = .next (settled (encodeLoop s.src 0 s)) := by
  rw [exec, execEncode, withTree_valid h, endCommand_eq]

theorem exec_decode_of_tree {s : State} (h : s.tv = true) :
    exec .decode s = .next (settled (decodeLoop s.arg0.toNat s.arg0.toNat s)) := by
  rw [exec, execDecode, withTree_valid h, endCommand_eq]

/-- A flush with room appends what is pending, filled up with zeros. -/
theorem flushWriter_payload {s : State} (h : WriterOk s) (hroom : SinkRoom s ((s.wcnt.toNat + 7) / 8)) :
    ∃ u flushed, flushWriter s = .ok u ∧ u.fault = s.fault ∧ u.snk = s.snk ++ flushed ∧
      Payload (pendingBits s) flushed := by
  obtain ⟨u, hflush, -, -, hbits, -, heq⟩ := flush_ok h hroom
  obtain ⟨flushed, hsnk⟩ := flushWriter_prefix hflush
  refine ⟨u, flushed, hflush, by rw [heq], hsnk, (8 - s.wcnt.toNat) % 8,
    Nat.mod_lt _ (by decide), ?_⟩
  rw [hsnk, List.flatMap_append, sinkBits, List.append_assoc] at hbits
  exact List.append_cancel_left hbits

/-- From a reset writer, ENCODE and WFLUSH append the payload of the codes of SRC and raise no fault, when every byte of
SRC is at a leaf of the current tree. -/
theorem exec_encode_wflush {s : State} (htv : s.tv = true) (hct : s.ct = codes s.tree) (hp : Proper s.tree)
    (hsyms : ∀ x ∈ s.src, x ∈ syms s.tree) (hcnt : s.wcnt = 0) (hacc : s.wacc = 0)
    (hroom : SinkRoom s (((codeBits (codes s.tree) s.src).length + 7) / 8)) :
    ∃ t u bytes, exec .encode s = .next t ∧ exec .wflush t = .next u ∧ u.fault = s.fault ∧ u.snk = s.snk ++ bytes ∧
      Payload (codeBits (codes s.tree) s.src) bytes := by
  have hcoded : ∀ x ∈ s.src, codeOf s.ct x ≠ [] := fun x hx => hct ▸ code_ne_nil hp (hsyms x hx)
  rw [← hct] at hroom ⊢
  have hzero : s.wcnt.toNat = 0 := by rw [hcnt]; rfl
  have hpending : pendingBits s = [] := by rw [pendingBits, hzero]; rfl
  obtain ⟨t, sent, hloop, htOk, hsent, hlen, ht⟩ := encodeLoop_through s.src [] 0 (List.append_nil _).symm hcoded
    (writerOk_zero hcnt hacc) (fun c hc => by have := hroom c hc; omega)
  rw [List.append_nil] at hloop
  have htSnk : t.snk = s.snk ++ sent := by rw [ht]
  have htCfg : t.cfg = s.cfg := by rw [ht]
  have htFault : t.fault = s.fault := by rw [ht]
  obtain ⟨u, flushed, hflush, huFault, huSnk, pad, hpad, hflushed⟩ := flushWriter_payload htOk (fun c hc => by
    have := hroom c (htCfg ▸ hc)
    rw [htSnk, List.length_append]
    omega)
  refine ⟨t, u, sent ++ flushed, ?_, ?_, huFault.trans htFault, ?_, pad, hpad, ?_⟩
  · rw [exec_encode_of_tree htv, hloop, encodeLoop, settled_ok]
  · rw [exec_wflush, hflush, endCommand]
  · rw [huSnk, htSnk, List.append_assoc]
  · rw [List.flatMap_append, hflushed, ← List.append_assoc, hsent, hpending, List.nil_append]

/-! ### Decoding the payload -/

/-- A reset reader decodes a payload to the bytes it encodes and raises no fault. -/
theorem exec_decode_payload {d : State} {S : List Byte} (htv : d.tv = true) (hp : Proper d.tree) (hcnt : d.rcnt = 0)
    (hacc : d.racc = 0) (hsyms : ∀ x ∈ S, x ∈ syms d.tree) (hsrc : Payload (codeBits (codes d.tree) S) d.src)
    (harg : d.arg0.toNat = S.length) (hroom : SinkRoom d S.length) :
    ∃ v, exec .decode d = .next v ∧ v.fault = d.fault ∧ v.snk = d.snk ++ S := by
  obtain ⟨pad, -, hstream⟩ := hsrc
  obtain ⟨v, hloop, -, -, hv⟩ := decodeLoop_ok S.length S hp hsyms (readerOk_zero hcnt hacc)
    ((sourceBits_zero hcnt).trans hstream) hroom
  refine ⟨v, ?_, by rw [hv], by rw [hv]⟩
  rw [exec_decode_of_tree htv, harg, hloop, settled_ok]

/-- Settles O53: ENCODE and WFLUSH leave the payload of the codes of `S`, and DECODE reads it back. -/
theorem roundTrip : Obligations.RoundTrip := by
  rintro tab tree S s htree hpresent - htv rfl hct hfault hcnt hacc rfl hroom
  obtain ⟨hp, hsyms⟩ := builder_facts htree
  have hmem : ∀ x ∈ s.src, x ∈ syms s.tree := fun x hx => hsyms x (hpresent x hx)
  obtain ⟨t, u, bytes, hencode, hflush, huFault, huSnk, hpayload⟩ := exec_encode_wflush htv hct hp hmem hcnt hacc hroom
  refine ⟨t, u, bytes, hencode, hflush, huFault.trans hfault, huSnk, ?_⟩
  rintro d hdtv hdtree hdfault hdcnt hdacc rfl hdarg hdroom
  rw [← hdtree] at hpayload
  obtain ⟨v, hdecode, hvFault, hvSnk⟩ := exec_decode_payload hdtv (hdtree ▸ hp) hdcnt hdacc (hdtree ▸ hmem) hpayload
    hdarg hdroom
  exact ⟨v, hdecode, hvFault.trans hdfault, hvSnk⟩

/-! ### Decoding a payload that was cut -/

theorem codeBits_cons (ct : CodeTable) (x : Byte) (l : List Byte) :
    codeBits ct (x :: l) = codeOf ct x ++ codeBits ct l := List.flatMap_cons

/-- Bits that stop short of the end of a sequence of codes stop inside one of the codes, or before it. -/
theorem exists_symbol_cut {ct : CodeTable} {bits : List Bit} : ∀ {S : List Byte}, bits <+: codeBits ct S →
    bits.length < (codeBits ct S).length → ∃ out x rest tail, S = out ++ x :: rest ∧ bits = codeBits ct out ++ tail ∧
      tail <+: codeOf ct x ∧ tail.length < (codeOf ct x).length := by
  intro S
  induction S generalizing bits with
  | nil => exact fun _ hlt => absurd hlt (Nat.not_lt_zero _)
  | cons x S ih =>
    intro hpre hlt
    rw [codeBits_cons] at hpre hlt
    rcases lt_or_ge bits.length (codeOf ct x).length with hin | hpast
    · exact ⟨[], x, S, bits, rfl, rfl, List.prefix_of_prefix_length_le hpre (List.prefix_append _ _) hin.le, hin⟩
    · obtain ⟨more, rfl⟩ := List.prefix_of_prefix_length_le (List.prefix_append _ _) hpre hpast
      rw [List.length_append, List.length_append] at hlt
      obtain ⟨out, y, rest, tail, rfl, rfl, hcut⟩ := ih ((List.prefix_append_right_inj _).1 hpre) (by omega)
      exact ⟨x :: out, y, rest, tail, rfl, by rw [codeBits_cons, List.append_assoc], hcut⟩

/-- A payload without its last byte, or more of them, is short of at least one of its bits, as the pad is less than a
byte. -/
theorem Payload.cut {bits : List Bit} {bytes cut : List Byte} (h : Payload bits bytes) (hpre : cut <+: bytes)
    (hne : cut ≠ bytes) : cut.flatMap byteBits <+: bits ∧ (cut.flatMap byteBits).length < bits.length := by
  obtain ⟨pad, hpad, hstream⟩ := h
  obtain ⟨lost, rfl⟩ := hpre
  have hlost : lost.length ≠ 0 := fun h0 => hne (by rw [List.length_eq_zero_iff.1 h0, List.append_nil])
  have hlen := congrArg List.length hstream
  rw [length_flatMap_byteBits, List.length_append, List.length_append, List.length_replicate] at hlen
  have hlt : (cut.flatMap byteBits).length < bits.length := by rw [length_flatMap_byteBits]; omega
  have hcut : cut.flatMap byteBits <+: bits ++ List.replicate pad false := by
    rw [← hstream, List.flatMap_append]
    exact List.prefix_append _ _
  exact ⟨List.prefix_of_prefix_length_le hcut (List.prefix_append _ _) hlt.le, hlt⟩

/-- A proper part of a code has no code at its beginning, as no code begins another. -/
theorem not_code_prefix_of_cut {t : CodeTree} {x y : Byte} {tail : List Bit} (hp : Proper t) (hx : x ∈ syms t)
    (hy : y ∈ syms t) (hpre : tail <+: codeOf (codes t) x) (hlt : tail.length < (codeOf (codes t) x).length) :
    ¬ codeOf (codes t) y <+: tail := by
  intro hcode
  obtain rfl := eq_of_code_prefix hp hy hx (hcode.trans hpre)
  exact absurd hcode.length_le (Nat.not_le_of_lt hlt)

/-- The code of a degenerate tree is one bit, so a proper part of it is empty. -/
theorem eq_nil_of_cut_of_leaf {t : CodeTree} {x a : Byte} {tail : List Bit} (ht : t = .leaf a) (hx : x ∈ syms t)
    (hlt : tail.length < (codeOf (codes t) x).length) : tail = [] := by
  subst ht
  obtain rfl := List.mem_singleton.1 hx
  rw [codes_leaf] at hlt
  exact List.length_eq_zero_iff.1 (Nat.lt_one_iff.1 hlt)

/-- A reset reader whose bits stop short of the end of the codes of `S` raises TruncatedInput when it is to decode as
many symbols (47_codec.md R213, 60_exceptions.md R233). -/
theorem exec_decode_truncated {d : State} {S : List Byte} (htv : d.tv = true) (hp : Proper d.tree) (hcnt : d.rcnt = 0)
    (hacc : d.racc = 0) (hsyms : ∀ x ∈ S, x ∈ syms d.tree)
    (hpre : d.src.flatMap byteBits <+: codeBits (codes d.tree) S)
    (hlt : (d.src.flatMap byteBits).length < (codeBits (codes d.tree) S).length)
    (harg : d.arg0.toNat = S.length) (hroom : SinkRoom d S.length) :
    ∃ v, exec .decode d = .next v ∧ v.fault = true ∧ v.err = 4 ∧ v.errinfo0 = d.arg0 := by
  obtain ⟨out, x, rest, tail, rfl, hbits, htail, hshort⟩ := exists_symbol_cut hpre hlt
  have hx : x ∈ syms d.tree := hsyms x (by simp)
  have hout : out.length < d.arg0.toNat := by rw [harg, List.length_append, List.length_cons]; omega
  obtain ⟨v, hloop, hv⟩ := decodeLoop_end d.arg0.toNat out d.arg0.toNat hp (readerOk_zero hcnt hacc)
    (fun y hy => hsyms y (List.mem_append_left _ hy)) ((sourceBits_zero hcnt).trans hbits)
    (fun y hy => not_code_prefix_of_cut hp hx hy htail hshort)
    (fun ⟨a, ha⟩ => eq_nil_of_cut_of_leaf ha hx hshort) hout
    (fun c hc => by have := hroom c hc; rw [List.length_append] at this; omega)
  refine ⟨v, ?_, by rw [hv], by rw [hv], ?_⟩
  · rw [exec_decode_of_tree htv, hloop, settled_error]
  · rw [hv]
    exact BitVec.eq_of_toNat_eq (countWord_toNat d.arg0.isLt)

/-- Settles O54: bytes cut from the payload take at least one bit of a code with them, so DECODE ends inside the code of
a symbol of `S`. -/
theorem truncationIsDetected : Obligations.TruncationIsDetected := by
  rintro tab tree S s htree hpresent - - htv rfl hct hcnt hacc rfl hroom
  obtain ⟨hp, hsyms⟩ := builder_facts htree
  have hmem : ∀ x ∈ s.src, x ∈ syms s.tree := fun x hx => hsyms x (hpresent x hx)
  obtain ⟨t, u, bytes, hencode, hflush, -, huSnk, hpayload⟩ := exec_encode_wflush htv hct hp hmem hcnt hacc hroom
  refine ⟨t, u, bytes, hencode, hflush, huSnk, ?_⟩
  rintro d cut hcutPre hcutNe hdtv hdtree hdcnt hdacc rfl hdarg hdroom
  rw [← hdtree] at hpayload
  obtain ⟨hpre, hlt⟩ := hpayload.cut hcutPre hcutNe
  exact exec_decode_truncated hdtv (hdtree ▸ hp) hdcnt hdacc (hdtree ▸ hmem) hpre hlt hdarg hdroom

end Sys2Proof.Machine
end

section
/-! SUPPORT. R220, R221, R223, R224: what NOP, CLRF, SRCCLR and SNKCLR do in every state. -/

namespace Sys2Proof.Machine
open Sys2Proof

/-! ### NOP, SRCCLR and SNKCLR -/

theorem exec_nop (s : State) : exec .nop s = .next s := rfl

theorem exec_srcclr (s : State) : exec .srcclr s = .next { s with src := [] } := rfl

theorem exec_snkclr (s : State) : exec .snkclr s = .next { s with snk := [] } := rfl

/-- Settles O17: the three words are closed terms, and each next state is the definition of its command. -/
theorem nopAndQueueClears : Obligations.NopAndQueueClears :=
  ⟨by decide, by decide, by decide, fun s => ⟨exec_nop s, exec_srcclr s, exec_snkclr s⟩⟩

/-! ### CLRF -/

/-- CLRF does not look at FAULT: it clears the fault record of any state (48_system.md R221). -/
theorem exec_clrf (s : State) : exec .clrf s = .next (clearFault s) := rfl

/-- What CLRF leaves alone is all of the state but the four fields of the fault record (48_system.md R221). -/
theorem clearFault_frame (s : State) : clearFault s =
    { s with fault := (clearFault s).fault, err := (clearFault s).err, errinfo0 := (clearFault s).errinfo0,
             errinfo1 := (clearFault s).errinfo1 } := rfl

/-- Settles O18: the next state is `clearFault s`, whose four cleared fields and whose frame have their own laws. -/
theorem clrfClearsTheFaultRecord : Obligations.ClrfClearsTheFaultRecord :=
  ⟨by decide, fun s => ⟨clearFault s, exec_clrf s, clearFault_fault s, clearFault_err s, clearFault_errinfo0 s,
    clearFault_errinfo1 s, clearFault_frame s⟩⟩

end Sys2Proof.Machine
end

section
/-! SUPPORT. R90 to R96: decoding and encoding are inverse to each other on the well-formed commands, and the fields of a
word say what it decodes to. -/

namespace Sys2Proof
open Sys2Proof.Laws

/-! ### Decoding the word of a command -/

theorem encode_eq_commandWord (i : Instr) :
    encode i = commandWord (wordFields i).1 (wordFields i).2.1 (wordFields i).2.2 := by
  cases i <;> rfl

theorem assemble_wordFields (i : Instr) :
    assemble (wordFields i).1 (wordFields i).2.1 (wordFields i).2.2 = .instr i := by
  cases i <;> rfl

/-- A word with Z = 0 is rejected for its operands only (30_encoding.md R95). -/
theorem decode_commandWord {op a b : Byte} {f : Format} (hf : formatOf op = some f) (hok : ¬ f.rejects a b 0) :
    decode (commandWord op a b) = assemble op a b := by
  have hfields := decode_accepts (c := joinBytes op a b 0) (f := f)
  simp only [fieldOP_joinBytes, fieldA_joinBytes, fieldB_joinBytes, fieldZ_joinBytes] at hfields
  exact hfields hf hok

/-- The formats reject no operand in its legal range, and no unused field that is 0 (30_encoding.md R91). -/
theorem format_accepts_wordFields {i : Instr} (h : i.wellFormed = true) :
    ∃ f, formatOf (wordFields i).1 = some f ∧ ¬ f.rejects (wordFields i).2.1 (wordFields i).2.2 0 := by
  cases i
  case hbuild t =>
    have ht : t.toNat ≤ 1 := of_decide_eq_true h
    exact ⟨.G, rfl, by simp [Format.rejects, Format.usesA, Format.usesB, wordFields, ht]⟩
  case sbuild t =>
    have ht : t.toNat ≤ 1 := of_decide_eq_true h
    exact ⟨.G, rfl, by simp [Format.rejects, Format.usesA, Format.usesB, wordFields, ht]⟩
  case cbits x k =>
    have hk : k.toNat ≤ 3 := of_decide_eq_true h
    exact ⟨.SK, rfl, by simp [Format.rejects, Format.usesA, Format.usesB, wordFields, hk]⟩
  case wbit b =>
    have hb : b.toNat ≤ 1 := of_decide_eq_true h
    exact ⟨.I, rfl, by simp [Format.rejects, Format.usesA, Format.usesB, wordFields, hb]⟩
  all_goals exact ⟨_, rfl, by simp [Format.rejects, Format.usesA, Format.usesB, wordFields]⟩

/-- Settles O2: the word carries the fields of the command's row, which the row's format accepts and `assemble` puts
together again. -/
theorem decodeOfEncode : Obligations.DecodeOfEncode := by
  intro i hwf
  obtain ⟨f, hf, hok⟩ := format_accepts_wordFields hwf
  rw [encode_eq_commandWord, decode_commandWord hf hok, assemble_wordFields]

/-! ### The word of what was decoded -/

/-- Accepted fields that make a command are the fields of its word, and its operands are in range. -/
theorem wordFields_of_assemble {op a b : Byte} {f : Format} {i : Instr} (hf : formatOf op = some f)
    (hok : ¬ f.rejects a b 0) (h : assemble op a b = .instr i) : (op, a, b) = wordFields i ∧ i.wellFormed = true := by
  unfold assemble at h
  split at h
  case h_26 => cases h
  case h_11 hop =>
    obtain rfl := eq_ofNat_of_toNat_eq hop
    cases hf
    split_ifs at h with h1 h3 <;> cases h <;>
      simp_all [Format.rejects, wordFields, Instr.wellFormed, tselLegal]
  all_goals
    rename_i hop
    obtain rfl := eq_ofNat_of_toNat_eq hop
    cases hf
    cases h
    simpa [Format.rejects, Format.usesA, Format.usesB, wordFields, Instr.wellFormed, chunkLegal, bitLegal] using hok

/-- The three checks of a word that decodes to a command. -/
theorem accepted_of_decode {c : CommandWord} {i : Instr} (h : decode c = .instr i) :
    ∃ f, formatOf (fieldOP c) = some f ∧ ¬ f.rejects (fieldA c) (fieldB c) (fieldZ c) ∧
      assemble (fieldOP c) (fieldA c) (fieldB c) = .instr i := by
  have hlegal : ¬ ∃ why, decode c = .illegal why := by simp [h]
  cases hf : formatOf (fieldOP c) with
  | none => exact absurd ⟨_, decode_undefined hf⟩ hlegal
  | some f =>
    obtain ⟨hreject, haccept⟩ := decode_format hf
    exact ⟨f, rfl, mt hreject.2 hlegal, (haccept hlegal).symm.trans h⟩

/-- Settles O3: the fields of the command's word are those of the word decoded, Z included, which is 0. -/
theorem encodeOfDecode : Obligations.EncodeOfDecode := by
  intro c i h
  obtain ⟨f, hf, hok, hi⟩ := accepted_of_decode h
  have hz : fieldZ c = 0 := not_not.1 fun hz => hok (.inl hz)
  rw [hz] at hok
  obtain ⟨hfields, hwf⟩ := wordFields_of_assemble hf hok hi
  refine ⟨hwf, ?_⟩
  rw [encode_eq_commandWord, ← hfields, commandWord_eq, ← hz, joinBytes_fields]

/-! ### The classes of words -/

/-- The opcodes of each format, and of those that use a field (30_encoding.md R91, R93). -/
theorem opcodes_of_format : ∀ op : Byte, ∀ f ∈ formatOf op,
    op.toNat ∈ [0x00, 0x01, 0x02, 0x10, 0x11, 0x12, 0x13, 0x18, 0x19, 0x1A, 0x20, 0x21, 0x22, 0x23, 0x24, 0x25,
      0x30, 0x31, 0x32, 0x38, 0x39, 0x40, 0x41, 0x50, 0x51] ∧
    (f.usesA = false ↔ op.toNat ∉ [0x12, 0x13, 0x18, 0x19, 0x1A, 0x20, 0x21, 0x22, 0x31]) ∧
    (f.usesB = false ↔ op.toNat ∉ [0x20, 0x22]) ∧
    (f = .SK ↔ op.toNat = 0x22) ∧ (f = .G ↔ op.toNat = 0x20) ∧ (f = .I ↔ op.toNat = 0x31) := by
  decide +kernel

theorem undefined_opcode : ∀ op : Byte, formatOf op = none → op.toNat ∉ [0x00, 0x01, 0x02, 0x10, 0x11, 0x12, 0x13, 0x18,
    0x19, 0x1A, 0x20, 0x21, 0x22, 0x23, 0x24, 0x25, 0x30, 0x31, 0x32, 0x38, 0x39, 0x40, 0x41, 0x50, 0x51] := by
  decide +kernel

/-- The numbers of R91 and R93 say what the opcode's format rejects. -/
theorem illegalWord_iff_rejects {c : CommandWord} {f : Format} (hf : formatOf (fieldOP c) = some f) :
    IllegalWord c ↔ f.rejects (fieldA c) (fieldB c) (fieldZ c) := by
  obtain ⟨hdef, hA, hB, hSK, hG, hI⟩ := opcodes_of_format (fieldOP c) f hf
  rw [IllegalWord, Format.rejects, hA, hB, hSK, hG, hI]
  simp only [not_not.2 hdef, false_or, and_comm]

theorem decode_illegal_iff (c : CommandWord) : (∃ why, decode c = .illegal why) ↔ IllegalWord c := by
  cases hf : formatOf (fieldOP c) with
  | none => exact iff_of_true ⟨_, decode_undefined hf⟩ (.inl (undefined_opcode _ hf))
  | some f => rw [(decode_format hf).1, illegalWord_iff_rejects hf]

theorem decode_of_not_illegalWord {c : CommandWord} (h : ¬ IllegalWord c) :
    decode c = assemble (fieldOP c) (fieldA c) (fieldB c) := by
  rw [← decode_illegal_iff] at h
  cases hf : formatOf (fieldOP c) with
  | none => exact absurd ⟨_, decode_undefined hf⟩ h
  | some f => exact (decode_format hf).2 h

theorem assemble_unsupported {a : Byte} (h1 : a ≠ 1) (h3 : a ≠ 3) (b : Byte) :
    assemble 0x20 a b = .unsupportedBuild a b :=
  (if_neg h1).trans (if_neg h3)

/-- Settles O5: a word is illegal exactly if its opcode's format rejects it, and of the words accepted `assemble` makes
an unsupported BUILD of those with opcode 0x20 and neither algorithm. -/
theorem everyWordIsClassified : Obligations.EveryWordIsClassified := by
  refine fun c => ⟨decode_illegal_iff c, fun a b => ⟨fun h => ?_, ?_⟩⟩
  · have hlegal : ¬ IllegalWord c := by rw [← decode_illegal_iff, h]; simp
    have hasm := (decode_of_not_illegalWord hlegal).symm.trans h
    obtain ⟨hop, h1, h3⟩ := assemble_eq_unsupportedBuild hasm
    rw [hop, assemble_unsupported h1 h3] at hasm
    obtain ⟨rfl, rfl⟩ := Decoded.unsupportedBuild.inj hasm
    exact ⟨hlegal, congrArg BitVec.toNat hop, h1, h3, rfl, rfl⟩
  · rintro ⟨hlegal, hop, h1, h3, rfl, rfl⟩
    have hop' : fieldOP c = 0x20 := BitVec.eq_of_toNat_eq hop
    rw [decode_of_not_illegalWord hlegal, hop', assemble_unsupported h1 h3]

/-- Settles O6: decoding closed words. -/
theorem sampleWordsDecode : Obligations.SampleWordsDecode := by
  refine ⟨?_, ?_, ?_, ?_, ?_, ?_, ?_, ?_, ?_, ?_, ?_, ?_⟩ <;> decide

end Sys2Proof
end

section
/-! SUPPORT. R23 to R29, R60 to R66, R75, R95: what a host move does at each index of the register map, and the fields of
the read-outs. -/

namespace Sys2Proof.Machine
open Sys2Proof

/-! ### Reads -/

theorem afterRead_eq (i : Nat) (s : State) : afterRead i s = { s with snk := if i = 10 then s.snk.tail else s.snk } := by
  unfold afterRead
  split <;> rfl

/-- A read returns the register's value, and takes the head of SNK at index 10 (20_memory.md R64, R66). -/
theorem step_of_read {s : State} {i : Nat} {rest : List HostMove} (h : s.moves = .read i :: rest) (hi : i < 16) :
    step s = .next { s with
      moves := rest, returned := s.returned ++ [registerValue i s], snk := if i = 10 then s.snk.tail else s.snk } := by
  rw [step_of_moves_eq_cons h, hostMove, hostRead_of_lt hi, afterRead_eq]
  rfl

theorem registerValue_snkdata_nil {s : State} (h : s.snk = []) : registerValue 10 s = 0 := by
  simp only [registerValue, h]

theorem registerValue_snkdata_cons {s : State} {b : Byte} {q : List Byte} (h : s.snk = b :: q) :
    registerValue 10 s = b.setWidth 64 := by
  simp only [registerValue, h]

/-- Settles O14: the value at each index is an equation of `registerValue`, and a count below 2^64 shows as it is. -/
theorem hostReadsFollowTheMap : Obligations.HostReadsFollowTheMap := by
  intro s i rest h hi
  have hvalue {j : Nat} {v : Word} (hj : registerValue j s = v) : i = j → registerValue i s = v := fun e => e ▸ hj
  have hcount {j n : Nat} (hj : registerValue j s = countWord n) : i = j → n < 2 ^ 64 → (registerValue i s).toNat = n :=
    fun e hlt => by rw [e, hj, countWord_toNat hlt]
  exact ⟨_, registerValue i s, step_of_read h hi, rfl, fun hz => registerValue_of_not_readable hz s,
    hvalue rfl, hvalue rfl, hvalue rfl, hvalue rfl, hvalue rfl, hvalue rfl, hvalue rfl, hcount rfl,
    fun e hnil => hvalue (registerValue_snkdata_nil hnil) e,
    fun e _ _ hcons => hvalue (registerValue_snkdata_cons hcons) e,
    hcount rfl, hvalue rfl, hvalue rfl⟩

/-! ### Writes -/

theorem step_of_write {s : State} {i : Nat} {v : Word} {rest : List HostMove} (h : s.moves = .write i v :: rest) :
    step s = hostWrite i v { s with moves := rest } := step_of_moves_eq_cons h

theorem hostWrite_cmd (v : Word) (s : State) : hostWrite 0 v s = runCommand (v.setWidth 32) s := rfl

theorem hostWrite_arg0 (v : Word) (s : State) : hostWrite 2 v s = .next { s with arg0 := v } := rfl

theorem hostWrite_arg1 (v : Word) (s : State) : hostWrite 3 v s = .next { s with arg1 := v } := rfl

theorem hostWrite_srcdata (v : Word) (s : State) : hostWrite 8 v s = .next (srcPush (v.setWidth 8) s) := rfl

theorem srcPush_of_room {s : State} (h : ∀ c, s.cfg.srcCap = some c → s.src.length < c) (b : Byte) :
    srcPush b s = { s with src := s.src ++ [b] } :=
  if_pos ((hasRoom_of _ _).2 h)

theorem srcPush_of_full {s : State} {c : Nat} (hcap : s.cfg.srcCap = some c) (h : c ≤ s.src.length) (b : Byte) :
    srcPush b s = s :=
  if_neg fun hroom => Nat.not_lt.2 h ((hasRoom_of _ _).1 hroom c hcap)

/-- Settles O15: one equation of `hostWrite` for each writable index, with `srcPush` in its two cases. -/
theorem hostWritesFollowTheMap : Obligations.HostWritesFollowTheMap := by
  intro s i v rest h
  rw [step_of_write h]
  refine ⟨?_, ?_, ?_, ?_, fun hi h0 h2 h3 h8 => hostWrite_of_not_writable hi h0 h2 h3 h8 v _⟩
  · rintro rfl
    exact hostWrite_arg0 v _
  · rintro rfl
    exact hostWrite_arg1 v _
  · rintro rfl hroom
    exact congrArg _ (srcPush_of_room (s := { s with moves := rest }) hroom _)
  · rintro rfl ⟨c, hcap, hfull⟩
    exact congrArg _ (srcPush_of_full (s := { s with moves := rest }) hcap hfull _)

/-! ### Read-outs -/

theorem extractLsb'_eq_of_bits {w n k : Nat} {x : BitVec w} {v : BitVec n}
    (h : ∀ i < n, x.getLsbD (k + i) = v.getLsbD i) : x.extractLsb' k n = v := by
  refine BitVec.eq_of_getLsbD_eq fun i hi => ?_
  rw [BitVec.getLsbD_extractLsb', decide_eq_true hi, Bool.true_and, h i hi]

theorem getLsbD_statusWord_reserved (s : State) {i : Nat} (hi : i < 4) : (statusWord s).getLsbD (12 + i) = false := by
  rw [getLsbD_statusWord, if_neg (by omega), if_neg (by omega), if_neg (by omega), if_neg (by omega), if_neg (by omega),
    if_pos (by omega)]

theorem getLsbD_statusWord_talg (s : State) (i : Nat) : (statusWord s).getLsbD (16 + i) = s.talg.getLsbD i := by
  rw [getLsbD_statusWord, if_neg (by omega), if_neg (by omega), if_neg (by omega), if_neg (by omega), if_neg (by omega),
    if_neg (by omega), Nat.add_sub_cancel_left]

theorem getLsbD_wstateWord_wcnt (s : State) (i : Nat) : (wstateWord s).getLsbD (8 + i) = s.wcnt.getLsbD i := by
  rw [getLsbD_wstateWord, if_neg (by omega), Nat.add_sub_cancel_left]

theorem getLsbD_rstateWord_rcnt (s : State) (i : Nat) : (rstateWord s).getLsbD (8 + i) = s.rcnt.getLsbD i := by
  rw [getLsbD_rstateWord, if_neg (by omega), Nat.add_sub_cancel_left]

/-- Settles O13, bit by bit; the reserved bits at the top lie past the end of the field below them. -/
theorem readOutLayouts : Obligations.ReadOutLayouts := by
  intro s
  refine ⟨extractLsb'_eq_of_bits fun i hi => ?_, getLsbD_statusWord s 8, getLsbD_statusWord s 9, getLsbD_statusWord s 10,
    getLsbD_statusWord s 11, extractLsb'_eq_of_bits fun i hi => ?_, extractLsb'_eq_of_bits fun i _ => ?_,
    extractLsb'_eq_of_bits fun i _ => ?_, extractLsb'_eq_of_bits fun i hi => ?_, extractLsb'_eq_of_bits fun i _ => ?_,
    extractLsb'_eq_of_bits fun i _ => ?_, extractLsb'_eq_of_bits fun i hi => ?_, extractLsb'_eq_of_bits fun i _ => ?_,
    extractLsb'_eq_of_bits fun i _ => ?_⟩
  · rw [Nat.zero_add, getLsbD_statusWord, if_pos hi]
  · exact (getLsbD_statusWord_reserved s hi).trans BitVec.getLsbD_zero.symm
  · exact getLsbD_statusWord_talg s i
  · rw [show 24 + i = 16 + (8 + i) by omega, getLsbD_statusWord_talg, BitVec.getLsbD_of_ge _ _ (by omega)]
    exact BitVec.getLsbD_zero.symm
  · rw [Nat.zero_add, getLsbD_wstateWord, if_pos hi]
  · exact getLsbD_wstateWord_wcnt s i
  · rw [show 12 + i = 8 + (4 + i) by omega, getLsbD_wstateWord_wcnt, BitVec.getLsbD_of_ge _ _ (by omega)]
    exact BitVec.getLsbD_zero.symm
  · rw [Nat.zero_add, getLsbD_rstateWord, if_pos hi]
  · exact getLsbD_rstateWord_rcnt s i
  · rw [show 12 + i = 8 + (4 + i) by omega, getLsbD_rstateWord_rcnt, BitVec.getLsbD_of_ge _ _ (by omega)]
    exact BitVec.getLsbD_zero.symm

end Sys2Proof.Machine
end

section
/-! SUPPORT. R95, R230, R236 to R247: the gate on FAULT, what a word written to CMD runs, and the fault record. -/

namespace Sys2Proof.Machine
open Sys2Proof

/-! ### The word written to CMD -/

theorem step_of_write_cmd {s : State} {v : Word} {rest : List HostMove} (h : s.moves = .write 0 v :: rest) :
    step s = runCommand (v.setWidth 32) { s with moves := rest } := by
  rw [step_of_write h, hostWrite_cmd]

theorem gated_of_good {s : State} (h : s.fault = false) (c : CommandWord) : gated c s = false := by
  simp [gated, h]

theorem gated_of_clrf_or_srst {c : CommandWord} (h : c = clrfWord ∨ c = srstWord) (s : State) : gated c s = false := by
  rcases h with rfl | rfl <;> simp [gated]

theorem gated_of_faulted {c : CommandWord} {s : State} (h : s.fault = true) (hclrf : c ≠ clrfWord) (hsrst : c ≠ srstWord) :
    gated c s = true := by
  simp [gated, h, hclrf, hsrst]

theorem runCommand_of_gated {c : CommandWord} {s : State} (h : gated c s = true) : runCommand c s = .next s := if_pos h

theorem runCommand_of_instr {c : CommandWord} {s : State} {i : Instr} (hg : gated c s = false)
    (hd : decode c = .instr i) : runCommand c s = exec i s := by
  simp [runCommand, hg, hd]

theorem runCommand_of_illegal {c : CommandWord} {s : State} {why : Illegal} (hg : gated c s = false)
    (hd : decode c = .illegal why) : runCommand c s = .next (raise .illegalCommand (c.setWidth 64) 0 s) := by
  simp [runCommand, hg, hd]

theorem runCommand_clrf (s : State) : runCommand clrfWord s = .next (clearFault s) := by
  rw [runCommand_of_instr (gated_of_clrf_or_srst (.inl rfl) s) decode_clrf, exec_clrf]

theorem runCommand_srst (s : State) : runCommand srstWord s = .next (softReset s) := by
  rw [runCommand_of_instr (gated_of_clrf_or_srst (.inr rfl) s) decode_srst]
  rfl

/-- Settles O7: the two cases in which the gate is open. -/
theorem stepRunsDecodedCommand : Obligations.StepRunsDecodedCommand := by
  refine ⟨fun s v rest i h hopen hd => ?_, fun s h => by simp only [step, nextMove, h]⟩
  rw [step_of_write_cmd h]
  refine runCommand_of_instr ?_ hd
  rcases hopen with hgood | hword
  · exact gated_of_good hgood _
  · exact gated_of_clrf_or_srst hword _

/-- Settles O8: what the numbers of R91 and R93 call illegal, decoding rejects. -/
theorem illegalWordFaults : Obligations.IllegalWordFaults := by
  intro s v rest h hgood hword
  obtain ⟨why, hd⟩ := (decode_illegal_iff _).2 hword
  rw [step_of_write_cmd h]
  exact runCommand_of_illegal (gated_of_good hgood _) hd

/-- Settles O9: the gate stands before decoding, and no port looks at FAULT. -/
theorem faultedEngineGate : Obligations.FaultedEngineGate := by
  intro s rest hfault
  refine ⟨fun v h hclrf hsrst => ?_, fun v h hword => ?_, fun v h hword => ?_, fun i hi h => ?_, fun v h hroom => ?_⟩
  · rw [step_of_write_cmd h]
    exact runCommand_of_gated (gated_of_faulted hfault hclrf hsrst)
  · rw [step_of_write_cmd h, hword]
    exact runCommand_clrf _
  · rw [step_of_write_cmd h, hword]
    exact ⟨_, runCommand_srst _, hasResetValues_softReset _⟩
  · exact ⟨_, step_of_read h hi, rfl, rfl⟩
  · rw [step_of_write h, hostWrite_srcdata]
    exact congrArg _ (srcPush_of_room (s := { s with moves := rest }) hroom _)

/-! ### The first fault -/

/-- In a faulted PCE a word is ignored, or it is CLRF or SRST (60_exceptions.md R241). -/
theorem runCommand_faulted {c : CommandWord} {s t : State} (hfault : s.fault = true) (h : runCommand c s = .next t) :
    t = s ∨ ((c = clrfWord ∨ c = srstWord) ∧ t.fault = false) := by
  cases hg : gated c s with
  | true =>
    rw [runCommand_of_gated hg] at h
    exact .inl (eq_of_next h)
  | false =>
    have hword := gated_false hg hfault
    refine .inr ⟨hword, ?_⟩
    rcases hword with rfl | rfl
    · rw [runCommand_clrf] at h; rw [eq_of_next h]; rfl
    · rw [runCommand_srst] at h; rw [eq_of_next h]; rfl

/-- Settles O10: a command word is ignored or is one of the two, and every other move touches the ports only. -/
theorem firstFaultIsKept : Obligations.FirstFaultIsKept := by
  intro s t hfault h
  rcases step_cases s t h with ⟨_, rfl⟩ | ⟨m, rest, hm, hmove⟩
  · exact .inr rfl
  · rcases hostMove_cases m _ t hmove with ⟨i, _, _, rfl⟩ | ⟨v, rfl, hrun⟩ | ⟨i, v, _, _, rfl | rfl | rfl | rfl⟩
    · exact .inr rfl
    · rcases runCommand_faulted (s := { s with moves := rest }) hfault hrun with rfl | ⟨hword, hclear⟩
      · exact .inr rfl
      · exact .inl ⟨v, rest, hm, hclear, hword⟩
    · exact .inr rfl
    · exact .inr rfl
    · exact .inr (by rw [srcPush_frame])
    · exact .inr rfl

/-! ### Every move completes -/

/-- No command touches the moves still to be made. -/
theorem exec_moves {i : Instr} {s t : State} (h : exec i s = .next t) : t.moves = s.moves := by
  have hc := changes_of_exec h
  cases i
  case srst => rw [show t = _ from hc]; rfl
  all_goals rw [show t = _ from hc]

theorem runCommand_completes (c : CommandWord) (s : State) :
    ∃ t, runCommand c s = .next t ∧ t.moves = s.moves ∧ t.cfg = s.cfg := by
  rcases run_spec c s with ⟨_, hrun⟩ | ⟨_, i, _, hrun⟩ | ⟨_, _, k, e0, hrun, _⟩ <;> rw [hrun]
  · exact ⟨s, rfl, rfl, rfl⟩
  · obtain ⟨t, ht, _⟩ := exec_spec i s
    exact ⟨t, ht, exec_moves ht, exec_cfg ht⟩
  · exact ⟨_, rfl, rfl, rfl⟩

theorem hostWrite_completes {i : Nat} (hi : i < 16) (v : Word) (s : State) :
    ∃ t, hostWrite i v s = .next t ∧ t.moves = s.moves ∧ t.cfg = s.cfg := by
  by_cases h0 : i = 0
  · subst h0; rw [hostWrite_cmd]; exact runCommand_completes _ s
  by_cases h2 : i = 2
  · subst h2; exact ⟨_, hostWrite_arg0 v s, rfl, rfl⟩
  by_cases h3 : i = 3
  · subst h3; exact ⟨_, hostWrite_arg1 v s, rfl, rfl⟩
  by_cases h8 : i = 8
  · subst h8; exact ⟨_, hostWrite_srcdata v s, by rw [srcPush_frame], by rw [srcPush_frame]⟩
  exact ⟨s, hostWrite_of_not_writable hi h0 h2 h3 h8 v s, rfl, rfl⟩

/-- Settles O11: a read and a write at an index below 16 complete, whatever command the write runs. -/
theorem everyMoveCompletes : Obligations.EveryMoveCompletes := by
  intro s m rest h hread hwrite
  cases m with
  | read i => exact ⟨_, step_of_read h (hread i rfl), rfl, rfl⟩
  | write i v =>
    rw [step_of_write h]
    exact hostWrite_completes (hwrite i v rfl) v { s with moves := rest }

/-! ### The fault codes -/

/-- ERR is 0 without a fault and one of the codes 2 to 10 with one (60_exceptions.md R230, R247). -/
def ErrLegal (s : State) : Prop :=
  (s.fault = false → s.err = 0) ∧ (s.fault = true → 2 ≤ s.err.toNat ∧ s.err.toNat ≤ 10)

theorem ErrLegal.congr {s t : State} (h : ErrLegal s) (herr : t.err = s.err) (hfault : t.fault = s.fault) :
    ErrLegal t := by
  rw [ErrLegal, herr, hfault]
  exact h

theorem errLegal_of_good {s : State} (hfault : s.fault = false) (herr : s.err = 0) : ErrLegal s :=
  ⟨fun _ => herr, fun h => (by rw [hfault] at h; cases h)⟩

theorem errLegal_of_code {s : State} (hfault : s.fault = true) (h2 : 2 ≤ s.err.toNat) (h10 : s.err.toNat ≤ 10) :
    ErrLegal s :=
  ⟨fun h => (by rw [hfault] at h; cases h), fun _ => ⟨h2, h10⟩⟩

theorem errLegal_raise {k : FaultKind} (h2 : 2 ≤ (faultCode k).toNat) (h10 : (faultCode k).toNat ≤ 10) (e0 e1 : Word)
    (s : State) : ErrLegal (raise k e0 e1 s) :=
  errLegal_of_code rfl h2 h10

theorem ErrLegal.of_faultRecord {s t : State} (h : ErrLegal s) (hr : FaultRecord s t) : ErrLegal t := by
  rcases hr with ⟨herr, hfault, _⟩ | ⟨hfault, h2, h9⟩ | ⟨hfault, herr, _⟩
  · exact h.congr herr hfault
  · exact errLegal_of_code hfault h2 (by omega)
  · exact errLegal_of_code hfault (by rw [herr]; decide) (by rw [herr]; decide)

theorem exec_keeps_errLegal {i : Instr} {s t : State} (h : exec i s = .next t) (hs : ErrLegal s) : ErrLegal t := by
  by_cases hclrf : i = .clrf
  · subst hclrf; rw [eq_of_next h]; exact errLegal_of_good rfl rfl
  by_cases hsrst : i = .srst
  · subst hsrst; rw [eq_of_next h]; exact errLegal_of_good rfl rfl
  exact hs.of_faultRecord (faultRecord_of_exec h hclrf hsrst)

theorem runCommand_keeps_errLegal {c : CommandWord} {s t : State} (h : runCommand c s = .next t) (hs : ErrLegal s) :
    ErrLegal t := by
  rcases run_spec c s with ⟨_, hrun⟩ | ⟨_, i, _, hrun⟩ | ⟨_, _, k, e0, hrun, hk⟩ <;> rw [hrun] at h
  · rw [eq_of_next h]; exact hs
  · exact exec_keeps_errLegal h hs
  · rw [eq_of_next h]
    rcases hk with rfl | rfl
    · exact errLegal_raise (by decide) (by decide) e0 0 s
    · exact errLegal_raise (by decide) (by decide) e0 0 s

theorem hostMove_keeps_errLegal {m : HostMove} {s t : State} (h : hostMove m s = .next t) (hs : ErrLegal s) :
    ErrLegal t := by
  rcases hostMove_cases m s t h with ⟨i, _, _, rfl⟩ | ⟨v, _, hrun⟩ | ⟨i, v, _, _, rfl | rfl | rfl | rfl⟩
  · exact hs
  · exact runCommand_keeps_errLegal hrun hs
  · exact hs
  · exact hs
  · rw [srcPush_frame]; exact hs
  · exact hs

/-- Settles O12: only a command writes ERR, with a code its operation may raise. -/
theorem faultCodesStayLegal : Obligations.FaultCodesStayLegal := by
  refine ⟨⟨rfl, rfl⟩, fun s t hgood hbad h => ?_⟩
  rcases step_cases s t h with ⟨_, rfl⟩ | ⟨m, rest, _, hmove⟩
  · exact ⟨hgood, hbad⟩
  · exact hostMove_keeps_errLegal hmove ⟨hgood, hbad⟩

/-! ### No tree -/

theorem exec_encode_of_noTree {s : State} (h : s.tv = false) : exec .encode s = .next (raise .noTree 0 0 s) := by
  rw [exec, execEncode, withTree_none h]

theorem exec_decode_of_noTree {s : State} (h : s.tv = false) : exec .decode s = .next (raise .noTree 0 0 s) := by
  rw [exec, execDecode, withTree_none h]

/-- Settles O36: each of the five commands looks at TV before anything else. -/
theorem noTreeComesFirst : Obligations.NoTreeComesFirst := by
  rintro i s (rfl | rfl | rfl | ⟨x, rfl⟩ | ⟨x, k, rfl⟩) htv
  · exact exec_encode_of_noTree htv
  · exact exec_decode_of_noTree htv
  · exact exec_tser_of_noTree htv
  · exact exec_clen_of_noTree htv x
  · exact exec_cbits_of_noTree htv x k

/-- With no tree to drop and its flags clear nothing is left to change (43_huffman_builder.md R161). -/
theorem dropTree_of_noTree {s : State} (htv : s.tv = false) (htalg : s.talg = 0) (hsyn : s.syn = false) :
    dropTree s = s := by
  cases s
  simp_all [dropTree]

/-- Settles O37: the next state is `dropTree s`. -/
theorem tdropDropsTheTree : Obligations.TdropDropsTheTree :=
  ⟨by decide, fun s => ⟨dropTree s, rfl, rfl, rfl, rfl, rfl, dropTree_of_noTree⟩⟩

/-! ### Reset -/

/-- Settles O55: at reset the accumulators, the flags and the queues are empty. -/
theorem resetHasTheInvariants : Obligations.ResetHasTheInvariants := fun _ _ =>
  (inv_iff _).2 ⟨writerOk_zero rfl rfl, readerOk_zero rfl rfl, fun _ => ⟨rfl, rfl, rfl⟩, .of_tv_false rfl rfl rfl,
    fun _ _ => Nat.zero_le _, fun _ _ => Nat.zero_le _⟩

end Sys2Proof.Machine
end

section
/-! SUPPORT. R21 to R35, R124, R162, R266: who writes each register, table and queue, read off the frame of each
command. -/

namespace Sys2Proof.Machine
open Sys2Proof

section
variable {i : Instr} {s t : State} (h : exec i s = .next t)
include h

/-! ### The registers and tables of the host's data -/

theorem writes_ft (hi : i ≠ .srst) (hne : t.ft ≠ s.ft) : i = .fclr ∨ i = .fscan ∨ ∃ x, i = .fset x := by
  have hc := changes_of_exec h
  cases i
  case srst => exact absurd rfl hi
  case fclr => exact .inl rfl
  case fscan => exact .inr (.inl rfl)
  case fset x => exact .inr (.inr ⟨x, rfl⟩)
  all_goals exact absurd (congrArg State.ft (show t = _ from hc)) hne

theorem writes_qt (hi : i ≠ .srst) (hne : t.qt ≠ s.qt) : (∃ w, i = .quant w) ∨ ∃ x, i = .qset x := by
  have hc := changes_of_exec h
  cases i
  case srst => exact absurd rfl hi
  case quant w => exact .inl ⟨w, rfl⟩
  case qset x => exact .inr ⟨x, rfl⟩
  all_goals exact absurd (congrArg State.qt (show t = _ from hc)) hne

theorem writes_arg0 (hi : i ≠ .srst) (hne : t.arg0 ≠ s.arg0) :
    (∃ x, i = .fget x) ∨ (∃ x, i = .qget x) ∨ (∃ x, i = .clen x) ∨ (∃ x k, i = .cbits x k) ∨ i = .rbit := by
  have hc := changes_of_exec h
  cases i
  case srst => exact absurd rfl hi
  case fget x => exact .inl ⟨x, rfl⟩
  case qget x => exact .inr (.inl ⟨x, rfl⟩)
  case clen x => exact .inr (.inr (.inl ⟨x, rfl⟩))
  case cbits x k => exact .inr (.inr (.inr (.inl ⟨x, k, rfl⟩)))
  case rbit => exact .inr (.inr (.inr (.inr rfl)))
  all_goals exact absurd (congrArg State.arg0 (show t = _ from hc)) hne

theorem exec_arg1 (hi : i ≠ .srst) : t.arg1 = s.arg1 := by
  have hc := changes_of_exec h
  cases i
  case srst => exact absurd rfl hi
  all_goals rw [show t = _ from hc]

theorem writes_len (hi : i ≠ .srst) (hne : t.len ≠ s.len) : i = .fclr ∨ i = .fscan := by
  have hc := changes_of_exec h
  cases i
  case srst => exact absurd rfl hi
  case fclr => exact .inl rfl
  case fscan => exact .inr rfl
  all_goals exact absurd (congrArg State.len (show t = _ from hc)) hne

/-! ### The tree -/

theorem writes_tree :
    (t.tree = s.tree ∧ t.ct = s.ct ∧ t.tv = s.tv ∧ t.talg = s.talg ∧ t.syn = s.syn) ∨
    ((∃ x, i = .hbuild x) ∨ (∃ x, i = .sbuild x)) ∧ t.tv = true ∨
    i = .tload ∨ i = .tdrop ∧ t.tv = false ∨ i = .srst ∧ t.tv = false := by
  have hc := changes_of_exec h
  cases i
  case hbuild x => exact .inr (.inl ⟨.inl ⟨x, rfl⟩, congrArg State.tv (show t = _ from hc)⟩)
  case sbuild x => exact .inr (.inl ⟨.inr ⟨x, rfl⟩, congrArg State.tv (show t = _ from hc)⟩)
  case tload => exact .inr (.inr (.inl rfl))
  case tdrop => exact .inr (.inr (.inr (.inl ⟨rfl, congrArg State.tv (show t = _ from hc)⟩)))
  case srst => exact .inr (.inr (.inr (.inr ⟨rfl, congrArg State.tv (show t = _ from hc)⟩)))
  all_goals rw [show t = _ from hc]; exact .inl ⟨rfl, rfl, rfl, rfl, rfl⟩

/-! ### The writer, the reader and the queues -/

theorem writes_accumulator (hi : i ≠ .srst) (hne : t.wacc ≠ s.wacc ∨ t.wcnt ≠ s.wcnt) :
    i = .wrst ∨ (∃ b, i = .wbit b) ∨ i = .wflush ∨ i = .encode := by
  have hc := changes_of_exec h
  cases i
  case srst => exact absurd rfl hi
  case wrst => exact .inl rfl
  case wbit b => exact .inr (.inl ⟨b, rfl⟩)
  case wflush => exact .inr (.inr (.inl rfl))
  case encode => exact .inr (.inr (.inr rfl))
  all_goals
    rw [show t = _ from hc] at hne
    exact hne.elim (absurd rfl) (absurd rfl)

theorem writes_wtotal (hi : i ≠ .srst) (hne : t.wtotal ≠ s.wtotal) : i = .wrst ∨ (∃ b, i = .wbit b) ∨ i = .encode := by
  have hc := changes_of_exec h
  cases i
  case srst => exact absurd rfl hi
  case wrst => exact .inl rfl
  case wbit b => exact .inr (.inl ⟨b, rfl⟩)
  case encode => exact .inr (.inr rfl)
  all_goals exact absurd (congrArg State.wtotal (show t = _ from hc)) hne

theorem writes_reader (hi : i ≠ .srst) (hne : t.racc ≠ s.racc ∨ t.rcnt ≠ s.rcnt ∨ t.eod ≠ s.eod) :
    i = .rrst ∨ i = .rbit ∨ i = .decode := by
  have hc := changes_of_exec h
  cases i
  case srst => exact absurd rfl hi
  case rrst => exact .inl rfl
  case rbit => exact .inr (.inl rfl)
  case decode => exact .inr (.inr rfl)
  all_goals
    rw [show t = _ from hc] at hne
    exact hne.elim (absurd rfl) fun hne => hne.elim (absurd rfl) (absurd rfl)

theorem writes_src (hi : i ≠ .srst) (hne : t.src ≠ s.src) :
    i = .fscan ∨ i = .tload ∨ i = .rbit ∨ i = .encode ∨ i = .decode ∨ i = .srcclr := by
  have hc := changes_of_exec h
  cases i
  case srst => exact absurd rfl hi
  case fscan => exact .inl rfl
  case tload => exact .inr (.inl rfl)
  case rbit => exact .inr (.inr (.inl rfl))
  case encode => exact .inr (.inr (.inr (.inl rfl)))
  case decode => exact .inr (.inr (.inr (.inr (.inl rfl))))
  case srcclr => exact .inr (.inr (.inr (.inr (.inr rfl))))
  all_goals exact absurd (congrArg State.src (show t = _ from hc)) hne

theorem writes_snk (hi : i ≠ .srst) (hne : t.snk ≠ s.snk) :
    (∃ b, i = .wbit b) ∨ i = .wflush ∨ i = .encode ∨ i = .decode ∨ i = .tser ∨ i = .snkclr := by
  have hc := changes_of_exec h
  cases i
  case srst => exact absurd rfl hi
  case wbit b => exact .inl ⟨b, rfl⟩
  case wflush => exact .inr (.inl rfl)
  case encode => exact .inr (.inr (.inl rfl))
  case decode => exact .inr (.inr (.inr (.inl rfl)))
  case tser => exact .inr (.inr (.inr (.inr (.inl rfl))))
  case snkclr => exact .inr (.inr (.inr (.inr (.inr rfl))))
  all_goals exact absurd (congrArg State.snk (show t = _ from hc)) hne

end

/-- Settles O57, register by register. -/
theorem registersAndTablesWriters : Obligations.RegistersAndTablesWriters := fun _ _ _ h hi =>
  ⟨writes_ft h hi, writes_qt h hi, writes_arg0 h hi, exec_arg1 h hi, writes_len h hi⟩

/-- Settles O58, by the frame of each command. -/
theorem treeLifetime : Obligations.TreeLifetime := fun _ _ _ h => writes_tree h

/-- Settles O59, register by register. -/
theorem streamWriters : Obligations.StreamWriters := fun _ _ _ h hi =>
  ⟨writes_accumulator h hi, writes_wtotal h hi, writes_reader h hi, writes_src h hi, writes_snk h hi⟩

end Sys2Proof.Machine
end

section
/-! SUPPORT. R182, R183: TLOAD takes a proper tree's serial form from SRC, or the bytes up to what it faults on. -/

namespace Sys2Proof.Machine
open Sys2Proof

theorem exec_tload_of_tree {s : State} {tree : CodeTree} {ld : Loader} (h : parseSource s.src = .tree tree ld) :
    exec .tload s = .next (installTree tree 1 false { dropTree s with src := ld.src }) := by
  rw [exec, execTload, h]

theorem exec_tload_of_failed {s : State} {k : FaultKind} {e0 e1 : Nat} {ld : Loader}
    (h : parseSource s.src = .failed k e0 e1 ld) :
    exec .tload s = .next (raise k (countWord e0) (countWord e1) { dropTree s with src := ld.src }) := by
  rw [exec, execTload, h]

/-- Settles O40: the parser takes exactly the serial form. -/
theorem tloadReadsASerialTree : Obligations.TloadReadsASerialTree := by
  refine ⟨by decide, fun s tree rest hp hsrc => ?_⟩
  have hparse := parseSource_serial hp rest
  rw [← hsrc] at hparse
  exact ⟨_, exec_tload_of_tree hparse, rfl⟩

/-- What a parse from an empty record faults on, with the number of bytes it took: at most 256 internal markers and 256
leaves, so far below 2^64. -/
theorem parseSource_faults {src : List Byte} {k : FaultKind} {e0 e1 : Nat} {ld : Loader}
    (h : parseSource src = .failed k e0 e1 ld) : ∃ p gone, src = gone ++ ld.src ∧ e1 = gone.length ∧
      gone.length < 2 ^ 64 ∧ FaultsAt ⟨src, [], 0, 0⟩ k e0 ld p gone := by
  rw [parseSource] at h
  obtain ⟨p, gone, hgone, hfaults⟩ := parse_faults _ _ _ _ _ _ (Nat.lt_succ_self _) List.nodup_nil (Nat.zero_le _) h
  have hsound := parse_sound (src.length + 1) ⟨src, [], 0, 0⟩
  rw [h] at hsound
  obtain ⟨⟨gone', hgone', hconsumed, hmany⟩, rfl, hinternals, hseen, _⟩ := hsound
  obtain rfl : gone = gone' := List.append_cancel_right (hgone.symm.trans hgone')
  have hsymbols : ld.seen.length ≤ 256 := by
    simpa using ((hseen List.nodup_nil).subperm (fun x _ => mem_allSymbols x)).length_le
  have hnodes := hinternals (Nat.zero_le _)
  simp only [List.length_nil] at hmany
  exact ⟨p, gone, hgone, by rw [hconsumed]; exact Nat.zero_add _, by omega, hfaults⟩

theorem FaultsAt.unfinished {src : List Byte} {k : FaultKind} {e0 : Nat} {ld : Loader} {p : List (Option Byte)}
    {gone : List Byte} (h : FaultsAt ⟨src, [], 0, 0⟩ k e0 ld p gone) : Unfinished p := by
  obtain ⟨hopen, hdistinct, hfew, _⟩ := h
  exact ⟨hopen, by simpa using hdistinct, by simpa using hfew⟩

/-- Settles O41: the parser ends in a tree or in one of its four faults, and each has its code and its reason. -/
theorem tloadLoadsOrFaults : Obligations.TloadLoadsOrFaults := by
  intro s
  cases hparse : parseSource s.src with
  | tree tree ld =>
    obtain ⟨hp, hsrc⟩ := parse_proper hparse
    exact ⟨_, exec_tload_of_tree hparse, .inl ⟨ld.src, hp, hsrc, rfl⟩⟩
  | failed k e0 e1 ld =>
    obtain ⟨p, gone, hgone, rfl, hlt, hfaults⟩ := parseSource_faults hparse
    refine ⟨_, exec_tload_of_failed hparse, .inr ⟨gone, hgone, countWord_toNat hlt, rfl, p, hfaults.unfinished, ?_⟩⟩
    obtain ⟨_, _, _, hreason⟩ := hfaults
    rcases hreason with ⟨rfl, rfl, hnil, hbytes⟩ | ⟨rfl, rfl, hmarker⟩ | ⟨rfl, rfl, x, hx, hbytes⟩ |
      ⟨rfl, rfl, hcount, hbytes⟩
    · exact .inl ⟨rfl, rfl, hnil, hbytes⟩
    · exact .inr (.inl ⟨rfl, rfl, hmarker⟩)
    · exact .inr (.inr (.inl ⟨rfl, rfl, x, by simpa using hx, hbytes⟩))
    · exact .inr (.inr (.inr ⟨rfl, rfl, by simpa using hcount, hbytes⟩))

end Sys2Proof.Machine
end

section
/-! SUPPORT. R28, R29, R67, R194, R198, R210 to R213, R233 to R235: WBIT, RBIT, ENCODE and DECODE on the bits of the
writer and the reader. -/

namespace Sys2Proof.Machine
open Sys2Proof

/-! ### WBIT and RBIT -/

theorem getLsbD_zero_eq_decide {b : Byte} (hb : b.toNat ≤ 1) : b.getLsbD 0 = decide (b = 1) := by
  rcases bit_of hb with ⟨rfl, hbit⟩ | ⟨rfl, hbit⟩ <;> rw [hbit] <;> rfl

theorem toNat_setWidth_bitByte (b : Bit) : ((bitByte b).setWidth 64).toNat = b.toNat := by
  cases b <;> rfl

/-- Settles O46, by what one `WriteBit` and one `ReadBit` do to the streams. -/
theorem bitCommandsAreStreams : Obligations.BitCommandsAreStreams := by
  refine ⟨fun b s hb hw hroom => ?_, fun b s rest hr hbits => ?_⟩
  · have hcount := hw.count
    obtain ⟨t, hwrite, htOk, htBits, -, -⟩ := writeBit_ok (b := b.getLsbD 0) hw
      (fun c hc => by have := hroom c hc; omega)
    refine ⟨t, ?_, htOk, getLsbD_zero_eq_decide hb ▸ htBits⟩
    rw [exec_wbit, hwrite, endCommand]
  · obtain ⟨t, hread, htOk, htBits, ht⟩ := readBit_cons hr hbits
    exact ⟨_, exec_rbit_of_some hread, htOk.congr rfl rfl, htBits, toNat_setWidth_bitByte b, by rw [ht]⟩

/-! ### ENCODE -/

theorem exec_encode_of_ok {s t : State} (htv : s.tv = true) (h : encodeLoop s.src 0 s = .ok t) :
    exec .encode s = .next t := by
  rw [exec_encode_of_tree htv, h, settled_ok]

theorem exec_encode_of_error {s t : State} (htv : s.tv = true) (h : encodeLoop s.src 0 s = .error t) :
    exec .encode s = .next t := by
  rw [exec_encode_of_tree htv, h, settled_error]

/-- Settles O48: the loop runs through all of SRC. -/
theorem encodeWritesTheCodes : Obligations.EncodeWritesTheCodes := by
  refine ⟨by decide, fun s htv hw hcoded hroom => ?_⟩
  obtain ⟨t, hloop, htOk, htBits, -, ht⟩ := encodeLoop_ok s.src 0 rfl hcoded hw hroom
  exact ⟨t, exec_encode_of_ok htv hloop, htOk, htBits, ht⟩

/-- Settles O49: the loop stops at the byte without a code, having counted the bytes before it. -/
theorem encodeFaultsOnAbsentSymbol : Obligations.EncodeFaultsOnAbsentSymbol := by
  intro s done x rest htv hw hsrc hcoded habsent hlt hroom
  obtain ⟨t, hloop, htOk, htBits, ht⟩ := encodeLoop_absent done x rest 0 s hw hsrc hcoded habsent hroom
  have hinfo : t.errinfo1 = countWord done.length := by rw [ht, Nat.zero_add]
  refine ⟨t, exec_encode_of_error htv (hsrc ▸ hloop), ?_, htOk, htBits, ?_⟩
  · rw [hinfo, countWord_toNat hlt]
  · rw [hinfo]
    rwa [Nat.zero_add] at ht

/-! ### DECODE -/

theorem exec_decode_of_ok {s t : State} (htv : s.tv = true)
    (h : decodeLoop s.arg0.toNat s.arg0.toNat s = .ok t) : exec .decode s = .next t := by
  rw [exec_decode_of_tree htv, h, settled_ok]

theorem exec_decode_of_error {s t : State} (htv : s.tv = true)
    (h : decodeLoop s.arg0.toNat s.arg0.toNat s = .error t) : exec .decode s = .next t := by
  rw [exec_decode_of_tree htv, h, settled_error]

theorem countWord_toNat_word (v : Word) : countWord v.toNat = v :=
  BitVec.eq_of_toNat_eq (countWord_toNat v.isLt)

/-- Settles O50: the loop reads the codes one by one. -/
theorem decodeReadsTheCodes : Obligations.DecodeReadsTheCodes := by
  refine ⟨by decide, fun s out rest htv hp hr hsyms hbits harg hroom => ?_⟩
  obtain ⟨t, hloop, htOk, htBits, ht⟩ := decodeLoop_ok s.arg0.toNat out hp hsyms hr hbits hroom
  refine ⟨t, exec_decode_of_ok htv ?_, htOk, htBits, ht⟩
  rw [← hloop, harg]

/-- Settles O51: after the symbols of `out` the loop meets the end of data, and `out.length` symbols are produced. -/
theorem decodeFaultsOnTruncatedInput : Obligations.DecodeFaultsOnTruncatedInput := by
  intro s out tail htv hp hr hsyms hbits hnone hleaf hlt hroom
  obtain ⟨t, hloop, ht⟩ := decodeLoop_end s.arg0.toNat out s.arg0.toNat hp hr hsyms hbits hnone hleaf hlt hroom
  rw [countWord_toNat_word, Nat.sub_sub_self hlt.le] at ht
  have hinfo : t.errinfo1 = countWord out.length := by rw [ht]
  refine ⟨t, exec_decode_of_error htv hloop, ?_, ?_⟩
  · rw [hinfo, countWord_toNat (hlt.trans s.arg0.isLt)]
  · rw [hinfo]
    exact ht

/-- Settles O52: each 0 is the degenerate tree's symbol, and the 1 ends the loop with `k` symbols produced. -/
theorem decodeFaultsOnInvalidCode : Obligations.DecodeFaultsOnInvalidCode := by
  intro s x k rest htv htree hr hbits hlt hroom
  obtain ⟨t, hloop, htOk, htBits, ht⟩ := decodeLoop_off s.arg0.toNat x k s.arg0.toNat htree hr hbits hlt hroom
  rw [Nat.sub_sub_self hlt.le] at ht
  have hinfo : t.errinfo0 = countWord k := by rw [ht]
  refine ⟨t, exec_decode_of_error htv hloop, ?_, htOk, htBits, ?_⟩
  · rw [hinfo, countWord_toNat (hlt.trans s.arg0.isLt)]
  · rw [hinfo]
    exact ht

/-! ### A sink that fills up -/

/-- The faults of the commands that push nothing to SNK have other codes (60_exceptions.md R230, R239). -/
theorem pushes_of_sinkFull {i : Instr} {s t : State} (h : exec i s = .next t) (hgood : s.fault = false)
    (hbad : t.fault = true) (herr : t.err = 10) :
    (∃ b, i = .wbit b) ∨ i = .wflush ∨ i = .encode ∨ i = .decode ∨ i = .tser := by
  have hc := changes_of_exec h
  have hother {k : FaultKind} {e0 e1 : Word} {u : State} (hk : faultCode k ≠ 10) (ht : t = raise k e0 e1 u) : False :=
    hk (by rw [← herr, ht, raise_err])
  have hsame (hf : t.fault = s.fault) : False := by rw [hf, hgood] at hbad; cases hbad
  cases i
  case wbit b => exact .inl ⟨b, rfl⟩
  case wflush => exact .inr (.inl rfl)
  case encode => exact .inr (.inr (.inl rfl))
  case decode => exact .inr (.inr (.inr (.inl rfl)))
  case tser => exact .inr (.inr (.inr (.inr rfl)))
  case clrf => rw [eq_of_next h] at hbad; cases hbad
  case srst => rw [eq_of_next h] at hbad; cases hbad
  case quant w =>
    by_cases hw : w.toNat = 0 ∨ 65 ≤ w.toNat
    · rw [exec_quant_of_illegal hw] at h
      exact (hother (by decide) (eq_of_next h)).elim
    · rw [exec_quant_of_legal (by omega) (by omega)] at h
      exact (hsame (by rw [eq_of_next h])).elim
  case clen x =>
    cases htv : s.tv with
    | false => rw [exec_clen_of_noTree htv] at h; exact (hother (by decide) (eq_of_next h)).elim
    | true => rw [exec_clen_of_tree htv] at h; exact (hsame (by rw [eq_of_next h])).elim
  case cbits x k =>
    cases htv : s.tv with
    | false => rw [exec_cbits_of_noTree htv] at h; exact (hother (by decide) (eq_of_next h)).elim
    | true => rw [exec_cbits_of_tree htv] at h; exact (hsame (by rw [eq_of_next h])).elim
  case tload =>
    rcases execTload_cases h with ⟨tree, ld, _, ht⟩ | ⟨k, e0, e1, ld, hp, ht⟩
    · exact (hsame (by rw [ht]; rfl)).elim
    · obtain ⟨p, gone, _, _, _, _, _, _, hreason⟩ := parseSource_faults hp
      rcases hreason with ⟨rfl, _⟩ | ⟨rfl, _⟩ | ⟨rfl, _⟩ | ⟨rfl, _⟩ <;> exact (hother (by decide) ht).elim
  all_goals exact (hsame (by rw [show t = _ from hc])).elim

/-- SinkFull stands in the fault record only with SNK at its capacity (60_exceptions.md R239). -/
theorem full_of_sinkFull {i : Instr} {s t : State} (h : exec i s = .next t) (hgood : s.fault = false)
    (hbad : t.fault = true) (herr : t.err = 10) : SinkFullAt t ∧ t.errinfo0 = countWord t.snk.length := by
  have hclrf : i ≠ .clrf := by rintro rfl; rw [eq_of_next h] at hbad; cases hbad
  have hsrst : i ≠ .srst := by rintro rfl; rw [eq_of_next h] at hbad; cases hbad
  rcases faultRecord_of_exec h hclrf hsrst with ⟨_, hf, _⟩ | ⟨_, _, h9⟩ | ⟨_, _, hfull, hinfo⟩
  · rw [hf, hgood] at hbad; cases hbad
  · rw [herr] at h9; exact absurd h9 (by decide)
  · exact ⟨hfull, hinfo⟩

/-- Settles O60: the fault record tells a SinkFull by its code, and the loops of ENCODE and DECODE stop at the first byte
without room. -/
theorem sinkFullMeansFull : Obligations.SinkFullMeansFull := by
  refine ⟨fun i s t h hgood hbad herr => ⟨pushes_of_sinkFull h hgood hbad herr, ?_⟩,
    fun s done x rest n htv hw hsrc hcoded hcap hlt hbefore hwithin => ?_,
    fun s out x rest htv hp hr hsyms hx hbits hlen hcap hlt => ?_⟩
  · obtain ⟨⟨c, hcap, hle⟩, hinfo⟩ := full_of_sinkFull h hgood hbad herr
    exact ⟨c, hcap, hle, hinfo⟩
  · obtain ⟨sent, lost, hsent, hbytes, hloop⟩ := encodeLoop_full (k := 0) hsrc hcoded hw hcap hbefore hwithin
    exact ⟨_, sent, lost, exec_encode_of_error htv (hsrc ▸ hloop), hsent, hbytes, countWord_toNat hlt, rfl⟩
  · obtain ⟨t, hloop, htOk, htBits, ht⟩ := decodeLoop_full s.arg0.toNat x out s.arg0.toNat hp hr hsyms hx hbits hlen hcap
    have hinfo : t.errinfo0 = countWord (s.snk.length + out.length) := by rw [ht]
    refine ⟨t, exec_decode_of_error htv hloop, htOk, htBits, ?_, ?_⟩
    · rw [hinfo, countWord_toNat hlt]
    · rw [hinfo]
      exact ht

end Sys2Proof.Machine
end

section
/-! SUPPORT. R138 to R141: the values Quant scales to, and how the redistribution hands units out in turns. -/

namespace Sys2Proof.Machine
open Sys2Proof

/-! ### The scaled values -/

theorem sum_filter_pos (l : List Weighted) :
    ((l.filter fun x => 0 < x.weight).map (·.weight)).sum = (l.map (·.weight)).sum := by
  induction l with
  | nil => rfl
  | cons x l ih =>
    rw [List.filter_cons]
    split
    · rw [List.map_cons, List.map_cons, List.sum_cons, List.sum_cons, ih]
    · next hx =>
      have hzero : x.weight = 0 := by simpa using hx
      rw [List.map_cons, List.sum_cons, hzero, Nat.zero_add, ih]

theorem totalWeight_presentSymbols (f : Table) : totalWeight (presentSymbols f) = tableSum f := by
  rw [totalWeight, presentSymbols, sum_filter_pos, List.map_map]
  rfl

theorem maxWeight_presentSymbols {f : Table} {m : Nat} (hm : ∃ x, (tableGet f x).toNat = m)
    (hle : ∀ x, (tableGet f x).toNat ≤ m) : maxWeight (presentSymbols f) = m := by
  obtain ⟨x, rfl⟩ := hm
  exact le_antisymm (maxWeight_present_le.2 hle) (maxWeight_present_le.1 le_rfl x)

theorem divisor_presentSymbols {f : Table} {m : Nat} (hm : ∃ x, (tableGet f x).toNat = m)
    (hle : ∀ x, (tableGet f x).toNat ≤ m) (b : Nat) :
    divisor (presentSymbols f) b = if b < presentCount f then tableSum f else m := by
  rw [divisor, presentCount_eq, totalWeight_presentSymbols, maxWeight_presentSymbols hm hle]

theorem exceeds_of_max {f : Table} {w m : Nat} (hm : ∃ x, (tableGet f x).toNat = m) (hgt : bound w < m) :
    ∃ x, bound w < (tableGet f x).toNat := by
  obtain ⟨x, rfl⟩ := hm
  exact ⟨x, hgt⟩

/-- On the scaled path an entry of the quantised table is the value listed for its symbol. -/
theorem tableGet_quant_of_mem {f : Table} {w : Nat} (hw : 1 ≤ w) (h64 : w ≤ 64)
    (hgt : ∃ x, bound w < (tableGet f x).toNat) {v : Weighted} (hv : v ∈ scaledValues (presentSymbols f) w) :
    (tableGet (quant f w) v.sym).toNat = v.weight := by
  rw [quant_eq_tableOf hgt, tableOf_mem (nodup_scaledValues hw f) hv, BitVec.toNat_ofNat,
    Nat.mod_eq_of_lt (scaledValues_weight_lt hw h64 hv)]

theorem scaledValues_of_not_redistributed {l : List Weighted} {w : Nat} (h : 8 ≤ w ∨ bound w < l.length) :
    scaledValues l w = (ranked l).map (scaleOne (bound w) (divisor l (bound w))) :=
  if_neg (by omega)

theorem entry_mem_presentSymbols {f : Table} {x : Byte} (hx : tableGet f x ≠ 0) : entry f x ∈ presentSymbols f :=
  mem_presentSymbols_iff_entry.2 ⟨hx, rfl⟩

/-- Settles O24: each present symbol's scaled value is listed as it is. -/
theorem quantScalesAndRounds : Obligations.QuantScalesAndRounds := by
  rintro f w m d hw h64 hm hle hgt hkeep rfl x hx
  have hlist : scaledValues (presentSymbols f) w =
      (ranked (presentSymbols f)).map (scaleOne (bound w) (divisor (presentSymbols f) (bound w))) :=
    scaledValues_of_not_redistributed (by rwa [presentCount_eq])
  have hmem : scaleOne (bound w) (divisor (presentSymbols f) (bound w)) (entry f x) ∈
      scaledValues (presentSymbols f) w :=
    hlist ▸ List.mem_map_of_mem ((ranked_perm _).mem_iff.2 (entry_mem_presentSymbols hx))
  rw [divisor_presentSymbols hm hle] at hmem
  exact tableGet_quant_of_mem hw h64.le (exceeds_of_max hm hgt) hmem

/-! ### Turns -/

/-- From every value `n` units are taken and one more from the first `k`, never below 1. -/
def takeUnits (n k : Nat) (l : List Weighted) : List Weighted :=
  l.mapIdx fun j x => ⟨x.sym, max 1 (x.weight - (n + if j < k then 1 else 0))⟩

/-- To every value `n` units are added and one more to the first `k`, never above `b`. -/
def giveUnits (b n k : Nat) (l : List Weighted) : List Weighted :=
  l.mapIdx fun j x => ⟨x.sym, min b (x.weight + (n + if j < k then 1 else 0))⟩

/-- The values are between 1 and `b`. -/
def WithinBounds (b : Nat) (l : List Weighted) : Prop := ∀ x ∈ l, 1 ≤ x.weight ∧ x.weight ≤ b

theorem takeUnits_zero {b : Nat} {l : List Weighted} (h : WithinBounds b l) : takeUnits 0 0 l = l := by
  refine (List.mapIdx_eq_iff.2 fun j => ?_)
  rcases hj : l[j]? with _ | x
  · rfl
  · have hx := (h x (List.mem_of_getElem? hj)).1
    simp [max_eq_right hx]

theorem giveUnits_zero {b : Nat} {l : List Weighted} (h : WithinBounds b l) : giveUnits b 0 0 l = l := by
  refine (List.mapIdx_eq_iff.2 fun j => ?_)
  rcases hj : l[j]? with _ | x
  · rfl
  · have hx := (h x (List.mem_of_getElem? hj)).2
    simp [min_eq_right hx]

/-- A whole turn is one unit from every value. -/
theorem takeUnits_of_whole_turn {l : List Weighted} {m : Nat} (h : l.length ≤ m) (n k : Nat) :
    takeUnits n k (takeUnits 0 m l) = takeUnits (n + 1) k l := by
  rw [takeUnits, takeUnits, List.mapIdx_mapIdx]
  refine List.mapIdx_eq_mapIdx_iff.2 fun j hj => ?_
  have hjm : j < m := by omega
  simp only [Function.comp, hjm, if_true, Weighted.mk.injEq, true_and]
  omega

theorem giveUnits_of_whole_turn {l : List Weighted} {m : Nat} (h : l.length ≤ m) (b n k : Nat) :
    giveUnits b n k (giveUnits b 0 m l) = giveUnits b (n + 1) k l := by
  rw [giveUnits, giveUnits, List.mapIdx_mapIdx]
  refine List.mapIdx_eq_mapIdx_iff.2 fun j hj => ?_
  have hjm : j < m := by omega
  simp only [Function.comp, hjm, if_true, Weighted.mk.injEq, true_and]
  omega

/-- If each walk moves one unit at each of the first `k` values, and all of them unless it uses the remainder up, then
the walks together move whole turns and a part of one. -/
theorem redistLoop_in_turns {b : Nat} {P : List Weighted → Int → Prop}
    {U : Nat → Nat → List Weighted → List Weighted} (hzero : ∀ l r, P l r → U 0 0 l = l)
    (hwhole : ∀ (l : List Weighted) (m n k : Nat), l.length ≤ m → U n k (U 0 m l) = U (n + 1) k l)
    (hpass : ∀ l r, P l r → P (redistPass b l r).1 (redistPass b l r).2.1 ∧
      ∃ k, (redistPass b l r).1 = U 0 k l ∧ ((redistPass b l r).2.1 = 0 ∨ l.length ≤ k)) :
    ∀ (fuel : Nat) (l : List Weighted) (r : Int), P l r → ∃ n k, redistLoop b fuel l r = U n k l
  | 0, l, r, h => ⟨0, 0, (hzero l r h).symm⟩
  | fuel + 1, l, r, h => by
    obtain ⟨hP, k, hk, hrest⟩ := hpass l r h
    simp only [redistLoop]
    split
    · exact ⟨0, k, hk⟩
    · next hgo =>
      obtain ⟨n, k', hloop⟩ := redistLoop_in_turns hzero hwhole hpass fuel _ _ hP
      refine ⟨n + 1, k', ?_⟩
      rw [hloop, hk, hwhole l k n k' (hrest.resolve_left fun h0 => hgo (.inl h0))]

theorem redistribute_down {b : Nat} {l : List Weighted} {r : Int} (hl : WithinBounds b l) (hr : r ≤ 0) :
    ∃ n k, redistribute b l r = takeUnits n k l := by
  refine redistLoop_in_turns (P := fun l r => WithinBounds b l ∧ r ≤ 0) (fun _ _ h => takeUnits_zero h.1)
    (fun _ _ n k h => takeUnits_of_whole_turn h n k) ?_ _ l r ⟨hl, hr⟩
  rintro l r ⟨hl, hr⟩
  obtain ⟨_, hbounds, _, _, hneg, _⟩ := redistPass_spec b l r hl
  obtain ⟨k, hk, _, hrest⟩ := redistPass_down b l r hr fun x hx => (hl x hx).1
  exact ⟨⟨hbounds, (hneg hr).1⟩, k, by simpa only [takeUnits, Nat.zero_add] using hk, hrest⟩

theorem redistribute_up {b : Nat} {l : List Weighted} {r : Int} (hl : WithinBounds b l) (hr : 0 ≤ r) :
    ∃ n k, redistribute b l r = giveUnits b n k l := by
  refine redistLoop_in_turns (P := fun l r => WithinBounds b l ∧ 0 ≤ r) (fun _ _ h => giveUnits_zero h.1)
    (fun _ _ n k h => giveUnits_of_whole_turn h b n k) ?_ _ l r ⟨hl, hr⟩
  rintro l r ⟨hl, hr⟩
  obtain ⟨_, hbounds, _, hpos, _⟩ := redistPass_spec b l r hl
  obtain ⟨k, hk, _, hrest⟩ := redistPass_up b l r hr fun x hx => (hl x hx).2
  exact ⟨⟨hbounds, (hpos hr).1⟩, k, by simpa only [giveUnits, Nat.zero_add] using hk, hrest⟩

/-! ### What is moved is the remainder -/

/-- The values can give up, or take, the remainder. -/
def CanMove (b : Nat) (l : List Weighted) (r : Int) : Prop :=
  (l.length : Int) ≤ totalWeight l + r ∧ (totalWeight l : Int) + r ≤ l.length * b

/-- A walk that changes nothing has a remainder of 0, or finds all values at the limit. -/
theorem eq_zero_of_not_moved {b : Nat} {l : List Weighted} {r : Int} (h : CanMove b l r)
    (hup : 0 < r → ∀ x ∈ l, x.weight = b) (hdown : r < 0 → ∀ x ∈ l, x.weight = 1) : r = 0 := by
  obtain ⟨hlow, hhigh⟩ := h
  rcases lt_trichotomy r 0 with hr | hr | hr
  · have htotal := totalWeight_const (hdown hr)
    omega
  · exact hr
  · have htotal := totalWeight_const (hup hr)
    rw [htotal] at hhigh
    push_cast at hhigh
    omega

theorem totalWeight_redistLoop {b : Nat} : ∀ (fuel : Nat) (l : List Weighted) (r : Int), WithinBounds b l →
    r.natAbs ≤ fuel → CanMove b l r → (totalWeight (redistLoop b fuel l r) : Int) = totalWeight l + r
  | 0, l, r, _, hfuel, _ => by
    obtain rfl : r = 0 := by omega
    simp [redistLoop]
  | fuel + 1, l, r, hl, hfuel, hmove => by
    obtain ⟨hsyms, hbounds, htotal, hpos, hneg, hmoved, hstill⟩ := redistPass_spec b l r hl
    have hlen : (redistPass b l r).1.length = l.length := by simpa using congrArg List.length hsyms
    simp only [redistLoop]
    split
    · next hstop =>
      have hdone : (redistPass b l r).2.1 = 0 := by
        refine hstop.elim id fun hno => ?_
        obtain ⟨hr, hup, hdown⟩ := hstill hno
        rw [hr, eq_zero_of_not_moved hmove hup hdown]
      omega
    · next hgo =>
      have hne := hmoved (by simpa using fun h => hgo (.inr h))
      have hnear : (redistPass b l r).2.1.natAbs ≤ fuel := by
        rcases le_total 0 r with hr | hr
        · have hle := hpos hr; omega
        · have hle := hneg hr; omega
      rw [totalWeight_redistLoop fuel _ _ hbounds hnear (by rw [CanMove, hlen, htotal]; exact hmove), htotal]

theorem totalWeight_redistribute {b : Nat} {l : List Weighted} {r : Int} (hl : WithinBounds b l) (h : CanMove b l r) :
    (totalWeight (redistribute b l r) : Int) = totalWeight l + r :=
  totalWeight_redistLoop _ l r hl le_rfl h

theorem length_le_totalWeight {b : Nat} {l : List Weighted} (h : WithinBounds b l) : l.length ≤ totalWeight l := by
  have hsum := List.card_nsmul_le_sum (l.map (·.weight)) 1 (by simpa using fun x hx => (h x hx).1)
  simpa [totalWeight] using hsum

theorem totalWeight_le_length_mul {b : Nat} {l : List Weighted} (h : WithinBounds b l) :
    totalWeight l ≤ l.length * b := by
  have hsum := List.sum_le_card_nsmul (l.map (·.weight)) b (by simpa using fun x hx => (h x hx).2)
  simpa [totalWeight] using hsum

theorem canMove_down {b : Nat} {l : List Weighted} {r : Int} (hl : WithinBounds b l) (hr : r ≤ 0)
    (h : (l.length : Int) ≤ totalWeight l + r) : CanMove b l r := by
  have hhigh : (totalWeight l : Int) ≤ l.length * b := by exact_mod_cast totalWeight_le_length_mul hl
  exact ⟨h, by omega⟩

theorem canMove_up {b : Nat} {l : List Weighted} {r : Int} (hl : WithinBounds b l) (hr : 0 ≤ r)
    (h : (totalWeight l : Int) + r ≤ l.length * b) : CanMove b l r := by
  have hlow := length_le_totalWeight hl
  exact ⟨by omega, h⟩

/-! ### The rank list of QUANT -/

theorem eq_of_ranksBefore {x y : Weighted} (h : ranksBefore x y = true) (h' : ranksBefore y x = true) : x = y := by
  simp only [ranksBefore, Bool.or_eq_true, Bool.and_eq_true, decide_eq_true_eq, beq_iff_eq] at h h'
  obtain ⟨sx, wx⟩ := x
  obtain ⟨sy, wy⟩ := y
  simp only at h h'
  rw [Weighted.mk.injEq]
  exact ⟨BitVec.eq_of_toNat_eq (by omega), by omega⟩

/-- `order` lists the present symbols by count descending, equal counts by symbol ascending (42_quantizer.md R141). -/
structure RankOrder (f : Table) (order : List Byte) : Prop where
  mem_iff : ∀ x, x ∈ order ↔ tableGet f x ≠ 0
  sorted : order.Pairwise fun x y => (tableGet f y).toNat < (tableGet f x).toNat ∨
    (tableGet f x = tableGet f y ∧ x.toNat < y.toNat)

theorem RankOrder.nodup {f : Table} {order : List Byte} (h : RankOrder f order) : order.Nodup := by
  refine h.sorted.imp ?_
  rintro x y hxy rfl
  omega

theorem RankOrder.ranked_eq {f : Table} {order : List Byte} (h : RankOrder f order) :
    ranked (presentSymbols f) = order.map (entry f) := by
  have hsorted : (order.map (entry f)).Pairwise fun x y => ranksBefore x y = true := by
    refine List.pairwise_map.2 (h.sorted.imp fun {x y} hxy => ?_)
    simp only [ranksBefore, Bool.or_eq_true, Bool.and_eq_true, decide_eq_true_eq, beq_iff_eq]
    exact hxy.imp_right fun ⟨heq, hlt⟩ => ⟨congrArg BitVec.toNat heq, hlt.le⟩
  have hnodup : (order.map (entry f)).Nodup := h.nodup.map fun x y hxy => congrArg Weighted.sym hxy
  have hperm : (ranked (presentSymbols f)).Perm (order.map (entry f)) := by
    refine (ranked_perm _).trans ((List.perm_ext_iff_of_nodup (nodup_presentSymbols f).of_map hnodup).2 fun v => ?_)
    rw [mem_presentSymbols_iff_entry, List.mem_map, ← h.mem_iff]
    exact ⟨fun ⟨hmem, heq⟩ => ⟨v.sym, hmem, heq.symm⟩, fun ⟨x, hmem, heq⟩ => heq ▸ ⟨hmem, rfl⟩⟩
  exact hperm.eq_of_pairwise (fun _ _ _ _ => eq_of_ranksBefore) (ranked_pairwise _) hsorted

/-- The largest count scales to the bound (42_quantizer.md R139). -/
theorem scaleOne_weight_of_max {b m : Nat} {x : Weighted} (hx : x.weight = m) (hm : 0 < m) (hb : 1 ≤ b) :
    (scaleOne b m x).weight = b := by
  have hround : rnd (m * b) m = b := by
    rw [rnd, show 2 * (m * b) + m = m + 2 * m * b by ring, Nat.add_mul_div_left _ _ (by omega),
      Nat.div_eq_of_lt (by omega), Nat.zero_add]
  rw [scaleOne, hx, hround, clamp, max_eq_right hb, min_self]

theorem one_le_bound {w : Nat} (hw : 1 ≤ w) : 1 ≤ bound w := by
  have := Nat.pow_le_pow_right (n := 2) (by omega) hw
  unfold bound
  omega

theorem scaledValues_of_rankOrder {f : Table} {w m : Nat} {order : List Byte} (h8 : w < 8)
    (hm : ∃ x, (tableGet f x).toNat = m) (hle : ∀ x, (tableGet f x).toNat ≤ m) (hcount : presentCount f ≤ bound w)
    (horder : RankOrder f order) : scaledValues (presentSymbols f) w =
      redistribute (bound w) ((order.map (entry f)).map (scaleOne (bound w) m))
        ((bound w : Int) - totalWeight ((order.map (entry f)).map (scaleOne (bound w) m))) := by
  rw [scaledValues]
  simp only [horder.ranked_eq, divisor_presentSymbols hm hle, if_neg (Nat.not_lt.2 hcount)]
  exact if_pos ⟨h8, by rwa [presentCount_eq]⟩

/-- Down the rank list the quantised values are the scaled ones less the units handed out. -/
theorem tableGet_quant_in_turns {f : Table} {w m : Nat} {order : List Byte} (hw : 1 ≤ w) (h8 : w < 8)
    (hm : ∃ x, (tableGet f x).toNat = m) (hle : ∀ x, (tableGet f x).toNat ≤ m) (hgt : bound w < m)
    (hcount : presentCount f ≤ bound w) (horder : RankOrder f order) :
    ∃ n k : Nat, ∀ j x, order[j]? = some x → (tableGet (quant f w) x).toNat =
      max 1 ((scaleOne (bound w) m (entry f x)).weight - (n + if j < k then 1 else 0)) := by
  have hlist := scaledValues_of_rankOrder h8 hm hle hcount horder
  have hbounds : WithinBounds (bound w) ((order.map (entry f)).map (scaleOne (bound w) m)) := by
    intro v hv
    obtain ⟨x, _, rfl⟩ := List.mem_map.1 hv
    exact scaleOne_bound (one_le_bound hw) m x
  have htotal : bound w ≤ totalWeight ((order.map (entry f)).map (scaleOne (bound w) m)) := by
    obtain ⟨x, hx⟩ := hm
    have hmem : x ∈ order := (horder.mem_iff x).2 fun h0 => by rw [h0] at hx; simp at hx; omega
    have hscaled : scaleOne (bound w) m (entry f x) ∈ (order.map (entry f)).map (scaleOne (bound w) m) :=
      List.mem_map_of_mem (List.mem_map_of_mem hmem)
    calc bound w = (scaleOne (bound w) m (entry f x)).weight :=
          (scaleOne_weight_of_max hx (by omega) (one_le_bound hw)).symm
      _ ≤ _ := List.le_sum_of_mem (List.mem_map_of_mem hscaled)
  obtain ⟨n, k, hturns⟩ := redistribute_down hbounds
    (r := (bound w : Int) - totalWeight ((order.map (entry f)).map (scaleOne (bound w) m))) (by omega)
  rw [hturns] at hlist
  refine ⟨n, k, fun j x hj => ?_⟩
  have hget : (scaledValues (presentSymbols f) w)[j]? =
      some ⟨x, max 1 ((scaleOne (bound w) m (entry f x)).weight - (n + if j < k then 1 else 0))⟩ := by
    rw [hlist, takeUnits, List.getElem?_mapIdx, List.getElem?_map, List.getElem?_map, hj]
    rfl
  exact tableGet_quant_of_mem hw (by omega) (exceeds_of_max hm hgt) (List.mem_of_getElem? hget)

/-- Settles O25: the turns of the two directions, the remainder they move, and for QUANT the downward direction, as the
scaled values have at least the bound between them. -/
theorem redistributionTakesTurns : Obligations.RedistributionTakesTurns := by
  refine ⟨fun b l r hl => ⟨fun hr hlow => ?_, fun hr hhigh => ?_⟩, ?_⟩
  · exact ⟨totalWeight_redistribute hl (canMove_down hl hr hlow), redistribute_down hl hr⟩
  · exact ⟨totalWeight_redistribute hl (canMove_up hl hr hhigh), redistribute_up hl hr⟩
  · rintro f w m b order hw h8 rfl hm hle hgt hcount hmem hsorted
    exact ⟨tableSum_quant hw h8 (exceeds_of_max hm hgt) hcount,
      tableGet_quant_in_turns hw h8 hm hle hgt hcount ⟨hmem, hsorted⟩⟩

end Sys2Proof.Machine
end

section
/-! SUPPORT. R150, R154, R174: both builders' trees hold the leaves of the table, each once. -/

namespace Sys2Proof.Machine
open Sys2Proof

theorem builder_syms {tab : Table} {t : CodeTree} (h : t = hBuild tab ∨ t = sBuild tab) :
    (syms t).Perm ((leaves tab).map (·.sym)) := by
  rcases h with rfl | rfl
  · exact hBuild_syms tab
  · exact sBuild_syms tab

/-- Settles O27: the tree has as many leaves as the table, with the same symbols. -/
theorem buildersCoverThePresentSymbols : Obligations.BuildersCoverThePresentSymbols := by
  intro tab t h
  have hperm := builder_syms h
  refine ⟨(builder_facts h).1, fun x => hperm.mem_iff.trans mem_leaves, ?_⟩
  rw [leaf_iff, hperm.length_eq, List.length_map, leaves_length]

end Sys2Proof.Machine
end
